-- ==== Sys2Proof/Word.lean ====
section
/-! DEFINITION. The word types of aes_core: bytes, 32-bit register words, 16-byte blocks, 4-byte schedule
words and the 60-word round-key schedule (00_scope.md R9, R10; 10_state.md R15, R16). -/

namespace Sys2Proof

/-- An unsigned 8-bit value (R10). -/
abbrev Byte := BitVec 8

/-- A 32-bit host register value, address or length (R9 REG_WIDTH, ADDR_WIDTH). -/
abbrev Word := BitVec 32

/-- A 16-byte block: `S`, `PREV`, `HOLD`, or a block of a message. Index `4*c + r` is row `r`, column `c` (R15, R45). -/
abbrev Block := Vector Byte 16

/-- A schedule word `[b0, b1, b2, b3]` (R47). It is never read as a 32-bit integer. -/
abbrev KeyWord := Vector Byte 4

/-- The round-key schedule `W[0..59]` (R16). -/
abbrev Schedule := Vector KeyWord 60

/-- Sixteen zero bytes. -/
def zeroBlock : Block := Vector.replicate 16 0

/-- Four zero bytes. -/
def zeroKeyWord : KeyWord := Vector.replicate 4 0

end Sys2Proof
end

