-- ==== Sys2Proof/Config.lean ====
section
/-! DEFINITION. What an integration fixes (the bounds of MEM_SIZE) and the free values the spec leaves open. -/

namespace Sys2Proof

/-- The least `MEM_SIZE` (R41). -/
def Config.minMemSize : Nat := 16

/-- The greatest `MEM_SIZE` (R41). -/
def Config.maxMemSize : Nat := 2 ^ 31

/-- DESIGN CHOICE (log 1): the size `State.reset` shows for the OPEN parameter MEM_SIZE, the one 95_test_vectors.md
uses. Statements quantify over every size. -/
def Config.resetMemSize : Nat := 4096

/-- A free byte for each draw: a buffer byte that R56(d), R261 or R262 leaves unspecified, or a byte of `W`
after reset (R36). It has no body: nothing constrains it (log 4). -/
opaque Config.freeByte : Nat → Byte

/-- A free register value for each draw: a read of `OUT_LEN`, `RES` or `KEYCFG` while busy (R213). Nothing
constrains it (log 4). -/
opaque Config.freeWord : Nat → Word

/-- A free bit for each draw: `STATUS.KEY_VALID` read while busy (R213). Nothing constrains it (log 4). -/
opaque Config.freeBit : Nat → Bool

end Sys2Proof
end

