-- ==== Sys2Proof/Syntax.lean ====
section
/-! DEFINITION. The 21 commands of aes_core, one constructor per row of the opcode table (30_encoding.md R62). -/

namespace Sys2Proof

/-- A command word's meaning after decoding. The only operand inside a word is the round number of
`ADD_ROUND_KEY` (R61); every other operand is latched from the host registers. -/
inductive Instr where
  /-- 0x00 `NOP` (R205). -/
  | nop
  /-- 0x01 `KEY_EXPAND` (R126). -/
  | keyExpand
  /-- 0x10 `STATE_LOAD` (R151). -/
  | stateLoad
  /-- 0x11 `STATE_STORE` (R152). -/
  | stateStore
  /-- 0x12 `SUB_BYTES` (R153). -/
  | subBytes
  /-- 0x13 `INV_SUB_BYTES` (R154). -/
  | invSubBytes
  /-- 0x14 `SHIFT_ROWS` (R155). -/
  | shiftRows
  /-- 0x15 `INV_SHIFT_ROWS` (R156). -/
  | invShiftRows
  /-- 0x16 `MIX_COLUMNS` (R157). -/
  | mixColumns
  /-- 0x17 `INV_MIX_COLUMNS` (R158). -/
  | invMixColumns
  /-- 0x18 `ADD_ROUND_KEY round` (R159), `round` being the word's ARG field. -/
  | addRoundKey (round : Nat)
  /-- 0x20 `CIPHER_BLOCK` (R160). -/
  | cipherBlock
  /-- 0x21 `INV_CIPHER_BLOCK` (R161). -/
  | invCipherBlock
  /-- 0x30 `ECB_ENC` (R184). -/
  | ecbEnc
  /-- 0x31 `ECB_DEC` (R185). -/
  | ecbDec
  /-- 0x32 `CBC_ENC` (R186). -/
  | cbcEnc
  /-- 0x33 `CBC_DEC` (R187). -/
  | cbcDec
  /-- 0x40 `GF_MUL` (R105). -/
  | gfMul
  /-- 0x41 `GF_DOUBLE` (R106). -/
  | gfDouble
  /-- 0x42 `SBOX` (R114). -/
  | sbox
  /-- 0x43 `INV_SBOX` (R115). -/
  | invSbox
deriving DecidableEq, Repr

end Sys2Proof
end

