-- ==== Sys2Proof/WellFormed.lean ====
section
/-! DEFINITION. Which terms of `Instr` are commands the encoding can carry (30_encoding.md R60, R61). -/

namespace Sys2Proof

/-- ARG is a 4-bit field, "a round number 0..15" (R60, R61). A round above the loaded key's `NR` is still well
formed: it fails when it runs (R63, R159). -/
def Instr.wf : Instr → Bool
  | .addRoundKey round => decide (round < 16)
  | .nop | .keyExpand | .stateLoad | .stateStore | .subBytes | .invSubBytes | .shiftRows | .invShiftRows
  | .mixColumns | .invMixColumns | .cipherBlock | .invCipherBlock | .ecbEnc | .ecbDec | .cbcEnc | .cbcDec
  | .gfMul | .gfDouble | .sbox | .invSbox => true

end Sys2Proof
end

