-- ==== Sys2Proof/Decode.lean ====
section
/-! DEFINITION. Decoding of any 32-bit command word, and the encoder (30_encoding.md R60 to R64). -/

namespace Sys2Proof

/-- Why a word is `Illegal` (R63, R64). All three complete with the same error code; the names say which
test of R63 failed first. -/
inductive Illegal where
  /-- `RSV = bits[31:12]` is not zero. -/
  | reservedBits
  /-- `OP = bits[7:0]` is not in the OP column of R62. -/
  | opcodeUnassigned
  /-- `ARG = bits[11:8]` is not zero and OP is not 0x18. -/
  | argNotZero
deriving DecidableEq, Repr

/-- What `decode` answers: a command, or an illegal word by the name of its first failed test. -/
inductive Decoded where
  | command (i : Instr)
  | illegal (why : Illegal)
deriving DecidableEq, Repr

/-- `OP = bits[7:0]` (R60). -/
def opField (w : Word) : Byte := w.extractLsb' 0 8

/-- `ARG = bits[11:8]`, read as a round number 0..15 (R60, R61). -/
def argField (w : Word) : Nat := (w.extractLsb' 8 4).toNat

/-- `RSV = bits[31:12]` (R60). -/
def rsvField (w : Word) : BitVec 20 := w.extractLsb' 12 20

/-- The opcode map, OP to command, with the round number of `ADD_ROUND_KEY` filled in (R62). -/
def opcodeCommand (op : Byte) (arg : Nat) : Option Instr :=
  match op.toNat with
  | 0x00 => some .nop
  | 0x01 => some .keyExpand
  | 0x10 => some .stateLoad
  | 0x11 => some .stateStore
  | 0x12 => some .subBytes
  | 0x13 => some .invSubBytes
  | 0x14 => some .shiftRows
  | 0x15 => some .invShiftRows
  | 0x16 => some .mixColumns
  | 0x17 => some .invMixColumns
  | 0x18 => some (.addRoundKey arg)
  | 0x20 => some .cipherBlock
  | 0x21 => some .invCipherBlock
  | 0x30 => some .ecbEnc
  | 0x31 => some .ecbDec
  | 0x32 => some .cbcEnc
  | 0x33 => some .cbcDec
  | 0x40 => some .gfMul
  | 0x41 => some .gfDouble
  | 0x42 => some .sbox
  | 0x43 => some .invSbox
  | _ => none

/-- `decode(w)`, total on any 32-bit word, its tests in the order of R63. -/
def decode (w : Word) : Decoded :=
  if rsvField w ≠ 0 then .illegal .reservedBits
  else
    match opcodeCommand (opField w) (argField w) with
    | none => .illegal .opcodeUnassigned
    | some i => if opField w ≠ 0x18 ∧ argField w ≠ 0 then .illegal .argNotZero else .command i

/-- The OP value of each command (R62). -/
def opcodeOf : Instr → Nat
  | .nop => 0x00
  | .keyExpand => 0x01
  | .stateLoad => 0x10
  | .stateStore => 0x11
  | .subBytes => 0x12
  | .invSubBytes => 0x13
  | .shiftRows => 0x14
  | .invShiftRows => 0x15
  | .mixColumns => 0x16
  | .invMixColumns => 0x17
  | .addRoundKey _ => 0x18
  | .cipherBlock => 0x20
  | .invCipherBlock => 0x21
  | .ecbEnc => 0x30
  | .ecbDec => 0x31
  | .cbcEnc => 0x32
  | .cbcDec => 0x33
  | .gfMul => 0x40
  | .gfDouble => 0x41
  | .sbox => 0x42
  | .invSbox => 0x43

/-- The ARG value of each command: the round of `ADD_ROUND_KEY`, 0 in every other row (R62). -/
def argOf : Instr → Nat
  | .addRoundKey round => round
  | .nop | .keyExpand | .stateLoad | .stateStore | .subBytes | .invSubBytes | .shiftRows | .invShiftRows
  | .mixColumns | .invMixColumns | .cipherBlock | .invCipherBlock | .ecbEnc | .ecbDec | .cbcEnc | .cbcDec
  | .gfMul | .gfDouble | .sbox | .invSbox => 0

/-- The full command word: RSV zero, ARG in bits 11:8, OP in bits 7:0 (R60, R62). -/
def encode (i : Instr) : Word := BitVec.ofNat 32 (opcodeOf i + 256 * argOf i)

/-- The instruction the decoder reads from the `nbits` low bits of `w`. Every command is exactly one 32-bit
word (R60), so bits the table leaves out are zero and a longer value than 32 bits is no command. -/
def decodeTableWord (nbits w : Nat) : Option Instr :=
  if w % 2 ^ nbits < 2 ^ 32 then
    match decode (BitVec.ofNat 32 (w % 2 ^ nbits)) with
    | .command i => some i
    | .illegal _ => none
  else none

end Sys2Proof
end

