-- ==== Sys2Proof/Machine/State.lean ====
section
/-! DEFINITION. Everything the spec gives the machine, as plain data, and the state after reset
(10_state.md R13 to R36, 20_memory.md R41, 45_command_sequencer.md R207). -/

namespace Sys2Proof.Machine

/-- The buffer memory (R41): its size `MEM_SIZE` and the bytes listed, in canonical form (`Memory.wf`). An
address below `size` that is not listed reads as 0x00 (log 2). -/
structure Memory where
  /-- `MEM_SIZE`, fixed for the machine: no step changes it (R41; log 1). -/
  size : Nat
  /-- Addresses strictly rising, all below `size`, no byte 0x00. -/
  cells : List Host.Cell
deriving DecidableEq, Repr

/-- The error names of R239. Codes 8 to 15 are reserved and never written, so they have no name here. -/
inductive ErrCode where
  /-- Code 0: every successful command. -/
  | ok
  /-- Code 1 (R231). -/
  | invalidKeyLength
  /-- Code 2 (R232). -/
  | badCiphertextLength
  /-- Code 3 (R233). -/
  | missingOrBadIV
  /-- Code 4 (R234). -/
  | badPadding
  /-- Code 5 (R235). -/
  | keyNotLoaded
  /-- Code 6 (R236). -/
  | illegalCommand
  /-- Code 7 (R237). -/
  | badAddress
deriving DecidableEq, Repr

/-- The control states of R207. Their binary encoding is not observable and not modelled. -/
inductive Fsm where
  | idle
  | check
  | xform
  | kload
  | kexp
  | blkIn
  | encRnd
  | decRnd
  | padChk
  | blkOut
  | finish
deriving DecidableEq, Repr

/-- The latched operands `L.CMD`, `L.KEY_ADDR`, ..., `L.OPB` (R20). -/
structure Latched where
  cmd : Word
  keyAddr : Word
  keyLen : Word
  ivAddr : Word
  ivLen : Word
  srcAddr : Word
  srcLen : Word
  dstAddr : Word
  opA : Byte
  opB : Byte
deriving DecidableEq, Repr

/-- The values a running micro-program holds between two steps of the state machine of R207, which the spec
writes as local names of its pseudocode (`iv`, `c_last`, `c_prev`, `blk`, the pending error). The model's own: no rule
names storage for them (log 8). -/
structure Scratch where
  /-- The code the command will complete with, known before FINISH (R208). -/
  pending : ErrCode
  /-- 1 while a decryption works on its final block before any write (R208). -/
  precheck : Bool
  /-- `iv` of R187. -/
  iv : Block
  /-- `c_last` of R187. -/
  lastBlock : Block
  /-- `c_prev` of R187, from BLK_IN of the pre-check until the last DEC_RND step XORs it in. -/
  chainBlock : Block
  /-- `blk` of R187: the ciphertext block being decrypted. -/
  cipherBlock : Block
deriving DecidableEq, Repr

/-- The width of a host register access. Only whole 32-bit accesses exist (R34). -/
inductive Width where
  | byte
  | half
  | word
deriving DecidableEq, Repr

/-- One move of the world around the engine, or of the engine itself: the transactions of R270 and R276. The
state's `agenda` lists the moves to come, oldest first, and so says who moves next. -/
inductive Move where
  /-- `HostRegWrite(off, v)` (R34). -/
  | regWrite (width : Width) (off : Nat) (v : Word)
  /-- `HostRegRead(off)` (R34). -/
  | regRead (width : Width) (off : Nat)
  /-- `HostMemWrite(addr, byte)`, one byte (R43, R276). The address is a natural number: a sum of addresses is never
  wrapped (R10), so one past 32 bits is above every MEM_SIZE (R41), where R43 gives the access no effect. -/
  | memWrite (addr : Nat) (b : Byte)
  /-- `HostMemRead(addr)` (R43, R276). -/
  | memRead (addr : Nat)
  /-- `WAIT`: the host reads STATUS, and again until a read shows BUSY 0 and DONE 1 (R66). After `polls` more reads
  that do not show it, the engine moves before each further one (R275; log 18). -/
  | wait (polls : Nat)
  /-- `rst` is asserted and released (R260). -/
  | hardReset
  /-- Power is lost and applied again (R263). -/
  | powerCycle
  /-- The engine, if it runs a command, runs it to completion (R206). -/
  | engine
  /-- The engine makes one step of its state machine (R207, R208). -/
  | tick
deriving DecidableEq, Repr

/-- Why a step stops with a fault. There is no constructor: "The hardware itself has no fault state and no stuck
state" (R273), so no step of this machine can fault. -/
inductive Fault where
deriving DecidableEq, Repr

/-- Why a step is refused. -/
inductive Refusal where
  /-- An instruction that has no meaning yet, by its mnemonic. Raised by no arm of this model. Safe. -/
  | notModelled (mnemonic : String)
  /-- A host register access that is not a whole 32-bit word; raised by the agenda's register moves, "outside
  this spec (a model refuses such an access)" (R34, R273). Safe. -/
  | registerWidth
  /-- A host register access at an offset that is not a multiple of 4 or is above 0xFC; raised by the agenda's
  register moves (R34, R273). Safe. -/
  | registerOffset
deriving DecidableEq, Repr

/-- Everything the spec gives the machine (R14). `STATUS.BUSY` is `fsm`, not stored twice (R21); `KEYCFG` is
`NK` and `NR` (R30). The read-only tables are constants (R116). -/
structure State where
  /-- `CMD` (R23). -/
  cmd : Word
  /-- `KEY_ADDR` (R25). -/
  keyAddr : Word
  /-- `KEY_LEN` (R25). -/
  keyLen : Word
  /-- `IV_ADDR` (R26). -/
  ivAddr : Word
  /-- `IV_LEN` (R26). -/
  ivLen : Word
  /-- `SRC_ADDR` (R27). -/
  srcAddr : Word
  /-- `SRC_LEN` (R27). -/
  srcLen : Word
  /-- `DST_ADDR` (R28). -/
  dstAddr : Word
  /-- `OUT_LEN` (R29). -/
  outLen : Word
  /-- `OPA` bits 7:0; bits 31:8 are RAZ/WI (R31). -/
  opA : Byte
  /-- `OPB` bits 7:0; bits 31:8 are RAZ/WI (R31). -/
  opB : Byte
  /-- `RES` bits 7:0; bits 31:8 read 0 (R32). -/
  res : Byte
  /-- `STATUS.DONE` (R24). -/
  done : Bool
  /-- `STATUS.OVR` (R24). -/
  ovr : Bool
  /-- `STATUS.ERR` (R24, R239). -/
  err : ErrCode
  /-- `KEY_VALID` (R18). -/
  keyValid : Bool
  /-- `NK` (R17). -/
  nk : BitVec 4
  /-- `NR` (R17). -/
  nr : BitVec 4
  /-- The state register `S` (R15). -/
  sreg : Block
  /-- The round-key schedule `W` (R16). -/
  w : Schedule
  /-- `PREV` (R19). -/
  prev : Block
  /-- `HOLD` (R19). -/
  hold : Block
  /-- The latched operands `L.*` (R20). -/
  lat : Latched
  /-- `fsm` (R21, R207). -/
  fsm : Fsm
  /-- `rnd`, the round counter 0..14 (R21). -/
  rnd : Nat
  /-- `blk`, the block index 0..2^27 (R21). -/
  blk : Nat
  /-- `kidx`, the key-schedule word index 0..60 (R21). -/
  kidx : Nat
  /-- The buffer memory (R41). -/
  mem : Memory
  /-- The model's own: locals of a running micro-program (log 8). -/
  scratch : Scratch
  /-- The model's own: 1 when the host accessed the running command's bytes, which R56(d) forbids (log 5). -/
  hazard : Bool
  /-- The model's own: how many free values have been drawn (log 4). -/
  draws : Nat
  /-- The model's own: the value the host register port gave back last (R276; log 9). -/
  regData : Word
  /-- The model's own: the byte the host buffer port gave back last (R276; log 9). -/
  memData : Byte
  /-- The model's own: the moves to come, oldest first (log 7). -/
  agenda : List Move
deriving DecidableEq, Repr

/-- `STATUS.BUSY`: "Only `fsm = IDLE` versus `fsm != IDLE` is observable, as `STATUS.BUSY`" (R21). -/
def State.busy (s : State) : Bool := s.fsm != .idle

/-- All latches 0 (R20). -/
def Latched.reset : Latched where
  cmd := 0
  keyAddr := 0
  keyLen := 0
  ivAddr := 0
  ivLen := 0
  srcAddr := 0
  srcLen := 0
  dstAddr := 0
  opA := 0
  opB := 0

/-- DESIGN CHOICE (log 8): no micro-program runs after reset. -/
def Scratch.reset : Scratch where
  pending := .ok
  precheck := false
  iv := zeroBlock
  lastBlock := zeroBlock
  chainBlock := zeroBlock
  cipherBlock := zeroBlock

/-- The machine right after the power-on reset: the values of R36. Where R36 gives none, the log names the
value: `W` (log 3), the buffer memory's bytes (log 2), its size (log 1), the model's own fields (logs 4 to 9). -/
def State.reset : State where
  cmd := 0
  keyAddr := 0
  keyLen := 0
  ivAddr := 0
  ivLen := 0
  srcAddr := 0
  srcLen := 0
  dstAddr := 0
  outLen := 0
  opA := 0
  opB := 0
  res := 0
  done := false
  ovr := false
  err := .ok
  keyValid := false
  nk := 0
  nr := 0
  sreg := zeroBlock
  w := Vector.replicate 60 zeroKeyWord
  prev := zeroBlock
  hold := zeroBlock
  lat := Latched.reset
  fsm := .idle
  rnd := 0
  blk := 0
  kidx := 0
  mem := ⟨Config.resetMemSize, []⟩
  scratch := Scratch.reset
  hazard := false
  draws := 0
  regData := 0
  memData := 0
  agenda := []

end Sys2Proof.Machine
end

