-- ==== Sys2Proof/Machine/Ops.lean ====
section
/-! DEFINITION. The shared operations: buffer-memory access, the range check, block arithmetic, completion and
the error mechanism (20_memory.md R42 to R53, 45_command_sequencer.md R204, 60_exceptions.md R230, R238). -/

namespace Sys2Proof.Machine

/-- What an address below the size reads as when nothing is listed for it (DESIGN CHOICE, log 2). -/
def Memory.unlisted : Byte := 0

/-- The byte listed at `a`, or the unlisted value. -/
def Memory.lookup : List Host.Cell → Nat → Byte
  | [], _ => Memory.unlisted
  | (k, v) :: rest, a => if k = a then v else Memory.lookup rest a

/-- List `b` at `a`, keeping the canonical form: addresses strictly rising, and no entry that equals the
unlisted value. -/
def Memory.insert : List Host.Cell → Nat → Byte → List Host.Cell
  | [], a, b => if b = Memory.unlisted then [] else [(a, b)]
  | (k, v) :: rest, a, b =>
    if a < k then (if b = Memory.unlisted then (k, v) :: rest else (a, b) :: (k, v) :: rest)
    else if a = k then (if b = Memory.unlisted then rest else (a, b) :: rest)
    else (k, v) :: Memory.insert rest a b

/-- The canonical form: addresses strictly rising and below the size, no entry equal to the unlisted value. -/
def Memory.wf (m : Memory) : Bool :=
  decide (m.cells.Pairwise fun x y => x.1 < y.1) &&
    m.cells.all fun c => decide (c.1 < m.size) && decide (c.2 ≠ Memory.unlisted)

/-- One byte read: `mem[a]` below `MEM_SIZE`, 0x00 at or above it (R42, R43). -/
def Memory.load (m : Memory) (a : Nat) : Byte :=
  if a < m.size then Memory.lookup m.cells a else 0

/-- One byte write: `mem[a] <- b` below `MEM_SIZE`, no effect at or above it (R42, R43). -/
def Memory.store (m : Memory) (a : Nat) (b : Byte) : Memory :=
  if a < m.size then { m with cells := Memory.insert m.cells a b } else m

/-- `MemWrite(a, n, v)`: the bytes of `v` at `a`, `a+1`, ..., in increasing address order (R42). -/
def Memory.storeBytes : Memory → Nat → List Byte → Memory
  | m, _, [] => m
  | m, a, b :: rest => Memory.storeBytes (m.store a b) (a + 1) rest

/-- `MemRead(a, n)`: the `n` bytes at `a`, in address order (R42). -/
def Memory.loadBytes (m : Memory) (a n : Nat) : List Byte :=
  (List.range n).map fun j => m.load (a + j)

/-- `MemRead(a, 16)` as a block: block byte `i` is `mem[a+i]` (R44, R45). -/
def Memory.loadBlock (m : Memory) (a : Nat) : Block :=
  Vector.ofFn fun i => m.load (a + i.val)

/-- `MemWrite(a, 16, blk)` (R42, R45). -/
def Memory.storeBlock (m : Memory) (a : Nat) (blk : Block) : Memory :=
  m.storeBytes a blk.toList

/-- A range is in bounds "when `len = 0` or `base + len <= MEM_SIZE`, the sum taken on unbounded naturals" (R51). -/
def Memory.inBounds (m : Memory) (base len : Nat) : Bool :=
  decide (len = 0 ∨ base + len ≤ m.size)

/-- The `n` bytes at `a` take free values, draw numbers `d`, `d+1`, ... (R56(d), R261, R262; log 4). -/
def Memory.scramble : Memory → Nat → Nat → Nat → Memory
  | m, _, 0, _ => m
  | m, a, n + 1, d => Memory.scramble (m.store a (Config.freeByte d)) (a + 1) n (d + 1)

/-- Every byte of a list of ranges `(base, len)` takes a free value. -/
def Memory.scrambleRanges : Memory → List (Nat × Nat) → Nat → Memory
  | m, [], _ => m
  | m, r :: rest, d => Memory.scrambleRanges (m.scramble r.1 r.2 d) rest (d + r.2)

/-- How many draws `Memory.scrambleRanges` makes. -/
def rangesLength : List (Nat × Nat) → Nat
  | [] => 0
  | r :: rest => r.2 + rangesLength rest

/-- Whether address `a` lies in one of the ranges. -/
def inRanges (rs : List (Nat × Nat)) (a : Nat) : Bool :=
  rs.any fun r => decide (r.1 ≤ a ∧ a < r.1 + r.2)

/-- `a ^ b` on blocks, byte by byte (R10). -/
def blockXor (a b : Block) : Block := Vector.ofFn fun i => a[i] ^^^ b[i]

/-- `a ^ b` on schedule words, byte by byte (R10, R123). -/
def keyWordXor (a b : KeyWord) : KeyWord := Vector.ofFn fun k => a[k] ^^^ b[k]

/-- The byte at row `r`, column `c` of a State: index `4*c + r` (R15). -/
def cell (s : Block) (c r : Nat) : Byte := s.getD (4 * c + r) 0

/-- The first error in priority order, each given with the test that raises it; `ok` if no test does (R240: "the
first in this order is reported, and no check after it is made"). -/
def firstError : List (Bool × ErrCode) → ErrCode
  | [] => .ok
  | (fails, e) :: rest => if fails then e else firstError rest

/-- Completion with code `e`, "as one indivisible event" (R204). -/
def complete (e : ErrCode) (s : State) : State :=
  { s with err := e, done := true, fsm := .idle }

/-- `raise Error(e)`: the one error mechanism, shared by every command (R230, R238 items 1, 2, 6, 7). There is no
trap: no vector, no saved program counter, no mode change, and so no return from one (R230, R243). -/
def raiseError (e : ErrCode) (s : State) : State := complete e s

/-- An error of `KEY_EXPAND` also unloads the key: `KEY_VALID`, `NK` and `NR` become 0 (R126, R238 item 4). -/
def raiseKeyError (e : ErrCode) (s : State) : State :=
  raiseError e { s with keyValid := false, nk := 0, nr := 0 }

/-- An error of a mode command also sets `OUT_LEN` to 0 (R238 item 5). -/
def raiseModeError (e : ErrCode) (s : State) : State :=
  raiseError e { s with outLen := 0 }

end Sys2Proof.Machine
end

