-- ==== Sys2Proof/Machine/Operands.lean ====
section
/-! DEFINITION. The operands of the commands, all read from the latched copies, and the checks each command makes
before its first memory access, in priority order (30_encoding.md R61; 60_exceptions.md R231 to R241). -/

namespace Sys2Proof.Machine

/-- Latching at acceptance: the copies of R201, with `v` as `L.CMD`. -/
def latch (v : Word) (s : State) : Latched where
  cmd := v
  keyAddr := s.keyAddr
  keyLen := s.keyLen
  ivAddr := s.ivAddr
  ivLen := s.ivLen
  srcAddr := s.srcAddr
  srcLen := s.srcLen
  dstAddr := s.dstAddr
  opA := s.opA
  opB := s.opB

/-- Addresses and lengths are 32-bit unsigned numbers (R49, R61). -/
def State.keyBase (s : State) : Nat := s.lat.keyAddr.toNat
def State.keyBytes (s : State) : Nat := s.lat.keyLen.toNat
def State.ivBase (s : State) : Nat := s.lat.ivAddr.toNat
def State.ivBytes (s : State) : Nat := s.lat.ivLen.toNat
def State.srcBase (s : State) : Nat := s.lat.srcAddr.toNat
def State.srcBytes (s : State) : Nat := s.lat.srcLen.toNat
def State.dstBase (s : State) : Nat := s.lat.dstAddr.toNat

/-- Nk for a key of `n` bytes: 16, 24, 32 bytes give 4, 6, 8 (R8). Any other length is an error before this is
used (R231). -/
def nkOf (n : Nat) : Nat := if n = 16 then 4 else if n = 24 then 6 else if n = 32 then 8 else 0

/-- Nr for a key of `n` bytes: 16, 24, 32 bytes give 10, 12, 14 (R8). -/
def nrOf (n : Nat) : Nat := if n = 16 then 10 else if n = 24 then 12 else if n = 32 then 14 else 0

/-- The number of blocks an encryption of `n` bytes produces: `N = n div 16 + 1` (R183). -/
def encBlocks (n : Nat) : Nat := n / 16 + 1

/-- The number of blocks a decryption of `n` bytes consumes: `N = n div 16` (R185). -/
def decBlocks (n : Nat) : Nat := n / 16

/-- The output length of an encryption of `n` bytes: `16*N` (R183). -/
def encBytes (n : Nat) : Nat := 16 * encBlocks n

/-- The padding length of a message of `n` bytes: `p = 16 - (n mod 16)`, 1 to 16 (R181). -/
def padLength (n : Nat) : Nat := 16 - n % 16

/-- `KEY_EXPAND`: `InvalidKeyLength`, then `BadAddress` of the key range (R126, R231, R237). -/
def checkKeyExpand (s : State) : ErrCode :=
  firstError [
    (!(s.keyBytes == 16 || s.keyBytes == 24 || s.keyBytes == 32), .invalidKeyLength),
    (!s.mem.inBounds s.keyBase s.keyBytes, .badAddress)]

/-- `STATE_LOAD`: `BadAddress` of the 16 source bytes (R151). -/
def checkStateLoad (s : State) : ErrCode :=
  firstError [(!s.mem.inBounds s.srcBase 16, .badAddress)]

/-- `STATE_STORE`: `BadAddress` of the 16 destination bytes (R152). -/
def checkStateStore (s : State) : ErrCode :=
  firstError [(!s.mem.inBounds s.dstBase 16, .badAddress)]

/-- `ADD_ROUND_KEY`: `KeyNotLoaded`, then `IllegalCommand` for a round above `NR` (R159, R235, R236). -/
def checkAddRoundKey (round : Nat) (s : State) : ErrCode :=
  firstError [(!s.keyValid, .keyNotLoaded), (decide (round > s.nr.toNat), .illegalCommand)]

/-- `CIPHER_BLOCK` and `INV_CIPHER_BLOCK`: `KeyNotLoaded` (R160, R161, R235). -/
def checkKeyLoaded (s : State) : ErrCode :=
  firstError [(!s.keyValid, .keyNotLoaded)]

/-- `ECB_ENC`: `KeyNotLoaded`; `BadAddress` of source, then destination (R184). -/
def checkEcbEnc (s : State) : ErrCode :=
  firstError [
    (!s.keyValid, .keyNotLoaded),
    (!s.mem.inBounds s.srcBase s.srcBytes, .badAddress),
    (!s.mem.inBounds s.dstBase (encBytes s.srcBytes), .badAddress)]

/-- `ECB_DEC`: `KeyNotLoaded`; `BadCiphertextLength`; `BadAddress` of source, then destination (R185). -/
def checkEcbDec (s : State) : ErrCode :=
  firstError [
    (!s.keyValid, .keyNotLoaded),
    (s.srcBytes == 0 || s.srcBytes % 16 != 0, .badCiphertextLength),
    (!s.mem.inBounds s.srcBase s.srcBytes, .badAddress),
    (!s.mem.inBounds s.dstBase s.srcBytes, .badAddress)]

/-- `CBC_ENC`: `KeyNotLoaded`; `MissingOrBadIV`; `BadAddress` of IV, source, destination (R186, R188). -/
def checkCbcEnc (s : State) : ErrCode :=
  firstError [
    (!s.keyValid, .keyNotLoaded),
    (s.ivBytes != 16, .missingOrBadIV),
    (!s.mem.inBounds s.ivBase 16, .badAddress),
    (!s.mem.inBounds s.srcBase s.srcBytes, .badAddress),
    (!s.mem.inBounds s.dstBase (encBytes s.srcBytes), .badAddress)]

/-- `CBC_DEC`: `KeyNotLoaded`; `BadCiphertextLength`; `MissingOrBadIV`; `BadAddress` of IV, source, destination
(R187, R240). -/
def checkCbcDec (s : State) : ErrCode :=
  firstError [
    (!s.keyValid, .keyNotLoaded),
    (s.srcBytes == 0 || s.srcBytes % 16 != 0, .badCiphertextLength),
    (s.ivBytes != 16, .missingOrBadIV),
    (!s.mem.inBounds s.ivBase 16, .badAddress),
    (!s.mem.inBounds s.srcBase s.srcBytes, .badAddress),
    (!s.mem.inBounds s.dstBase s.srcBytes, .badAddress)]

/-- The checks of R240 items 2 to 6 for each command; `ok` where R241 gives the command no error. `BadPadding`
(item 7) needs a decryption and is raised by the micro-program. -/
def commandCheck (i : Instr) (s : State) : ErrCode :=
  match i with
  | .keyExpand => checkKeyExpand s
  | .stateLoad => checkStateLoad s
  | .stateStore => checkStateStore s
  | .addRoundKey round => checkAddRoundKey round s
  | .cipherBlock => checkKeyLoaded s
  | .invCipherBlock => checkKeyLoaded s
  | .ecbEnc => checkEcbEnc s
  | .ecbDec => checkEcbDec s
  | .cbcEnc => checkCbcEnc s
  | .cbcDec => checkCbcDec s
  | .nop | .subBytes | .invSubBytes | .shiftRows | .invShiftRows | .mixColumns | .invMixColumns
  | .gfMul | .gfDouble | .sbox | .invSbox => .ok

/-- The ranges of buffer memory a command writes once its checks have passed (R61, R237). For a decryption it is the
whole destination range of `n` bytes that R51 checks: R261 means that range, and for R56(d) it is the model's choice
(DEDUCED, log 19), since the last `p` bytes, and on `BadPadding` every byte, stay unwritten (R185, R238). -/
def commandWrites (i : Instr) (s : State) : List (Nat × Nat) :=
  match i with
  | .stateStore => [(s.dstBase, 16)]
  | .ecbEnc => [(s.dstBase, encBytes s.srcBytes)]
  | .cbcEnc => [(s.dstBase, encBytes s.srcBytes)]
  | .ecbDec => [(s.dstBase, s.srcBytes)]
  | .cbcDec => [(s.dstBase, s.srcBytes)]
  | .nop | .keyExpand | .stateLoad | .subBytes | .invSubBytes | .shiftRows | .invShiftRows | .mixColumns
  | .invMixColumns | .addRoundKey _ | .cipherBlock | .invCipherBlock | .gfMul | .gfDouble | .sbox | .invSbox => []

/-- The ranges of buffer memory a command reads once its checks have passed (R61, R237). -/
def commandReads (i : Instr) (s : State) : List (Nat × Nat) :=
  match i with
  | .keyExpand => [(s.keyBase, s.keyBytes)]
  | .stateLoad => [(s.srcBase, 16)]
  | .ecbEnc => [(s.srcBase, s.srcBytes)]
  | .ecbDec => [(s.srcBase, s.srcBytes)]
  | .cbcEnc => [(s.ivBase, 16), (s.srcBase, s.srcBytes)]
  | .cbcDec => [(s.ivBase, 16), (s.srcBase, s.srcBytes)]
  | .nop | .stateStore | .subBytes | .invSubBytes | .shiftRows | .invShiftRows | .mixColumns | .invMixColumns
  | .addRoundKey _ | .cipherBlock | .invCipherBlock | .gfMul | .gfDouble | .sbox | .invSbox => []

/-- The destination range of the latched command "as checked by 20_memory.md rule R51, or none if it had not
passed its checks" (R261). -/
def writtenRanges (s : State) : List (Nat × Nat) :=
  match decode s.lat.cmd with
  | .illegal _ => []
  | .command i => if commandCheck i s = .ok then commandWrites i s else []

/-- Every range the latched command reads or writes (R56(d)), for a decryption the whole destination range it checks
(log 19). -/
def touchedRanges (s : State) : List (Nat × Nat) :=
  match decode s.lat.cmd with
  | .illegal _ => []
  | .command i => if commandCheck i s = .ok then commandReads i s ++ commandWrites i s else []

end Sys2Proof.Machine
end

