-- ==== Sys2Proof/Machine/Field.lean ====
section
/-! DEFINITION. The GF(2^8) multiplier `gf_mult_8bit` and its two commands (40_field_arithmetic.md R100 to R106). -/

namespace Sys2Proof.Machine

/-- `gf_double(a)`, xtime: shift left by one, XOR 0x1B if the high bit was set (R101). -/
def gfDouble (a : Byte) : Byte :=
  if a.getLsbD 7 then (a <<< 1) ^^^ 0x1B else a <<< 1

/-- The loop of `gf_mult`: `n` iterations from bit `i` of `b`, product so far `p` (R102). -/
def gfMultLoop : Nat → Nat → Byte → Byte → Byte → Byte
  | 0, _, _, _, p => p
  | n + 1, i, a, b, p => gfMultLoop n (i + 1) (gfDouble a) b (if b.getLsbD i then p ^^^ a else p)

/-- `gf_mult(a, b)`, the full 8-bit multiplier: bits 0 to 7 of `b` (R102). -/
def gfMult (a b : Byte) : Byte := gfMultLoop 8 0 a b 0

/-- The micro-program of `GF_MUL` (R105). -/
def gfMulEffect (s : State) : State := { s with res := gfMult s.lat.opA s.lat.opB }

/-- The micro-program of `GF_DOUBLE` (R106). -/
def gfDoubleEffect (s : State) : State := { s with res := gfDouble s.lat.opA }

/-- `GF_MUL` (R105). -/
def execGfMul (s : State) : Host.Outcome State Fault Refusal := .next (complete .ok (gfMulEffect s))

/-- `GF_DOUBLE` (R106). -/
def execGfDouble (s : State) : Host.Outcome State Fault Refusal := .next (complete .ok (gfDoubleEffect s))

end Sys2Proof.Machine
end

