-- ==== Sys2Proof/Machine/KeySchedule.lean ====
section
/-! DEFINITION. The key expansion `aes_key_schedule` and `KEY_EXPAND` (42_key_schedule.md R120 to R127). -/

namespace Sys2Proof.Machine

/-- `W[i]`, with a zero word above index 59, which no command reads (R16). -/
def keyWord (w : Schedule) (i : Nat) : KeyWord := w.getD i zeroKeyWord

/-- `rotWord([b0,b1,b2,b3]) = [b1,b2,b3,b0]` (R121). -/
def rotWord (t : KeyWord) : KeyWord := #v[t[1], t[2], t[3], t[0]]

/-- `subWord`: each byte through the forward S-box (R122). -/
def subWord (t : KeyWord) : KeyWord := Vector.ofFn fun k => sboxAt t[k]

/-- The round constant as a word: `[Rcon[j], 0, 0, 0]` (R47, R123). -/
def rconWord (j : Nat) : KeyWord := #v[rcon j, 0, 0, 0]

/-- `temp` of one iteration `i` of `expand`, from `W[i-1]` (R123). -/
def expandTemp (nk i : Nat) (t : KeyWord) : KeyWord :=
  if i % nk = 0 then keyWordXor (subWord (rotWord t)) (rconWord (i / nk))
  else if nk > 6 ∧ i % nk = 4 then subWord t
  else t

/-- One iteration `i` of `expand`: `W[i] = W[i-Nk] ^ temp` (R123). -/
def expandStep (nk i : Nat) (w : Schedule) : Schedule :=
  w.setIfInBounds i (keyWordXor (keyWord w (i - nk)) (expandTemp nk i (keyWord w (i - 1))))

/-- `n` iterations of `expand` from word `i`, in increasing `i` (R123). -/
def expandFrom (nk : Nat) : Nat → Nat → Schedule → Schedule
  | 0, _, w => w
  | n + 1, i, w => expandFrom nk n (i + 1) (expandStep nk i w)

/-- Key word `j` of the key at `a`: `W[j][k] = key[4*j + k]` (R46). -/
def keyWordAt (m : Memory) (a j : Nat) : KeyWord := Vector.ofFn fun k => m.load (a + (4 * j + k.val))

/-- The first `Nk` words from the key, every other word as it was (R123; R126 assigns `W[0 .. 4*(Nr+1))` only). -/
def loadKeyWords (m : Memory) (a nk : Nat) (w : Schedule) : Schedule :=
  Vector.ofFn fun i => if i.val < nk then keyWordAt m a i.val else w[i]

/-- `expand(key)` for the `n`-byte key at `a`: words `0 .. 4*(Nr+1)-1` (R123, R124). -/
def expandKey (m : Memory) (a n : Nat) (w : Schedule) : Schedule :=
  expandFrom (nkOf n) (4 * (nrOf n + 1) - nkOf n) (nkOf n) (loadKeyWords m a (nkOf n) w)

/-- What a successful `KEY_EXPAND` leaves besides `W`: `NK`, `NR` and `KEY_VALID` (R126). -/
def setKeyParams (s : State) : State :=
  { s with nk := BitVec.ofNat 4 (nkOf s.keyBytes), nr := BitVec.ofNat 4 (nrOf s.keyBytes), keyValid := true }

/-- The micro-program of `KEY_EXPAND` after its checks (R126). -/
def keyExpandEffect (s : State) : State :=
  setKeyParams { s with w := expandKey s.mem s.keyBase s.keyBytes s.w }

/-- `KEY_EXPAND` (R126). -/
def execKeyExpand (s : State) : Host.Outcome State Fault Refusal :=
  match checkKeyExpand s with
  | .ok => .next (complete .ok (keyExpandEffect s))
  | e => .next (raiseKeyError e s)

end Sys2Proof.Machine
end

