-- ==== Sys2Proof/Machine/Round.lean ====
section
/-! DEFINITION. The round pipeline: the four round transformations and their inverses, `Cipher`, `InvCipher`, and the
commands that run them on `S` (43_round_pipeline.md R140 to R161). -/

namespace Sys2Proof.Machine

/-- `addRoundKey(s, r)[4*c + k] = s[4*c + k] ^ W[4*r + c][k]` (R140, R48). -/
def addRoundKey (w : Schedule) (r : Nat) (s : Block) : Block :=
  Vector.ofFn fun j => s[j] ^^^ (keyWord w (4 * r + j.val / 4)).getD (j.val % 4) 0

/-- `subBytes(s)[i] = SBOX[s[i]]` (R141). -/
def subBytes (s : Block) : Block := Vector.ofFn fun j => sboxAt s[j]

/-- `invSubBytes(s)[i] = INV_SBOX[s[i]]` (R142). -/
def invSubBytes (s : Block) : Block := Vector.ofFn fun j => invSboxAt s[j]

/-- `shiftRows(s)[4*c + r] = s[4*((c + r) mod 4) + r]` (R143). -/
def shiftRows (s : Block) : Block :=
  Vector.ofFn fun j => cell s ((j.val / 4 + j.val % 4) % 4) (j.val % 4)

/-- `invShiftRows(s)[4*c + r] = s[4*((c - r) mod 4) + r]`, the difference taken mod 4 in 0..3 (R144). -/
def invShiftRows (s : Block) : Block :=
  Vector.ofFn fun j => cell s ((j.val / 4 + 4 - j.val % 4) % 4) (j.val % 4)

/-- The forward matrix `MF` (R145). -/
def mixMatrix : List (List Byte) := [[2, 3, 1, 1], [1, 2, 3, 1], [1, 1, 2, 3], [3, 1, 1, 2]]

/-- The inverse matrix `MI` (R146). -/
def invMixMatrix : List (List Byte) := [[14, 11, 13, 9], [9, 14, 11, 13], [13, 9, 14, 11], [11, 13, 9, 14]]

/-- Entry `[r][k]` of a matrix. -/
def matrixEntry (m : List (List Byte)) (r k : Nat) : Byte := (m.getD r []).getD k 0

/-- The matrix product on every column: byte `4*c + r` is the XOR over `k` of `gf_mult(M[r][k], s[4*c + k])`
(R145, R146). -/
def mixWith (m : List (List Byte)) (s : Block) : Block :=
  Vector.ofFn fun j =>
    gfMult (matrixEntry m (j.val % 4) 0) (cell s (j.val / 4) 0) ^^^
    gfMult (matrixEntry m (j.val % 4) 1) (cell s (j.val / 4) 1) ^^^
    gfMult (matrixEntry m (j.val % 4) 2) (cell s (j.val / 4) 2) ^^^
    gfMult (matrixEntry m (j.val % 4) 3) (cell s (j.val / 4) 3)

/-- `mixColumns(s)` (R145). -/
def mixColumns (s : Block) : Block := mixWith mixMatrix s

/-- `invMixColumns(s)` (R146). -/
def invMixColumns (s : Block) : Block := mixWith invMixMatrix s

/-- A middle round of `Cipher`, `1 <= r <= NR-1` (R148). -/
def encRound (w : Schedule) (r : Nat) (s : Block) : Block :=
  addRoundKey w r (mixColumns (shiftRows (subBytes s)))

/-- The final round of `Cipher`: no `mixColumns` (R148). -/
def encFinalRound (w : Schedule) (nr : Nat) (s : Block) : Block :=
  addRoundKey w nr (shiftRows (subBytes s))

/-- `n` middle rounds from round `r`, in increasing order (R148). -/
def encRounds (w : Schedule) : Nat → Nat → Block → Block
  | 0, _, s => s
  | n + 1, r, s => encRounds w n (r + 1) (encRound w r s)

/-- `Cipher(s)` under the schedule `w` with `nr` rounds (R148). -/
def cipher (w : Schedule) (nr : Nat) (s : Block) : Block :=
  encFinalRound w nr (encRounds w (nr - 1) 1 (addRoundKey w 0 s))

/-- The first round of `InvCipher`: `addRoundKey(NR)`, `invShiftRows`, `invSubBytes` (R149). -/
def decFirstRound (w : Schedule) (nr : Nat) (s : Block) : Block :=
  invSubBytes (invShiftRows (addRoundKey w nr s))

/-- A middle round of `InvCipher`, `NR-1 >= r >= 1` (R149). -/
def decRound (w : Schedule) (r : Nat) (s : Block) : Block :=
  invSubBytes (invShiftRows (invMixColumns (addRoundKey w r s)))

/-- The middle rounds of `InvCipher`, from round `r` down to 1 (R149). -/
def decRounds (w : Schedule) : Nat → Block → Block
  | 0, s => s
  | r + 1, s => decRounds w r (decRound w (r + 1) s)

/-- `InvCipher(s)` under the schedule `w` with `nr` rounds (R149). -/
def invCipher (w : Schedule) (nr : Nat) (s : Block) : Block :=
  addRoundKey w 0 (decRounds w (nr - 1) (decFirstRound w nr s))

/-- The micro-program of `STATE_LOAD` after its check (R151). -/
def stateLoadEffect (s : State) : State := { s with sreg := s.mem.loadBlock s.srcBase }

/-- The micro-program of `STATE_STORE` after its check (R152). -/
def stateStoreEffect (s : State) : State := { s with mem := s.mem.storeBlock s.dstBase s.sreg }

/-- A single transform of `S` (R153 to R158). -/
def transformEffect (f : Block → Block) (s : State) : State := { s with sreg := f s.sreg }

/-- The micro-program of `ADD_ROUND_KEY round` after its checks (R159). -/
def addRoundKeyEffect (round : Nat) (s : State) : State := transformEffect (addRoundKey s.w round) s

/-- `STATE_LOAD` (R151). -/
def execStateLoad (s : State) : Host.Outcome State Fault Refusal :=
  match checkStateLoad s with
  | .ok => .next (complete .ok (stateLoadEffect s))
  | e => .next (raiseError e s)

/-- `STATE_STORE` (R152). -/
def execStateStore (s : State) : Host.Outcome State Fault Refusal :=
  match checkStateStore s with
  | .ok => .next (complete .ok (stateStoreEffect s))
  | e => .next (raiseError e s)

/-- `SUB_BYTES` (R153). -/
def execSubBytes (s : State) : Host.Outcome State Fault Refusal :=
  .next (complete .ok (transformEffect subBytes s))

/-- `INV_SUB_BYTES` (R154). -/
def execInvSubBytes (s : State) : Host.Outcome State Fault Refusal :=
  .next (complete .ok (transformEffect invSubBytes s))

/-- `SHIFT_ROWS` (R155). -/
def execShiftRows (s : State) : Host.Outcome State Fault Refusal :=
  .next (complete .ok (transformEffect shiftRows s))

/-- `INV_SHIFT_ROWS` (R156). -/
def execInvShiftRows (s : State) : Host.Outcome State Fault Refusal :=
  .next (complete .ok (transformEffect invShiftRows s))

/-- `MIX_COLUMNS` (R157). -/
def execMixColumns (s : State) : Host.Outcome State Fault Refusal :=
  .next (complete .ok (transformEffect mixColumns s))

/-- `INV_MIX_COLUMNS` (R158). -/
def execInvMixColumns (s : State) : Host.Outcome State Fault Refusal :=
  .next (complete .ok (transformEffect invMixColumns s))

/-- `ADD_ROUND_KEY round` (R159). -/
def execAddRoundKey (round : Nat) (s : State) : Host.Outcome State Fault Refusal :=
  match checkAddRoundKey round s with
  | .ok => .next (complete .ok (addRoundKeyEffect round s))
  | e => .next (raiseError e s)

/-- `CIPHER_BLOCK` (R160). -/
def execCipherBlock (s : State) : Host.Outcome State Fault Refusal :=
  match checkKeyLoaded s with
  | .ok => .next (complete .ok (transformEffect (cipher s.w s.nr.toNat) s))
  | e => .next (raiseError e s)

/-- `INV_CIPHER_BLOCK` (R161). -/
def execInvCipherBlock (s : State) : Host.Outcome State Fault Refusal :=
  match checkKeyLoaded s with
  | .ok => .next (complete .ok (transformEffect (invCipher s.w s.nr.toNat) s))
  | e => .next (raiseError e s)

end Sys2Proof.Machine
end

