-- ==== Sys2Proof/Machine/Modes.lean ====
section
/-! DEFINITION. The ECB and CBC message sequencers with strict PKCS#7 padding (44_block_modes.md R180 to R194). -/

namespace Sys2Proof.Machine

/-- Block `i` of `pad(m)` for the message of `n` bytes at `src`: bytes of the message below `n`, `p` copies of `p`
after them (R180, R181, R184). -/
def messageBlock (m : Memory) (src n i : Nat) : Block :=
  if i + 1 < encBlocks n then m.loadBlock (src + 16 * i)
  else Vector.ofFn fun j =>
    if j.val < 16 - padLength n then m.load (src + 16 * i + j.val) else BitVec.ofNat 8 (padLength n)

/-- `padOK(b)`: with `p = b[15]`, `1 <= p <= 16` and every byte from `16-p` on equals `p` (R182). -/
def padOK (b : Block) : Bool :=
  decide (1 ≤ b[15].toNat ∧ b[15].toNat ≤ 16) &&
    (List.range 16).all fun j => decide (j < 16 - b[15].toNat) || b.getD j 0 == b[15]

/-- The bytes of a final decrypted block before its padding: `HOLD[0 .. 16-p)` (R185). -/
def unpadded (b : Block) : List Byte := b.toList.take (16 - b[15].toNat)

/-- The output length of a decryption of `n` bytes whose final block is `b`: `n - p` (R183, R185). -/
def decLength (n : Nat) (b : Block) : Nat := n - b[15].toNat

/-- What a mode command's loop carries from block to block: the buffer memory, `S` and `PREV`. -/
structure Pass where
  mem : Memory
  sreg : Block
  prev : Block
deriving DecidableEq, Repr

/-- `for i in i .. i+n-1`, in increasing order (R53, R194). -/
def forBlocks (body : Nat → Pass → Pass) : Nat → Nat → Pass → Pass
  | 0, _, p => p
  | n + 1, i, p => forBlocks body n (i + 1) (body i p)

/-- Block `i` of `ECB_ENC`: read, encrypt, write (R184). -/
def ecbEncBlock (w : Schedule) (nr src n dst i : Nat) (p : Pass) : Pass :=
  let out := cipher w nr (messageBlock p.mem src n i)
  { p with mem := p.mem.storeBlock (dst + 16 * i) out, sreg := out }

/-- Block `i` of `CBC_ENC`: read, chain, encrypt, write (R186). -/
def cbcEncBlock (w : Schedule) (nr src n dst i : Nat) (p : Pass) : Pass :=
  let out := cipher w nr (blockXor (messageBlock p.mem src n i) p.prev)
  { mem := p.mem.storeBlock (dst + 16 * i) out, sreg := out, prev := out }

/-- Block `i` of `ECB_DEC`, not the final one: read, decrypt, write (R185). -/
def ecbDecBlock (w : Schedule) (nr src dst i : Nat) (p : Pass) : Pass :=
  let out := invCipher w nr (p.mem.loadBlock (src + 16 * i))
  { p with mem := p.mem.storeBlock (dst + 16 * i) out, sreg := out }

/-- Block `i` of `CBC_DEC`, not the final one: read, decrypt, chain, write (R187). -/
def cbcDecBlock (w : Schedule) (nr src dst i : Nat) (p : Pass) : Pass :=
  let blk := p.mem.loadBlock (src + 16 * i)
  let out := blockXor (invCipher w nr blk) p.prev
  { mem := p.mem.storeBlock (dst + 16 * i) out, sreg := out, prev := blk }

/-- The whole loop of `ECB_ENC` (R184). -/
def ecbEncPass (s : State) : Pass :=
  forBlocks (ecbEncBlock s.w s.nr.toNat s.srcBase s.srcBytes s.dstBase) (encBlocks s.srcBytes) 0
    ⟨s.mem, s.sreg, s.prev⟩

/-- The whole loop of `CBC_ENC`, the chain starting from the IV (R186). -/
def cbcEncPass (s : State) : Pass :=
  forBlocks (cbcEncBlock s.w s.nr.toNat s.srcBase s.srcBytes s.dstBase) (encBlocks s.srcBytes) 0
    ⟨s.mem, s.sreg, s.mem.loadBlock s.ivBase⟩

/-- The main pass of `ECB_DEC` over all blocks but the final one (R185). -/
def ecbDecPass (s : State) : Pass :=
  forBlocks (ecbDecBlock s.w s.nr.toNat s.srcBase s.dstBase) (decBlocks s.srcBytes - 1) 0
    ⟨s.mem, s.sreg, s.prev⟩

/-- The main pass of `CBC_DEC` over all blocks but the final one, the chain starting from the IV (R187). -/
def cbcDecPass (s : State) : Pass :=
  forBlocks (cbcDecBlock s.w s.nr.toNat s.srcBase s.dstBase) (decBlocks s.srcBytes - 1) 0
    ⟨s.mem, s.sreg, s.mem.loadBlock s.ivBase⟩

/-- The address of the final input block: `SRC_ADDR + 16*(N-1)` (R185). -/
def State.lastSrc (s : State) : Nat := s.srcBase + 16 * (decBlocks s.srcBytes - 1)

/-- The address of the final output block: `DST_ADDR + 16*(N-1)` (R185). -/
def State.lastDst (s : State) : Nat := s.dstBase + 16 * (decBlocks s.srcBytes - 1)

/-- `HOLD` of the `ECB_DEC` pre-check: the final block decrypted before any write (R185). -/
def ecbDecHold (s : State) : Block := invCipher s.w s.nr.toNat (s.mem.loadBlock s.lastSrc)

/-- `c_prev` of the `CBC_DEC` pre-check: the IV of a one-block message, else the block before the final one (R187). -/
def cbcDecChain (s : State) : Block :=
  if decBlocks s.srcBytes = 1 then s.mem.loadBlock s.ivBase
  else s.mem.loadBlock (s.srcBase + 16 * (decBlocks s.srcBytes - 2))

/-- `HOLD` of the `CBC_DEC` pre-check: the final block decrypted and unchained before any write (R187). -/
def cbcDecHold (s : State) : Block :=
  blockXor (invCipher s.w s.nr.toNat (s.mem.loadBlock s.lastSrc)) (cbcDecChain s)

/-- `OUT_LEN` holds a length (R29). -/
def setOutLen (n : Nat) (s : State) : State := { s with outLen := BitVec.ofNat 32 n }

/-- The micro-program of `ECB_ENC` after its checks (R184). -/
def ecbEncEffect (s : State) : State :=
  setOutLen (encBytes s.srcBytes) { s with mem := (ecbEncPass s).mem, sreg := (ecbEncPass s).sreg }

/-- The micro-program of `CBC_ENC` after its checks (R186). -/
def cbcEncEffect (s : State) : State :=
  setOutLen (encBytes s.srcBytes)
    { s with mem := (cbcEncPass s).mem, sreg := (cbcEncPass s).sreg, prev := (cbcEncPass s).prev }

/-- The padding pre-check of a decryption leaves the final block in `HOLD` and `S` (R185, R187). -/
def precheckEffect (h : Block) (s : State) : State := { s with hold := h, sreg := h }

/-- The micro-program of `ECB_DEC` after its checks and its pre-check (R185). -/
def ecbDecEffect (s : State) : State :=
  setOutLen (decLength s.srcBytes (ecbDecHold s))
    { precheckEffect (ecbDecHold s) s with
      mem := (ecbDecPass s).mem.storeBytes s.lastDst (unpadded (ecbDecHold s)) }

/-- The micro-program of `CBC_DEC` after its checks and its pre-check (R187). -/
def cbcDecEffect (s : State) : State :=
  setOutLen (decLength s.srcBytes (cbcDecHold s))
    { precheckEffect (cbcDecHold s) s with
      mem := (cbcDecPass s).mem.storeBytes s.lastDst (unpadded (cbcDecHold s)),
      prev := s.mem.loadBlock s.lastSrc }

/-- `ECB_ENC` (R184). -/
def execEcbEnc (s : State) : Host.Outcome State Fault Refusal :=
  match checkEcbEnc s with
  | .ok => .next (complete .ok (ecbEncEffect s))
  | e => .next (raiseModeError e s)

/-- `ECB_DEC` (R185). -/
def execEcbDec (s : State) : Host.Outcome State Fault Refusal :=
  match checkEcbDec s with
  | .ok =>
    if padOK (ecbDecHold s) then .next (complete .ok (ecbDecEffect s))
    else .next (raiseModeError .badPadding (precheckEffect (ecbDecHold s) s))
  | e => .next (raiseModeError e s)

/-- `CBC_ENC` (R186). -/
def execCbcEnc (s : State) : Host.Outcome State Fault Refusal :=
  match checkCbcEnc s with
  | .ok => .next (complete .ok (cbcEncEffect s))
  | e => .next (raiseModeError e s)

/-- `CBC_DEC` (R187). -/
def execCbcDec (s : State) : Host.Outcome State Fault Refusal :=
  match checkCbcDec s with
  | .ok =>
    if padOK (cbcDecHold s) then .next (complete .ok (cbcDecEffect s))
    else .next (raiseModeError .badPadding (precheckEffect (cbcDecHold s) s))
  | e => .next (raiseModeError e s)

end Sys2Proof.Machine
end

