-- ==== Sys2Proof/Machine/Control.lean ====
section
/-! DEFINITION. `NOP`, the handshake test (45_command_sequencer.md R205). -/

namespace Sys2Proof.Machine

/-- `NOP`: completes without effect (R205). -/
def execNop (s : State) : Host.Outcome State Fault Refusal := .next (complete .ok s)

end Sys2Proof.Machine
end

