-- ==== Sys2Proof/Machine/Flags.lean ====
section
/-! DEFINITION. The `STATUS` and `KEYCFG` words and the write-1-to-clear flags (10_state.md R24, R30, R35). No
arithmetic command writes a flag: there are no carry, zero or overflow flags (R35). -/

namespace Sys2Proof.Machine

/-- The number of an error name in `STATUS.ERR` (R239). -/
def ErrCode.code : ErrCode → Nat
  | .ok => 0
  | .invalidKeyLength => 1
  | .badCiphertextLength => 2
  | .missingOrBadIV => 3
  | .badPadding => 4
  | .keyNotLoaded => 5
  | .illegalCommand => 6
  | .badAddress => 7

/-- A `STATUS` word from its fields: BUSY bit 0, DONE bit 1, KEY_VALID bit 2, OVR bit 3, ERR bits 11:8, every other
bit reserved and 0 (R24). -/
def packStatus (busy done keyValid ovr : Bool) (err : ErrCode) : Word :=
  BitVec.ofNat 32 (busy.toNat + 2 * done.toNat + 4 * keyValid.toNat + 8 * ovr.toNat + 256 * err.code)

/-- What a host read of `STATUS` gives while idle (R24). -/
def statusWord (s : State) : Word := packStatus s.busy s.done s.keyValid s.ovr s.err

/-- What a host read of `STATUS` gives while busy: BUSY 1, DONE 0, ERR 0, OVR its value, KEY_VALID unspecified
(R213). -/
def statusWordBusy (s : State) : Word := packStatus true false (Config.freeBit s.draws) s.ovr .ok

/-- `KEYCFG`: NK in bits 3:0, NR in bits 11:8 (R30). -/
def keycfgWord (s : State) : Word := BitVec.ofNat 32 (s.nk.toNat + 256 * s.nr.toNat)

/-- A host write of `v` to `STATUS`: a written 1 clears DONE (bit 1) and OVR (bit 3); every other bit is ignored
(R24, R212). -/
def writeStatus (v : Word) (s : State) : State :=
  { s with done := s.done && !v.getLsbD 1, ovr := s.ovr && !v.getLsbD 3 }

end Sys2Proof.Machine
end

