-- ==== Sys2Proof/Machine/HostPort.lean ====
section
/-! DEFINITION. The host's side: acceptance of a command, the register map, the buffer port, reset and power
(10_state.md R22 to R36, 20_memory.md R43, R56, 45_command_sequencer.md R201, R202, R212, R213,
70_reset_and_hazards.md R260 to R263). -/

namespace Sys2Proof.Machine

/-- The names of the register map (R22). -/
inductive RegName where
  | cmd
  | status
  | keyAddr
  | keyLen
  | ivAddr
  | ivLen
  | srcAddr
  | srcLen
  | dstAddr
  | outLen
  | keycfg
  | opA
  | opB
  | res
  /-- Offsets 0x38 to 0xFC (R33). -/
  | reserved
deriving DecidableEq, Repr

/-- The register at a byte offset (R22). -/
def regAt (off : Nat) : RegName :=
  match off with
  | 0x00 => .cmd
  | 0x04 => .status
  | 0x08 => .keyAddr
  | 0x0C => .keyLen
  | 0x10 => .ivAddr
  | 0x14 => .ivLen
  | 0x18 => .srcAddr
  | 0x1C => .srcLen
  | 0x20 => .dstAddr
  | 0x24 => .outLen
  | 0x28 => .keycfg
  | 0x2C => .opA
  | 0x30 => .opB
  | 0x34 => .res
  | _ => .reserved

/-- A register offset the spec defines: a multiple of 4 in 0x00..0xFC (R34). -/
def legalOffset (off : Nat) : Bool := decide (off % 4 = 0 ∧ off ≤ 0xFC)

/-- What a host read of a register gives while idle (R22 to R33). -/
def regValue (r : RegName) (s : State) : Word :=
  match r with
  | .cmd => s.cmd
  | .status => statusWord s
  | .keyAddr => s.keyAddr
  | .keyLen => s.keyLen
  | .ivAddr => s.ivAddr
  | .ivLen => s.ivLen
  | .srcAddr => s.srcAddr
  | .srcLen => s.srcLen
  | .dstAddr => s.dstAddr
  | .outLen => s.outLen
  | .keycfg => keycfgWord s
  | .opA => s.opA.setWidth 32
  | .opB => s.opB.setWidth 32
  | .res => s.res.setWidth 32
  | .reserved => 0

/-- What a host read of a register gives while busy: `OUT_LEN`, `RES`, `KEYCFG` and `STATUS.KEY_VALID` read
unspecified values, a fresh one for each read; every other register reads its current value (R213). The reserved bits
of `KEYCFG` and `RES` read 0 (R30, R32, R33; log 6). -/
def regValueBusy (r : RegName) (s : State) : Word :=
  match r with
  | .status => statusWordBusy s
  | .outLen => Config.freeWord s.draws
  | .keycfg => Config.freeWord s.draws &&& 0x00000F0F
  | .res => Config.freeWord s.draws &&& 0x000000FF
  | .cmd | .keyAddr | .keyLen | .ivAddr | .ivLen | .srcAddr | .srcLen | .dstAddr | .opA | .opB | .reserved =>
    regValue r s

/-- `HostRegRead` of a register: the value goes to the register port (R34, R213). -/
def readReg (r : RegName) (s : State) : State :=
  if s.busy then { s with regData := regValueBusy r s, draws := s.draws + 1 }
  else { s with regData := regValue r s }

/-- Acceptance of the word `v`, "as one indivisible event" (R201). -/
def accept (v : Word) (s : State) : State :=
  { s with
    cmd := v
    lat := latch v s
    done := false
    err := .ok
    fsm := .check
    hazard := false }

/-- A host write of `v` to `CMD`: acceptance while idle (R201), dropped with `OVR <- 1` while busy (R202). -/
def writeCmd (v : Word) (s : State) : State :=
  if s.busy then { s with ovr := true } else accept v s

/-- `HostRegWrite` of a register. A write to an operand register takes effect at once, while busy too, for the next
accepted command (R212); writes to read-only and reserved registers are ignored (R22, R33). -/
def writeReg (r : RegName) (v : Word) (s : State) : State :=
  match r with
  | .cmd => writeCmd v s
  | .status => writeStatus v s
  | .keyAddr => { s with keyAddr := v }
  | .keyLen => { s with keyLen := v }
  | .ivAddr => { s with ivAddr := v }
  | .ivLen => { s with ivLen := v }
  | .srcAddr => { s with srcAddr := v }
  | .srcLen => { s with srcLen := v }
  | .dstAddr => { s with dstAddr := v }
  | .opA => { s with opA := v.setWidth 8 }
  | .opB => { s with opB := v.setWidth 8 }
  | .outLen | .keycfg | .res | .reserved => s

/-- Every byte the running command reads or writes takes a free value (R56(d); log 5). -/
def scrambleTouched (s : State) : State :=
  { s with
    mem := s.mem.scrambleRanges (touchedRanges s) s.draws
    draws := s.draws + rangesLength (touchedRanges s) }

/-- The host touched the running command's bytes: they are unspecified from now on, and again at completion
(R56(d), R266; log 5). -/
def raiseHazard (s : State) : State := { scrambleTouched s with hazard := true }

/-- At completion after a forbidden access, the bytes the command read or wrote hold unspecified values (R56(d),
R273; log 5). -/
def settle (s : State) : State :=
  if s.hazard && !s.busy then { scrambleTouched s with hazard := false } else s

/-- `HostMemWrite(addr, byte)` (R43). While busy it is forbidden: the byte is written, and every byte the command
reads or writes becomes unspecified (R56(d), R266). At or above MEM_SIZE "a write has no effect" (R43), while busy
too: DEDUCED (log 5), since R56(d) and U2 forbid buffer writes without naming those addresses. -/
def hostMemWrite (a : Nat) (b : Byte) (s : State) : State :=
  if s.busy && decide (a < s.mem.size) then raiseHazard { s with mem := s.mem.store a b }
  else { s with mem := s.mem.store a b }

/-- `HostMemRead(addr)` (R43). While busy, a read of a byte the command reads or writes gives an unspecified value
and makes those bytes unspecified; any other byte reads as usual (R56(d), R266). -/
def hostMemRead (a : Nat) (s : State) : State :=
  if s.busy && inRanges (touchedRanges s) a then
    raiseHazard { s with memData := Config.freeByte s.draws, draws := s.draws + 1 }
  else { s with memData := s.mem.load a }

/-- `W` after reset: unspecified, so 240 free bytes from draw `d` on (R36, R260). -/
def freeSchedule (d : Nat) : Schedule := Vector.ofFn fun i => Vector.ofFn fun k => Config.freeByte (d + (4 * i.val + k.val))

/-- Every piece of state at its reset value, the buffer memory being `m` and `W` unspecified (R36, R260). The host's
moves to come and the ports' last values are not the block's state and stay. -/
def resetWith (m : Memory) (d : Nat) (s : State) : State :=
  { State.reset with
    mem := m
    w := freeSchedule d
    draws := d + 240
    regData := s.regData
    memData := s.memData
    agenda := s.agenda }

/-- The bytes an abandoned command leaves unspecified: its destination range, and after a forbidden host access
every byte it reads or writes (R261, R56(d)). -/
def abandonedRanges (s : State) : List (Nat × Nat) :=
  if s.busy then (if s.hazard then touchedRanges s else writtenRanges s) else []

/-- `rst`: reset, the buffer memory unchanged but for the bytes of an abandoned command (R260 to R262). -/
def hardReset (s : State) : State :=
  resetWith (s.mem.scrambleRanges (abandonedRanges s) s.draws) (s.draws + rangesLength (abandonedRanges s)) s

/-- Power lost and applied again: every byte of buffer memory has some value drawn freely, then reset (R262, R263). -/
def powerCycle (s : State) : State :=
  resetWith (s.mem.scramble 0 s.mem.size s.draws) (s.draws + s.mem.size) s

end Sys2Proof.Machine
end

