-- ==== Sys2Proof/Machine/Sequencer.lean ====
section
/-! DEFINITION. The step-level control state machine that `exec`'s atomic step abstracts (45_command_sequencer.md
R207 to R211). One `tick` is one step of R207; the micro-program's locals stand in `scratch` (log 8). -/

namespace Sys2Proof.Machine

/-- The command whose word is latched (R203). -/
def State.latched (s : State) : Decoded := decode s.lat.cmd

/-- Move to FINISH with a pending code (R208: "Any `raise Error` goes to `FINISH`"). -/
def toFinish (e : ErrCode) (s : State) : State :=
  { s with fsm := .finish, scratch := { s.scratch with pending := e } }

/-- Enter `BLK_IN` for block `i`; `pre` while a decryption works on its final block first (R208). -/
def toBlockIn (i : Nat) (pre : Bool) (s : State) : State :=
  { s with fsm := .blkIn, blk := i, scratch := { s.scratch with pending := .ok, precheck := pre } }

/-- The state after CHECK of a command whose checks passed (R208). -/
def startCommand (i : Instr) (s : State) : State :=
  match i with
  | .keyExpand => { s with fsm := .kload, scratch := { s.scratch with pending := .ok } }
  | .cipherBlock => { s with fsm := .encRnd, rnd := 0, scratch := { s.scratch with pending := .ok } }
  | .invCipherBlock => { s with fsm := .decRnd, rnd := s.nr.toNat, scratch := { s.scratch with pending := .ok } }
  | .ecbEnc => toBlockIn 0 false s
  | .cbcEnc => toBlockIn 0 false s
  | .ecbDec => toBlockIn (decBlocks s.srcBytes - 1) true s
  | .cbcDec => toBlockIn (decBlocks s.srcBytes - 1) true s
  | .nop | .stateLoad | .stateStore | .subBytes | .invSubBytes | .shiftRows | .invShiftRows | .mixColumns
  | .invMixColumns | .addRoundKey _ | .gfMul | .gfDouble | .sbox | .invSbox =>
    { s with fsm := .xform, scratch := { s.scratch with pending := .ok } }

/-- CHECK: decode and the checks of R240; chooses the next state (R207, R208). -/
def tickCheck (s : State) : State :=
  match s.latched with
  | .illegal _ => toFinish .illegalCommand s
  | .command i =>
    match commandCheck i s with
    | .ok => startCommand i s
    | e => toFinish e s

/-- The whole micro-program of a diagnostic command that runs in one XFORM step (R207). -/
def xformEffect (i : Instr) (s : State) : State :=
  match i with
  | .stateLoad => stateLoadEffect s
  | .stateStore => stateStoreEffect s
  | .subBytes => transformEffect subBytes s
  | .invSubBytes => transformEffect invSubBytes s
  | .shiftRows => transformEffect shiftRows s
  | .invShiftRows => transformEffect invShiftRows s
  | .mixColumns => transformEffect mixColumns s
  | .invMixColumns => transformEffect invMixColumns s
  | .addRoundKey round => addRoundKeyEffect round s
  | .gfMul => gfMulEffect s
  | .gfDouble => gfDoubleEffect s
  | .sbox => sboxEffect s
  | .invSbox => invSboxEffect s
  | .nop | .keyExpand | .cipherBlock | .invCipherBlock | .ecbEnc | .ecbDec | .cbcEnc | .cbcDec => s

/-- XFORM (R207). -/
def tickXform (s : State) : State :=
  match s.latched with
  | .illegal _ => toFinish .illegalCommand s
  | .command i => toFinish .ok (xformEffect i s)

/-- KLOAD: reads the key and writes `W[0..Nk-1]`; sets `kidx <- Nk` (R207). -/
def loadKey (s : State) : State :=
  { s with
    w := loadKeyWords s.mem s.keyBase (nkOf s.keyBytes) s.w,
    kidx := nkOf s.keyBytes,
    fsm := .kexp }

/-- KEXP: computes `W[kidx]` by one iteration of R123, `kidx <- kidx + 1`; stays while `kidx < 4*(NR+1)`, NR being
that of the key under expansion (R207, R208). -/
def expandOneWord (s : State) : State :=
  if s.kidx < 4 * (nrOf s.keyBytes + 1) then
    { s with
      w := expandStep (nkOf s.keyBytes) s.kidx s.w,
      kidx := s.kidx + 1,
      fsm := if s.kidx + 1 < 4 * (nrOf s.keyBytes + 1) then .kexp else .finish }
  else { s with fsm := .finish }

/-- KLOAD (R207). Only `KEY_EXPAND` reaches it; another command is taken to FINISH. -/
def tickKload (s : State) : State :=
  if s.latched = .command .keyExpand then loadKey s else { s with fsm := .finish }

/-- KEXP (R207). Only `KEY_EXPAND` reaches it; another command is taken to FINISH. -/
def tickKexp (s : State) : State :=
  if s.latched = .command .keyExpand then expandOneWord s else { s with fsm := .finish }

/-- BLK_IN of an encryption: block `blk` of the padded message into `S`, chained for CBC, whose chain starts from the
IV at block 0 (R207, R184, R186). That this step makes the XOR of R186 is DEDUCED (log 8). -/
def tickBlockInEnc (cbc : Bool) (s : State) : State :=
  let p := if s.blk = 0 ∧ cbc then s.mem.loadBlock s.ivBase else s.prev
  let m := messageBlock s.mem s.srcBase s.srcBytes s.blk
  { s with prev := p, sreg := if cbc then blockXor m p else m, rnd := 0, fsm := .encRnd }

/-- BLK_IN of a decryption's pre-check: the final block into `S`, and the locals `iv`, `c_last` and, for CBC, `c_prev`
(R207, R185, R187). No rule says where `c_prev` stands until its XOR: DESIGN CHOICE, in `scratch` (log 8). -/
def tickBlockInPre (cbc : Bool) (s : State) : State :=
  { s with
    sreg := s.mem.loadBlock s.lastSrc,
    rnd := s.nr.toNat,
    fsm := .decRnd,
    scratch := { s.scratch with
      iv := if cbc then s.mem.loadBlock s.ivBase else s.scratch.iv,
      lastBlock := s.mem.loadBlock s.lastSrc,
      chainBlock := if cbc then cbcDecChain s else s.scratch.chainBlock } }

/-- Input block `blk` of a decryption's main pass: read from memory, but for the final block, which is the one the
pre-check read and is not read again (R53, R185, R187; log 8). -/
def decInput (s : State) : Block :=
  if s.blk + 1 < decBlocks s.srcBytes then s.mem.loadBlock (s.srcBase + 16 * s.blk) else s.scratch.lastBlock

/-- BLK_IN of a decryption's main pass: block `blk` into `S`, the chain starting from the IV at block 0, then DEC_RND
for every block (R207, R208). -/
def tickBlockInDec (cbc : Bool) (s : State) : State :=
  { s with
    prev := if s.blk = 0 ∧ cbc then s.scratch.iv else s.prev,
    sreg := decInput s,
    rnd := s.nr.toNat,
    fsm := .decRnd,
    scratch := { s.scratch with cipherBlock := decInput s } }

/-- BLK_IN of a decryption. -/
def tickBlockInDecrypt (cbc : Bool) (s : State) : State :=
  if s.scratch.precheck then tickBlockInPre cbc s else tickBlockInDec cbc s

/-- BLK_IN (R207). Only the mode commands reach it; another command is taken to FINISH. -/
def tickBlockIn (s : State) : State :=
  match s.latched with
  | .command .ecbEnc => tickBlockInEnc false s
  | .command .cbcEnc => tickBlockInEnc true s
  | .command .ecbDec => tickBlockInDecrypt false s
  | .command .cbcDec => tickBlockInDecrypt true s
  | _ => { s with fsm := .finish }

/-- Round `r` of `Cipher` (R209). -/
def encRoundStep (w : Schedule) (nr r : Nat) (b : Block) : Block :=
  if r = 0 then addRoundKey w 0 b else if r < nr then encRound w r b else encFinalRound w nr b

/-- Round `r` of `InvCipher` (R209). -/
def decRoundStep (w : Schedule) (nr r : Nat) (b : Block) : Block :=
  if r = 0 then addRoundKey w 0 b else if r < nr then decRound w r b else decFirstRound w nr b

/-- ENC_RND: one round; `rnd <- rnd + 1`, leaving after `rnd = NR` (R207, R209). The counter keeps NR on leaving
(log 8). -/
def tickEncRound (s : State) : State :=
  { s with
    sreg := encRoundStep s.w s.nr.toNat s.rnd s.sreg,
    rnd := if s.rnd < s.nr.toNat then s.rnd + 1 else s.rnd,
    fsm := if s.rnd < s.nr.toNat then .encRnd
      else if s.latched = .command .cipherBlock then .finish else .blkOut }

/-- `S` after the last round of a block of the main pass: the unchained block, and for the final block `S <- HOLD`
(R185, R187; log 8). -/
def decOutput (unchained : Block) (s : State) : Block :=
  if s.blk + 1 < decBlocks s.srcBytes then unchained else s.hold

/-- What follows the last round of a decryption: `HOLD` gets the unchained block after the pre-check, `S` the output
block in the main pass (R185, R187, R208). That the last DEC_RND step makes the XOR of R187 and writes `HOLD` is
DEDUCED: no row of R207 or R209 names the step (log 8). -/
def leaveDecRound (s : State) : State :=
  match s.latched with
  | .command .ecbDec =>
    if s.scratch.precheck then { s with hold := s.sreg, fsm := .padChk }
    else { s with sreg := decOutput s.sreg s, fsm := .blkOut }
  | .command .cbcDec =>
    if s.scratch.precheck then
      { s with
        hold := blockXor s.sreg s.scratch.chainBlock, sreg := blockXor s.sreg s.scratch.chainBlock, fsm := .padChk }
    else { s with sreg := decOutput (blockXor s.sreg s.prev) s, fsm := .blkOut }
  | _ => { s with fsm := .finish }

/-- DEC_RND: one round; `rnd <- rnd - 1`, leaving after `rnd = 0` (R207, R209). -/
def tickDecRound (s : State) : State :=
  if s.rnd = 0 then leaveDecRound { s with sreg := decRoundStep s.w s.nr.toNat 0 s.sreg }
  else { s with sreg := decRoundStep s.w s.nr.toNat s.rnd s.sreg, rnd := s.rnd - 1 }

/-- PAD_CHK: the `padOK` test on `HOLD`, then `blk = 0` for the main pass (R207, R208). -/
def tickPadCheck (s : State) : State :=
  if padOK s.hold then toBlockIn 0 false s else toFinish .badPadding s

/-- After an output block: `blk <- blk + 1`, and BLK_IN while blocks remain, else FINISH (R207, R208). -/
def nextBlock (total : Nat) (s : State) : State :=
  { s with blk := s.blk + 1, fsm := if s.blk + 1 < total then .blkIn else .finish }

/-- BLK_OUT of an encryption: writes output block `blk`; updates `PREV` for CBC (R207, R184, R186). -/
def tickBlockOutEnc (cbc : Bool) (s : State) : State :=
  nextBlock (encBlocks s.srcBytes)
    { s with
      mem := s.mem.storeBlock (s.dstBase + 16 * s.blk) s.sreg,
      prev := if cbc then s.sreg else s.prev }

/-- BLK_OUT of a decryption: writes output block `blk`, or the unpadded part of the final block; updates `PREV` for
CBC (R207, R185, R187). -/
def tickBlockOutDec (cbc : Bool) (s : State) : State :=
  if s.blk + 1 < decBlocks s.srcBytes then
    nextBlock (decBlocks s.srcBytes)
      { s with
        mem := s.mem.storeBlock (s.dstBase + 16 * s.blk) s.sreg,
        prev := if cbc then s.scratch.cipherBlock else s.prev }
  else
    nextBlock (decBlocks s.srcBytes)
      { s with
        mem := s.mem.storeBytes s.lastDst (unpadded s.hold),
        prev := if cbc then s.scratch.lastBlock else s.prev }

/-- BLK_OUT (R207). Only the mode commands reach it; another command is taken to FINISH. -/
def tickBlockOut (s : State) : State :=
  match s.latched with
  | .command .ecbEnc => tickBlockOutEnc false s
  | .command .cbcEnc => tickBlockOutEnc true s
  | .command .ecbDec => tickBlockOutDec false s
  | .command .cbcDec => tickBlockOutDec true s
  | _ => { s with fsm := .finish }

/-- FINISH: writes `OUT_LEN`, `NK`, `NR`, `KEY_VALID` as the command's rule says, then completes (R207, R204). -/
def tickFinish (s : State) : State :=
  match s.latched with
  | .command .keyExpand =>
    if s.scratch.pending = .ok then complete .ok (setKeyParams s) else raiseKeyError s.scratch.pending s
  | .command .ecbEnc =>
    if s.scratch.pending = .ok then complete .ok (setOutLen (encBytes s.srcBytes) s)
    else raiseModeError s.scratch.pending s
  | .command .cbcEnc =>
    if s.scratch.pending = .ok then complete .ok (setOutLen (encBytes s.srcBytes) s)
    else raiseModeError s.scratch.pending s
  | .command .ecbDec =>
    if s.scratch.pending = .ok then complete .ok (setOutLen (decLength s.srcBytes s.hold) s)
    else raiseModeError s.scratch.pending s
  | .command .cbcDec =>
    if s.scratch.pending = .ok then complete .ok (setOutLen (decLength s.srcBytes s.hold) s)
    else raiseModeError s.scratch.pending s
  | _ => complete s.scratch.pending s

/-- One step of the control state machine (R207). -/
def tick (s : State) : State :=
  match s.fsm with
  | .idle => s
  | .check => tickCheck s
  | .xform => tickXform s
  | .kload => tickKload s
  | .kexp => tickKexp s
  | .blkIn => tickBlockIn s
  | .encRnd => tickEncRound s
  | .decRnd => tickDecRound s
  | .padChk => tickPadCheck s
  | .blkOut => tickBlockOut s
  | .finish => tickFinish s

/-- `n` steps of the control state machine. -/
def ticks : Nat → State → State
  | 0, s => s
  | n + 1, s => ticks n (tick s)

/-- The bound of R211 on the steps of a command: `4 + 60 + (SRC_LEN div 16 + 2) * (3 + 15)`. -/
def tickBound (s : State) : Nat := 4 + 60 + (s.srcBytes / 16 + 2) * (3 + 15)

end Sys2Proof.Machine
end

