-- ==== Sys2Proof/Machine/Engine.lean ====
section
/-! DEFINITION. The moves of the agenda and of the engine (45_command_sequencer.md R203, R206; 70_reset_and_hazards.md
R270, R273). -/

namespace Sys2Proof.Machine

/-- The engine runs the accepted command whose checks have not begun: an illegal word completes with
`IllegalCommand` and touches nothing else (R64, R238 item 3); a command runs whole (R203, R206). -/
def runCommand (s : State) : Host.Outcome State Fault Refusal :=
  match decode s.lat.cmd with
  | .illegal _ => .next (raiseError .illegalCommand s)
  | .command i => exec i s

/-- An outcome's state after the bytes of a forbidden host access are settled (R56(d)). -/
def settleOutcome : Host.Outcome State Fault Refusal → Host.Outcome State Fault Refusal
  | .next s => .next (settle s)
  | .fault r => .fault r
  | .refused r => .refused r

/-- The engine's move: nothing in IDLE, which "waits for acceptance"; the whole command from CHECK (R206); the rest of
a command that single steps have begun (R207). -/
def engineMove (s : State) : Host.Outcome State Fault Refusal :=
  match s.fsm with
  | .idle => .next s
  | .check => settleOutcome (runCommand s)
  | .xform | .kload | .kexp | .blkIn | .encRnd | .decRnd | .padChk | .blkOut | .finish =>
    .next (settle (ticks (tickBound s) s))

/-- A host register access, performed if it is a whole word at a defined offset and refused if not (R34, R273). -/
def regAccess (width : Width) (off : Nat) (access : RegName → State) : Host.Outcome State Fault Refusal :=
  if width ≠ .word then .refused .registerWidth
  else if legalOffset off then .next (access (regAt off))
  else .refused .registerOffset

/-- Whether the last register read, of STATUS, ends a `WAIT`: BUSY 0 and DONE 1 (R66). -/
def showsCompletion (s : State) : Bool := !s.regData.getLsbD 0 && s.regData.getLsbD 1

/-- The moves that repeat a `WAIT` whose read did not end it: the next read, or, once `polls` reads are made, the
engine's move and the next read (R66, R275; log 18). -/
def waitAgain (polls : Nat) : List Move :=
  match polls with
  | 0 => [.engine, .wait 0]
  | n + 1 => [.wait n]

/-- One read of a `WAIT`: it ends the loop, or the loop goes on before the moves to come (R66). -/
def waitRead (polls : Nat) (s : State) : State :=
  if showsCompletion (readReg .status s) then readReg .status s
  else { readReg .status s with agenda := waitAgain polls ++ s.agenda }

/-- One move of the agenda (R270). -/
def performMove (m : Move) (s : State) : Host.Outcome State Fault Refusal :=
  match m with
  | .regWrite width off v => regAccess width off fun r => writeReg r v s
  | .regRead width off => regAccess width off fun r => readReg r s
  | .memWrite addr b => .next (hostMemWrite addr b s)
  | .memRead addr => .next (hostMemRead addr s)
  | .wait polls => .next (waitRead polls s)
  | .hardReset => .next (hardReset s)
  | .powerCycle => .next (powerCycle s)
  | .engine => engineMove s
  | .tick => .next (settle (tick s))

/-- The oldest move of the agenda is made and taken off it; with no move left the engine moves. -/
def nextMove (s : State) : Host.Outcome State Fault Refusal :=
  match s.agenda with
  | [] => engineMove s
  | m :: rest => performMove m { s with agenda := rest }

/-- The state in which the word `v` has just been accepted and the engine moves next (R201; log 7). -/
def loadCommand (v : Word) (s : State) : State := { accept v s with agenda := [] }

end Sys2Proof.Machine
end

