-- ==== Sys2Proof/Machine/Step.lean ====
section
/-! DEFINITION. One step of the machine: the oldest move of the agenda, or the engine's when there is none
(45_command_sequencer.md R206; log 7). -/

namespace Sys2Proof.Machine

/-- One step. -/
def step (s : State) : Host.Outcome State Fault Refusal := nextMove s

/-- `s` with the command word whose `nbits` low bits are `w` accepted (R201), so that the very next step runs it. The
hardware "fetches no instructions" (R13): a program is the host's `CMD` writes (log 7). -/
def State.withFetchWord (s : State) (nbits w : Nat) : State := loadCommand (BitVec.ofNat 32 (w % 2 ^ nbits)) s

end Sys2Proof.Machine
end

