-- ==== Sys2Proof/Safety.lean ====
section
/-! DEFINITION. The invariant of the machine, and the terms the statements use: what it is for bytes to have been
written, padding, polynomial arithmetic. -/

namespace Sys2Proof.Machine

/-- The buffer memory is in canonical form and its size is a legal MEM_SIZE (R41). -/
abbrev State.memInv (s : State) : Prop :=
  s.mem.wf = true ∧ Config.minMemSize ≤ s.mem.size ∧ s.mem.size ≤ Config.maxMemSize

/-- NK and NR are those of a valid key while KEY_VALID is 1, and 0 while it is 0 (R17, R18). -/
abbrev State.keyInv (s : State) : Prop :=
  (s.keyValid = false ∧ s.nk = 0 ∧ s.nr = 0) ∨
  (s.keyValid = true ∧ ((s.nk = 4 ∧ s.nr = 10) ∨ (s.nk = 6 ∧ s.nr = 12) ∨ (s.nk = 8 ∧ s.nr = 14)))

/-- While BUSY is 1, DONE and ERR are 0 (R213). -/
abbrev State.busyInv (s : State) : Prop := s.busy = true → s.done = false ∧ s.err = .ok

/-- A forbidden host access is pending only while a command runs (R56(d)). -/
abbrev State.hazardInv (s : State) : Prop := s.hazard = true → s.busy = true

/-- The number of blocks of a mode command, 0 for every other command (R183). -/
def modeBlocks (i : Instr) (s : State) : Nat :=
  match i with
  | .ecbEnc => encBlocks s.srcBytes
  | .cbcEnc => encBlocks s.srcBytes
  | .ecbDec => decBlocks s.srcBytes
  | .cbcDec => decBlocks s.srcBytes
  | .nop | .keyExpand | .stateLoad | .stateStore | .subBytes | .invSubBytes | .shiftRows | .invShiftRows
  | .mixColumns | .invMixColumns | .addRoundKey _ | .cipherBlock | .invCipherBlock | .gfMul | .gfDouble | .sbox
  | .invSbox => 0

/-- Whether a move is a host access to a register or to a byte of buffer memory (R270). -/
def isHostAccess (m : Move) : Bool :=
  match m with
  | .regWrite _ _ _ | .regRead _ _ | .memWrite _ _ | .memRead _ | .wait _ => true
  | .hardReset | .powerCycle | .engine | .tick => false

/-- Whether a command is one of the four mode commands (R67). -/
def isMode (i : Instr) : Bool :=
  match i with
  | .ecbEnc | .ecbDec | .cbcEnc | .cbcDec => true
  | .nop | .keyExpand | .stateLoad | .stateStore | .subBytes | .invSubBytes | .shiftRows | .invShiftRows
  | .mixColumns | .invMixColumns | .addRoundKey _ | .cipherBlock | .invCipherBlock | .gfMul | .gfDouble | .sbox
  | .invSbox => false

/-- The states of R207 in which a block of a message is in hand. -/
def blockStates : List Fsm := [.blkIn, .encRnd, .decRnd, .padChk, .blkOut]

/-- Between CHECK and FINISH the latched word is a command whose checks passed, and a mode command's block index is
below its number of blocks (R208). -/
abbrev State.sequencerInv (s : State) : Prop :=
  (s.fsm ≠ .idle ∧ s.fsm ≠ .check ∧ (s.fsm = .finish → s.scratch.pending = .ok)) →
    match decode s.lat.cmd with
    | .illegal _ => False
    | .command i => commandCheck i s = .ok ∧ (isMode i = true → s.fsm ∈ blockStates → s.blk < modeBlocks i s)

/-- The counters stay in the ranges of R21. -/
abbrev State.counterInv (s : State) : Prop := s.rnd ≤ 14 ∧ s.blk ≤ 2 ^ 27 ∧ s.kidx ≤ 60

/-- The invariant of the machine. -/
abbrev State.Inv (s : State) : Prop :=
  s.memInv ∧ s.keyInv ∧ s.busyInv ∧ s.hazardInv ∧ s.sequencerInv ∧ s.counterInv

/-- `m'` is `m` with the bytes `v` written at `a`, and nothing else changed: every address reads the byte of `v` that
belongs to it, or what it read before (R42). -/
def BytesWritten (m m' : Memory) (a : Nat) (v : List Byte) : Prop :=
  m'.size = m.size ∧ m'.wf = true ∧
    ∀ x, m'.load x = if a ≤ x ∧ x < a + v.length then v.getD (x - a) 0 else m.load x

/-- Every byte outside the `len` bytes at `base` reads in `t` as in `s`. -/
def memKeptOutside (s t : State) (base len : Nat) : Prop :=
  ∀ x, ¬(base ≤ x ∧ x < base + len) → t.mem.load x = s.mem.load x

/-- Block `i` of `pad(m)` for the `n` bytes at `src` in `m`: byte `k` of the padded message is byte `k` of the message
below `n`, and the padding length `16 - (n mod 16)` from there on (R181). -/
def paddedBlock (m : Memory) (src n i : Nat) : Block :=
  Vector.ofFn fun j =>
    if 16 * i + j.val < n then m.load (src + (16 * i + j.val)) else BitVec.ofNat 8 (16 - n % 16)

/-- The rule of R182, as R182 words it. -/
def goodPadding (b : Block) : Prop :=
  1 ≤ b[15].toNat ∧ b[15].toNat ≤ 16 ∧ ∀ j : Fin 16, 16 - b[15].toNat ≤ j.val → b[j] = b[15]

/-- A range in bounds, as R51 words it. -/
abbrev rangeFits (s : State) (base len : Nat) : Prop := len = 0 ∨ base + len ≤ s.mem.size

/-- Writing to the destination never overtakes the reading of the source: the destination starts at or below the source,
or at or above its end (R192). -/
abbrev noOverrun (src n dst : Nat) : Prop := dst ≤ src ∨ src + n ≤ dst

/-- `s` with the command completed with code `e`, nothing but STATUS changed (R204). -/
def onlyStatus (e : ErrCode) (s : State) : State := { s with err := e, done := true, fsm := .idle }

/-- `t` is `s` but for the state machine's counters and the locals of its micro-program, which no host access can
observe (R21, R206). -/
def sameButSequencer (s t : State) : Prop :=
  t = { s with rnd := t.rnd, blk := t.blk, kidx := t.kidx, scratch := t.scratch }

/-- The product of two polynomials over GF(2), as 16 bits (R100). -/
def polyProduct (a b : Byte) : BitVec 16 :=
  (List.range 8).foldl (fun p i => if b.getLsbD i then p ^^^ (a.setWidth 16 <<< i) else p) 0

/-- The remainder modulo `x^8 + x^4 + x^3 + x + 1`, from the highest term down (R100). -/
def polyRemainder (p : BitVec 16) : Byte :=
  ((List.range 8).foldl (fun q i => if q.getLsbD (15 - i) then q ^^^ (0x11B#16 <<< (7 - i)) else q) p).setWidth 8

/-- The affine map of R113. -/
def sboxAffine (b : Byte) : Byte :=
  b ^^^ b.rotateLeft 1 ^^^ b.rotateLeft 2 ^^^ b.rotateLeft 3 ^^^ b.rotateLeft 4 ^^^ 0x63

/-- `Cipher` as R148 writes it: the middle rounds folded over `r = 1 .. NR-1`. -/
def cipherByRounds (w : Schedule) (nr : Nat) (s : Block) : Block :=
  addRoundKey w nr (shiftRows (subBytes
    ((List.range (nr - 1)).foldl (fun b k => addRoundKey w (k + 1) (mixColumns (shiftRows (subBytes b))))
      (addRoundKey w 0 s))))

/-- `InvCipher` as R149 writes it: the middle rounds folded over `r = NR-1` down to 1. -/
def invCipherByRounds (w : Schedule) (nr : Nat) (s : Block) : Block :=
  addRoundKey w 0
    ((List.range (nr - 1)).foldl
      (fun b k => invSubBytes (invShiftRows (invMixColumns (addRoundKey w (nr - 1 - k) b))))
      (invSubBytes (invShiftRows (addRoundKey w nr s))))

end Sys2Proof.Machine
end

