-- ==== Sys2Proof/Certificates/Slice0/Obligations.lean ====
section
/-! DEFINITION. The statements about this model, each named for what it states. They rest on the numbered rules of the
spec; a clause that rests on the model's own choice says so and names its log entry. -/

open Sys2Proof Sys2Proof.Machine

/-! ## Encoding -/

/-- Decoding an encoded well-formed command gives it back, with every round number the ARG field admits (R60 to R63). -/
def Obligations.DecodeUndoesEncode : Prop :=
  ∀ i : Instr, i.wf = true → decode (encode i) = .command i

/-- R63: decoding is total; a word is illegal exactly when RSV is not 0, OP is not assigned, or ARG is not 0 with OP
other than 0x18; any other word is the command of its OP with its ARG; `ADD_ROUND_KEY` with a round above NR decodes and
fails when it runs. -/
def Obligations.DecodeFollowsTheOpcodeMap : Prop :=
  (∀ w : Word, (∃ y, decode w = .illegal y) ↔
    (w.toNat / 4096 ≠ 0 ∨
     w.toNat % 256 ∉ [0x00, 0x01, 0x10, 0x11, 0x12, 0x13, 0x14, 0x15, 0x16, 0x17, 0x18, 0x20, 0x21, 0x30, 0x31, 0x32,
       0x33, 0x40, 0x41, 0x42, 0x43] ∨
     (w.toNat % 256 ≠ 0x18 ∧ w.toNat / 256 % 16 ≠ 0))) ∧
  (∀ (w : Word) (i : Instr), decode w = .command i →
    opcodeOf i = w.toNat % 256 ∧ argOf i = w.toNat / 256 % 16 ∧ i.wf = true ∧ encode i = w) ∧
  (∀ (s : State) (w : Word), w.toNat / 4096 = 0 → w.toNat % 256 = 0x18 →
    decode w = .command (.addRoundKey (w.toNat / 256 % 16)) ∧
    (s.keyValid = true → s.nr.toNat < w.toNat / 256 % 16 →
      ∃ t, exec (.addRoundKey (w.toNat / 256 % 16)) s = .next t ∧ t.err = .illegalCommand))

/-- R62: the command word of every row, ARG 0, and `ADD_ROUND_KEY` with round `r` as `0x18 | (r << 8)`. -/
def Obligations.OpcodeMapWords : Prop :=
  decode 0x00000000#32 = .command .nop ∧ decode 0x00000001#32 = .command .keyExpand ∧
  decode 0x00000010#32 = .command .stateLoad ∧ decode 0x00000011#32 = .command .stateStore ∧
  decode 0x00000012#32 = .command .subBytes ∧ decode 0x00000013#32 = .command .invSubBytes ∧
  decode 0x00000014#32 = .command .shiftRows ∧ decode 0x00000015#32 = .command .invShiftRows ∧
  decode 0x00000016#32 = .command .mixColumns ∧ decode 0x00000017#32 = .command .invMixColumns ∧
  (∀ r : Nat, r < 16 → decode (0x00000018#32 ||| (BitVec.ofNat 32 r <<< 8)) = .command (.addRoundKey r)) ∧
  decode 0x00000020#32 = .command .cipherBlock ∧ decode 0x00000021#32 = .command .invCipherBlock ∧
  decode 0x00000030#32 = .command .ecbEnc ∧ decode 0x00000031#32 = .command .ecbDec ∧
  decode 0x00000032#32 = .command .cbcEnc ∧ decode 0x00000033#32 = .command .cbcDec ∧
  decode 0x00000040#32 = .command .gfMul ∧ decode 0x00000041#32 = .command .gfDouble ∧
  decode 0x00000042#32 = .command .sbox ∧ decode 0x00000043#32 = .command .invSbox

/-! ## The sequencer and the host's register port -/

/-- When an accepted command waits for its checks and the engine moves next, the step is `exec` of the decoded command
(R203, R206). What `step` adds is the settling of a forbidden host access (R56(d)), nothing without one. An `engine`
move on the agenda does the same with the move taken off. From every state, idle or busy, the step after `withFetchWord`
of a word is `exec` of the command the word decodes to, and from an idle state `withFetchWord` is what a `CMD` write of
the word leaves, with no move to come (R201; log 7). -/
def Obligations.StepRunsTheDecodedCommand : Prop :=
  (∀ (s : State) (i : Instr), s.fsm = .check → decode s.lat.cmd = .command i →
    (s.agenda = [] → step s = settleOutcome (exec i s)) ∧
    (s.agenda = [] → s.hazard = false → step s = exec i s) ∧
    (∀ rest, s.agenda = .engine :: rest →
      step s = settleOutcome (exec i { s with agenda := rest }))) ∧
  (∀ (s : State) (w : Nat) (i : Instr), decode (BitVec.ofNat 32 w) = .command i →
    step (s.withFetchWord 32 w) = exec i (s.withFetchWord 32 w) ∧
    s.withFetchWord 32 w = { accept (BitVec.ofNat 32 w) s with agenda := [] } ∧
    (s.fsm = .idle → s.agenda = [.regWrite .word 0x00 (BitVec.ofNat 32 w)] →
      step s = .next (s.withFetchWord 32 w)))

/-- R64: every word is accepted; an illegal one completes with `IllegalCommand` and touches nothing else; the illegal
space is RSV not 0, the OP ranges of the rule, ARG not 0 with OP other than 0x18. -/
def Obligations.IllegalWordsTouchOnlyStatus : Prop :=
  (∀ (s : State) (v : Word), s.fsm = .idle → (writeReg .cmd v s).fsm = .check ∧ (writeReg .cmd v s).lat.cmd = v) ∧
  (∀ w : Word, (∃ y, decode w = .illegal y) ↔
    (w.toNat / 4096 ≠ 0 ∨
     ((0x02 ≤ w.toNat % 256 ∧ w.toNat % 256 ≤ 0x0F) ∨ (0x19 ≤ w.toNat % 256 ∧ w.toNat % 256 ≤ 0x1F) ∨
      (0x22 ≤ w.toNat % 256 ∧ w.toNat % 256 ≤ 0x2F) ∨ (0x34 ≤ w.toNat % 256 ∧ w.toNat % 256 ≤ 0x3F) ∨
      0x44 ≤ w.toNat % 256) ∨
     (w.toNat / 256 % 16 ≠ 0 ∧ w.toNat % 256 ≠ 0x18))) ∧
  (∀ (s : State) (y : Illegal), s.agenda = [] → s.fsm = .check → s.hazard = false → decode s.lat.cmd = .illegal y →
    step s = .next { s with err := .illegalCommand, done := true, fsm := .idle })

/-- R201: acceptance, as one indivisible event, of any word; OVR is not changed, and an illegal word then completes with
`IllegalCommand`. Nothing is said of the model's own `hazard` flag. -/
def Obligations.AcceptanceLatchesEveryOperand : Prop :=
  (∀ (s : State) (v : Word) (rest : List Move), s.fsm = .idle → s.agenda = .regWrite .word 0x00 v :: rest →
    ∃ t, step s = .next t ∧ t = { s with
      agenda := rest
      cmd := v
      lat := { cmd := v, keyAddr := s.keyAddr, keyLen := s.keyLen, ivAddr := s.ivAddr, ivLen := s.ivLen,
               srcAddr := s.srcAddr, srcLen := s.srcLen, dstAddr := s.dstAddr, opA := s.opA, opB := s.opB }
      done := false
      err := .ok
      fsm := .check
      hazard := t.hazard }) ∧
  (∀ (s : State) (v : Word) (y : Illegal), s.fsm = .idle → decode v = .illegal y →
    ∃ t, engineMove (writeReg .cmd v s) = .next t ∧ t.err = .illegalCommand ∧ t.done = true ∧ t.fsm = .idle)

/-- R202: a `CMD` write while busy is dropped and sets OVR; nothing else changes. -/
def Obligations.CommandWriteWhileBusyIsDropped : Prop :=
  ∀ (s : State) (v : Word) (rest : List Move), s.fsm ≠ .idle → s.agenda = .regWrite .word 0x00 v :: rest →
    step s = .next { s with agenda := rest, ovr := true }

/-- R212: a write to an operand register while busy updates the register, has no effect on the running command, step by
step or as a whole, and is latched by the next accepted command; a write to STATUS acts on DONE and OVR as usual. -/
def Obligations.OperandWritesWhileBusyWaitForTheNextCommand : Prop :=
  (∀ (s : State) (r : RegName) (v : Word), s.fsm ≠ .idle →
    r ∈ [RegName.keyAddr, .keyLen, .ivAddr, .ivLen, .srcAddr, .srcLen, .dstAddr, .opA, .opB] →
    regValueBusy r (writeReg r v s) = (if r = .opA ∨ r = .opB then (v.setWidth 8).setWidth 32 else v) ∧
    (writeReg r v s).lat = s.lat ∧
    tick (writeReg r v s) = writeReg r v (tick s) ∧
    (s.fsm = .check → ∃ t, runCommand s = .next t ∧ runCommand (writeReg r v s) = .next (writeReg r v t))) ∧
  (∀ (s : State) (v c : Word),
    (accept c (writeReg .keyAddr v s)).lat.keyAddr = v ∧ (accept c (writeReg .keyLen v s)).lat.keyLen = v ∧
    (accept c (writeReg .ivAddr v s)).lat.ivAddr = v ∧ (accept c (writeReg .ivLen v s)).lat.ivLen = v ∧
    (accept c (writeReg .srcAddr v s)).lat.srcAddr = v ∧ (accept c (writeReg .srcLen v s)).lat.srcLen = v ∧
    (accept c (writeReg .dstAddr v s)).lat.dstAddr = v ∧ (accept c (writeReg .opA v s)).lat.opA = v.setWidth 8 ∧
    (accept c (writeReg .opB v s)).lat.opB = v.setWidth 8) ∧
  (∀ (s : State) (v : Word), s.fsm ≠ .idle →
    writeReg .status v s = { s with done := s.done && !v.getLsbD 1, ovr := s.ovr && !v.getLsbD 3 })

/-- What a register read gives and leaves, offset by offset (R22 to R33): the registers with a current value at any time;
STATUS, OUT_LEN, KEYCFG and RES while idle; of STATUS while busy BUSY 1, DONE 0, ERR 0 and OVR (R213). It changes
nothing but the port. Nothing is said of a value R213 leaves open. The counting of draws is the model's (log 4). -/
def Obligations.RegisterReadsGiveTheRegisterMap : Prop :=
  ∀ (s : State) (off : Nat) (rest : List Move), off % 4 = 0 → off ≤ 0xFC → s.agenda = .regRead .word off :: rest →
    ∃ t, step s = .next t ∧
      (s.fsm = .idle → t = { s with agenda := rest, regData := t.regData }) ∧
      (s.fsm ≠ .idle → t = { s with agenda := rest, regData := t.regData, draws := s.draws + 1 }) ∧
      (off = 0x00 → t.regData = s.cmd) ∧ (off = 0x08 → t.regData = s.keyAddr) ∧
      (off = 0x0C → t.regData = s.keyLen) ∧ (off = 0x10 → t.regData = s.ivAddr) ∧
      (off = 0x14 → t.regData = s.ivLen) ∧ (off = 0x18 → t.regData = s.srcAddr) ∧
      (off = 0x1C → t.regData = s.srcLen) ∧ (off = 0x20 → t.regData = s.dstAddr) ∧
      (off = 0x2C → t.regData.toNat = s.opA.toNat) ∧ (off = 0x30 → t.regData.toNat = s.opB.toNat) ∧
      (0x38 ≤ off → t.regData = 0) ∧
      (s.fsm = .idle →
        (off = 0x04 → t.regData.toNat =
          2 * s.done.toNat + 4 * s.keyValid.toNat + 8 * s.ovr.toNat + 256 * s.err.code) ∧
        (off = 0x24 → t.regData = s.outLen) ∧ (off = 0x28 → t.regData.toNat = s.nk.toNat + 256 * s.nr.toNat) ∧
        (off = 0x34 → t.regData.toNat = s.res.toNat)) ∧
      (s.fsm ≠ .idle → off = 0x04 →
        t.regData.getLsbD 0 = true ∧ t.regData.getLsbD 1 = false ∧ t.regData.getLsbD 3 = s.ovr ∧
        t.regData.extractLsb' 8 4 = 0#4)

/-- A read-write register gives back what a write stored, at any time: the whole word for addresses and lengths
(R25 to R28), `zext_32(v[7:0])` for `OPA` and `OPB` (R31). -/
def Obligations.OperandRegistersReadBack : Prop :=
  ∀ (s : State) (off : Nat) (v : Word) (rest : List Move),
    off ∈ [0x08, 0x0C, 0x10, 0x14, 0x18, 0x1C, 0x20, 0x2C, 0x30] →
    s.agenda = .regWrite .word off v :: .regRead .word off :: rest →
    ∃ t u, step s = .next t ∧ step t = .next u ∧
      u.regData = (if off = 0x2C ∨ off = 0x30 then (v.setWidth 8).setWidth 32 else v) ∧
      u.fsm = s.fsm ∧ u.lat = s.lat ∧ u.mem = s.mem

/-- Reserved offsets read 0 and ignore writes, and so do the reserved bits of the defined registers, idle or busy (R33).
That the reserved bits of KEYCFG and RES read 0 also while busy, where R213 leaves those registers unspecified, is the
model's choice (DEDUCED, log 6). The read-only registers ignore writes too (R22). -/
def Obligations.ReservedSpaceReadsZeroAndIgnoresWrites : Prop :=
  (∀ (s : State) (off : Nat) (v : Word) (rest : List Move), off % 4 = 0 → off ≤ 0xFC →
    (0x38 ≤ off ∨ off = 0x24 ∨ off = 0x28 ∨ off = 0x34) → s.agenda = .regWrite .word off v :: rest →
    step s = .next { s with agenda := rest }) ∧
  (∀ (s : State) (off : Nat), off % 4 = 0 → 0x38 ≤ off → off ≤ 0xFC →
    regValue (regAt off) s = 0 ∧ regValueBusy (regAt off) s = 0) ∧
  (∀ s : State,
    (∀ f ∈ [regValue, regValueBusy],
      f .status s &&& 0xFFFFF0F0#32 = 0 ∧ f .keycfg s &&& 0xFFFFF0F0#32 = 0 ∧ f .opA s &&& 0xFFFFFF00#32 = 0 ∧
      f .opB s &&& 0xFFFFFF00#32 = 0 ∧ f .res s &&& 0xFFFFFF00#32 = 0) ∧
    (∀ v : Word, writeReg .status v s = writeReg .status (v &&& 0x0000000A#32) s ∧
      writeReg .opA v s = writeReg .opA (v &&& 0x000000FF#32) s ∧
      writeReg .opB v s = writeReg .opB (v &&& 0x000000FF#32) s))

/-- The fields of a STATUS read while idle, and its write-1-to-clear bits (R24). -/
def Obligations.StatusFieldsAndWriteOneToClear : Prop :=
  (∀ s : State, s.fsm = .idle →
    (regValue .status s).getLsbD 0 = false ∧ (regValue .status s).getLsbD 1 = s.done ∧
    (regValue .status s).getLsbD 2 = s.keyValid ∧ (regValue .status s).getLsbD 3 = s.ovr ∧
    ((regValue .status s).extractLsb' 8 4).toNat = s.err.code) ∧
  (∀ (s : State) (v : Word) (rest : List Move), s.agenda = .regWrite .word 0x04 v :: rest →
    ∃ t, step s = .next t ∧ t = { s with agenda := rest, done := t.done, ovr := t.ovr } ∧
      (t.done = true ↔ s.done = true ∧ v.getLsbD 1 = false) ∧ (t.ovr = true ↔ s.ovr = true ∧ v.getLsbD 3 = false))

/-- R30: `KEYCFG` holds NK in bits 3:0 and NR in bits 11:8, every other bit 0, is read-only, and is 0 at reset. -/
def Obligations.KeycfgHoldsNkAndNr : Prop :=
  (∀ s : State, (regValue .keycfg s).extractLsb' 0 4 = s.nk ∧ (regValue .keycfg s).extractLsb' 4 4 = 0#4 ∧
    (regValue .keycfg s).extractLsb' 8 4 = s.nr ∧ (regValue .keycfg s).extractLsb' 12 20 = 0#20) ∧
  (∀ (s : State) (v : Word), writeReg .keycfg v s = s) ∧ regAt 0x28 = .keycfg ∧ regValue .keycfg State.reset = 0

/-- R34: a register access is a whole 32-bit word at a multiple of 4 in 0x00..0xFC, performed at once, so that a write
has taken effect before any later access; any other access is refused. -/
def Obligations.RegisterAccessOutsideTheMapIsRefused : Prop :=
  ∀ (s : State) (width : Width) (off : Nat) (v : Word) (rest : List Move),
    (s.agenda = .regWrite width off v :: rest ∨ s.agenda = .regRead width off :: rest) →
    (width ≠ .word → step s = .refused .registerWidth) ∧
    (width = .word → (off % 4 ≠ 0 ∨ 0xFC < off) → step s = .refused .registerOffset) ∧
    (width = .word → off % 4 = 0 → off ≤ 0xFC →
      (s.agenda = .regWrite width off v :: rest → step s = .next (writeReg (regAt off) v { s with agenda := rest })) ∧
      (s.agenda = .regRead width off :: rest → step s = .next (readReg (regAt off) { s with agenda := rest })))

/-! ## The buffer memory, reset and power -/

/-- The host buffer port (R43): one byte per access; below MEM_SIZE a write sets the byte and a read gives it, every
other byte as it was; at or above MEM_SIZE a write has no effect and a read gives 0x00. The clauses about a running
command rest on the model's choice (DEDUCED, logs 5 and 19): a byte written outside the command's ranges lands, a read
outside them gives the byte, and a write at or above MEM_SIZE is ignored while busy too. Of the bytes inside the ranges,
which R56(d) leaves open, nothing is said. -/
def Obligations.BufferPortReadsAndWritesOneByte : Prop :=
  ∀ (s : State) (a : Nat) (b : Byte) (rest : List Move), s.mem.wf = true →
    (s.agenda = .memWrite a b :: rest → ∃ t, step s = .next t ∧ t.mem.size = s.mem.size ∧ t.mem.wf = true ∧
      (s.mem.size ≤ a → t = { s with agenda := rest }) ∧
      (s.fsm = .idle → t = { s with agenda := rest, mem := t.mem }) ∧
      (s.fsm ≠ .idle → t = { s with agenda := rest, mem := t.mem, hazard := t.hazard, draws := t.draws }) ∧
      (∀ x, s.fsm = .idle ∨ inRanges (touchedRanges s) x = false →
        t.mem.load x = if x = a ∧ x < s.mem.size then b else s.mem.load x)) ∧
    (s.agenda = .memRead a :: rest → ∃ t, step s = .next t ∧ t.mem.size = s.mem.size ∧
      (s.fsm = .idle ∨ inRanges (touchedRanges s) a = false →
        t = { s with agenda := rest, memData := s.mem.load a }) ∧
      (s.mem.size ≤ a → t.memData = 0))

/-- A host buffer write while a command runs (R56(d), R266) leaves every byte outside the command's ranges as a plain
write would, leaves the command running, and the command still completes; nothing is said of the bytes inside, which
are unspecified. That the written byte itself lands, and that a write at or above MEM_SIZE is no forbidden one but is
ignored, is DEDUCED (log 5). -/
def Obligations.HostWriteWhileBusySparesOtherBytes : Prop :=
  ∀ (s : State) (a : Nat) (b : Byte) (rest : List Move), s.mem.wf = true → s.fsm = .check →
    s.agenda = .memWrite a b :: rest →
    ∃ t u, step s = .next t ∧ engineMove t = .next u ∧
      t = { s with agenda := rest, mem := t.mem, draws := t.draws, hazard := t.hazard } ∧ t.mem.size = s.mem.size ∧
      (a < s.mem.size → t.hazard = true) ∧ (s.mem.size ≤ a → t = { s with agenda := rest }) ∧
      u.fsm = .idle ∧ u.done = true ∧ u.hazard = false ∧
      (∀ x, inRanges (touchedRanges s) x = false →
        t.mem.load x = (if x = a ∧ x < s.mem.size then b else s.mem.load x) ∧ u.mem.load x = t.mem.load x)

/-- R36: the reset values. `W` and the buffer memory are unspecified by the rule, and nothing is said of them. -/
def Obligations.ResetValues : Prop :=
  (∀ off, off % 4 = 0 → off ≤ 0xFC → regValue (regAt off) State.reset = 0) ∧
  State.reset.fsm = .idle ∧ State.reset.done = false ∧ State.reset.keyValid = false ∧ State.reset.ovr = false ∧
  State.reset.err = .ok ∧ State.reset.nk = 0 ∧ State.reset.nr = 0 ∧
  (∀ i : Fin 16, State.reset.sreg[i] = 0 ∧ State.reset.prev[i] = 0 ∧ State.reset.hold[i] = 0) ∧
  State.reset.lat = ⟨0, 0, 0, 0, 0, 0, 0, 0, 0, 0⟩ ∧
  State.reset.rnd = 0 ∧ State.reset.blk = 0 ∧ State.reset.kidx = 0

/-- R260: reset, at power-on or later, idle or busy, gives every piece of state its reset value; `W` is unspecified, the
buffer memory keeps its size, and the engine then waits in IDLE. Nothing is said of the model's own fields. -/
def Obligations.ResetMoveGivesTheResetValues : Prop :=
  ∀ (s : State) (rest : List Move), (s.agenda = .hardReset :: rest ∨ s.agenda = .powerCycle :: rest) →
    ∃ t, step s = .next t ∧
      t = { State.reset with
        w := t.w, mem := t.mem, scratch := t.scratch, hazard := t.hazard, draws := t.draws, regData := t.regData,
        memData := t.memData, agenda := rest } ∧
      t.mem.size = s.mem.size ∧ step { t with agenda := [] } = .next { t with agenda := [] }

/-- R261, with R262 for an idle block: reset while busy abandons the command without completion, loses the key, and
leaves every byte outside the command's checked destination range unchanged; reset while idle changes no byte. -/
def Obligations.ResetAbandonsARunningCommand : Prop :=
  ∀ (s : State) (rest : List Move), s.agenda = .hardReset :: rest → s.hazard = false →
    ∃ t, step s = .next t ∧ t.fsm = .idle ∧ t.done = false ∧ t.err = .ok ∧ t.keyValid = false ∧
      (s.fsm = .idle → t.mem = s.mem) ∧
      (∀ x, inRanges (writtenRanges s) x = false → t.mem.load x = s.mem.load x)

/-- Two buffer memories in canonical form that have the same size and read alike at every address are the same data: the
form this model holds memory in (log 2). -/
def Obligations.CanonicalMemoryIsDeterminedByItsBytes : Prop :=
  ∀ m m' : Memory, m.wf = true → m'.wf = true → m.size = m'.size → (∀ x, m.load x = m'.load x) → m = m'

/-! ## Invariants -/

/-- The invariant holds after reset (R36). The size of the reset memory is the model's choice (log 1). -/
def Obligations.InvariantHoldsAtReset : Prop := State.reset.Inv

/-- Every step, of the host or of the engine, whole commands or single steps of the state machine, keeps the invariant:
the memory's canonical form, legal NK and NR, DONE and ERR 0 while busy, checks passed before a micro-program runs,
counters in range (R17, R18, R21, R41, R208, R213). No step changes MEM_SIZE (R41; log 1). -/
def Obligations.EveryStepKeepsTheInvariant : Prop :=
  (∀ s t : State, s.Inv → step s = .next t → t.Inv) ∧ (∀ s t : State, step s = .next t → t.mem.size = s.mem.size)

/-! ## Field arithmetic and tables -/

/-- R205: `NOP` completes with code 0 and changes nothing else; a word with OP 0 and ARG or RSV not 0 is illegal; after
reset `NOP` leaves STATUS 0x00000002. -/
def Obligations.NopOnlyCompletes : Prop :=
  decode 0x00000000#32 = .command .nop ∧
  (∀ w : Word, w.toNat % 256 = 0 → w ≠ 0 → ∃ y, decode w = .illegal y) ∧
  (∀ s : State, exec .nop s = .next { s with err := .ok, done := true, fsm := .idle }) ∧
  ∃ t, exec .nop (accept 0 State.reset) = .next t ∧ regValue .status t = 0x00000002#32

/-- R105: `GF_MUL` stores the field product of `L.OPA` and `L.OPB` in RES and nothing else; its corner cases. -/
def Obligations.GfMulStoresTheProduct : Prop :=
  decode 0x00000040#32 = .command .gfMul ∧
  (∀ s : State, ∃ t, exec .gfMul s = .next t ∧
    t = { s with res := gfMult s.lat.opA s.lat.opB, err := .ok, done := true, fsm := .idle } ∧
    regValue .res t = (gfMult s.lat.opA s.lat.opB).setWidth 32) ∧
  (∀ a : Byte, gfMult 0 a = 0 ∧ gfMult a 0 = 0 ∧ gfMult a 1 = a) ∧
  gfMult 0xFF 0xFF = 0x13 ∧ gfMult 0x57 0x83 = 0xC1

/-- The product `GF_MUL` stores is polynomial multiplication reduced modulo `x^8 + x^4 + x^3 + x + 1` (R100), not only
the shift-and-add loop of R102. -/
def Obligations.GfMulIsPolynomialMultiplication : Prop :=
  ∀ s : State, ∃ t, exec .gfMul s = .next t ∧ t.res = polyRemainder (polyProduct s.lat.opA s.lat.opB) ∧ t.err = .ok

/-- R106: `GF_DOUBLE` stores twice `L.OPA`: shifted left, 0x1B added when the high bit was set, always equal to the
product with 0x02; nothing else changes and `OPB` is not read. -/
def Obligations.GfDoubleIsTheProductWithTwo : Prop :=
  decode 0x00000041#32 = .command .gfDouble ∧
  (∀ s : State, ∃ t, exec .gfDouble s = .next t ∧
    t = { s with res := t.res, err := .ok, done := true, fsm := .idle } ∧
    t.res = (if s.lat.opA.getLsbD 7 then (s.lat.opA <<< 1) ^^^ 0x1B else s.lat.opA <<< 1) ∧
    t.res = gfMult s.lat.opA 0x02) ∧
  gfDouble 0x57 = 0xAE ∧ gfDouble 0x80 = 0x1B ∧ gfDouble 0xFF = 0xE5 ∧ gfDouble 0x7F = 0xFE ∧ gfDouble 0x00 = 0x00

/-- R104: `gf_mult` is commutative and associative, distributes over XOR, has identity 0x01 and absorbing element 0x00,
and every nonzero byte has a unique inverse. -/
def Obligations.FieldLaws : Prop :=
  (∀ a b : Byte, gfMult a b = gfMult b a) ∧
  (∀ a b c : Byte, gfMult (gfMult a b) c = gfMult a (gfMult b c)) ∧
  (∀ a b c : Byte, gfMult a (b ^^^ c) = gfMult a b ^^^ gfMult a c) ∧
  (∀ a : Byte, gfMult 0x01 a = a ∧ gfMult 0x00 a = 0x00) ∧
  (∀ a : Byte, a ≠ 0 → ∃ b, gfMult a b = 0x01 ∧ ∀ c, gfMult a c = 0x01 → c = b)

/-- R103: below 0x20 the full multiplier agrees with the five-bit one, and above it differs in general; every multiplier
constant of the round pipeline is below 0x20. -/
def Obligations.FullMultiplierAgreesWithFiveBits : Prop :=
  (∀ a b : Byte, b.toNat < 0x20 → gfMult a b = gfMultLoop 5 0 a b 0) ∧
  gfMult 0x57 0x83 = 0xC1 ∧ gfMultLoop 5 0 0x57 0x83 0 = 0xF9 ∧ gfMult 0x57 0x03 = 0xF9 ∧
  (∀ row ∈ mixMatrix ++ invMixMatrix, ∀ c ∈ row, c.toNat < 0x20)

/-- R114 and R115: `SBOX` and `INV_SBOX` store the table entry of `L.OPA` in RES and nothing else; their corner
cases. -/
def Obligations.SboxCommandsStoreTheTableEntry : Prop :=
  decode 0x00000042#32 = .command .sbox ∧ decode 0x00000043#32 = .command .invSbox ∧
  (∀ s : State,
    (∃ t, exec .sbox s = .next t ∧
      t = { s with res := sboxAt s.lat.opA, err := .ok, done := true, fsm := .idle } ∧
      regValue .res t = (sboxAt s.lat.opA).setWidth 32) ∧
    (∃ t, exec .invSbox s = .next t ∧
      t = { s with res := invSboxAt s.lat.opA, err := .ok, done := true, fsm := .idle } ∧
      regValue .res t = (invSboxAt s.lat.opA).setWidth 32)) ∧
  sboxAt 0x00 = 0x63 ∧ sboxAt 0xFF = 0x16 ∧ sboxAt 0x53 = 0xED ∧
  invSboxAt 0x00 = 0x52 ∧ invSboxAt 0x63 = 0x00 ∧ invSboxAt 0xED = 0x53 ∧
  (∀ x : Byte, invSboxAt (sboxAt x) = x)

/-- R112: the two tables are inverse bijections; no byte is a fixed point of `SBOX` and none maps to its complement. -/
def Obligations.SubstitutionTablesAreInverse : Prop :=
  ∀ x : Byte, invSboxAt (sboxAt x) = x ∧ sboxAt (invSboxAt x) = x ∧ sboxAt x ≠ x ∧ sboxAt x ≠ x ^^^ 0xFF

/-- R113: every table entry is the affine map of the field inverse, with the inverse of 0 taken as 0. -/
def Obligations.SboxIsTheAffineMapOfTheInverse : Prop :=
  sboxAt 0 = sboxAffine 0 ∧ (∀ x y : Byte, gfMult x y = 1 → sboxAt x = sboxAffine y)

/-- R120: the round constants, their first sixteen values and their period of 51. -/
def Obligations.RoundConstants : Prop :=
  rcon 0 = 0x8D ∧ (∀ j, rcon (j + 1) = gfDouble (rcon j)) ∧
  (List.range 16).map rcon = [0x8D, 0x01, 0x02, 0x04, 0x08, 0x10, 0x20, 0x40, 0x80, 0x1B, 0x36, 0x6C, 0xD8, 0xAB,
    0x4D, 0x9A] ∧
  (∀ j, 1 ≤ j → rcon (j + 51) = rcon j) ∧ rcon 52 = 0x01 ∧ rcon 51 = 0x8D ∧ rcon 255 = 0x8D

/-! ## The key schedule -/

/-- R126: the three outcomes of `KEY_EXPAND`, in its error order, and all that each changes; the key is not needed
before; no byte of memory changes. -/
def Obligations.KeyExpandOutcomes : Prop :=
  decode 0x00000001#32 = .command .keyExpand ∧
  ∀ s : State,
    (s.lat.keyLen.toNat ∉ [16, 24, 32] →
      exec .keyExpand s = .next { s with
        keyValid := false, nk := 0, nr := 0, err := .invalidKeyLength, done := true, fsm := .idle }) ∧
    (s.lat.keyLen.toNat ∈ [16, 24, 32] → s.mem.size < s.lat.keyAddr.toNat + s.lat.keyLen.toNat →
      exec .keyExpand s = .next { s with
        keyValid := false, nk := 0, nr := 0, err := .badAddress, done := true, fsm := .idle }) ∧
    (s.lat.keyLen.toNat ∈ [16, 24, 32] → s.lat.keyAddr.toNat + s.lat.keyLen.toNat ≤ s.mem.size →
      ∃ t, exec .keyExpand s = .next t ∧
        t = { s with
          w := expandKey s.mem s.lat.keyAddr.toNat s.lat.keyLen.toNat s.w
          nk := t.nk, nr := t.nr, keyValid := true, err := .ok, done := true, fsm := .idle } ∧
        4 * t.nk.toNat = s.lat.keyLen.toNat ∧ t.nr.toNat = t.nk.toNat + 6)

/-- R123: the schedule a successful `KEY_EXPAND` leaves satisfies the recurrence, word by word, with `temp` as the rule
gives it. Nothing is said of the words from `4*(Nr+1)` on, which no command reads. -/
def Obligations.KeyExpandScheduleRecurrence : Prop :=
  ∀ (s : State) (nk nr : Nat), (nk, nr) ∈ [(4, 10), (6, 12), (8, 14)] → s.lat.keyLen.toNat = 4 * nk →
    s.lat.keyAddr.toNat + 4 * nk ≤ s.mem.size →
    ∃ t, exec .keyExpand s = .next t ∧ t.nk.toNat = nk ∧ t.nr.toNat = nr ∧
      (∀ (j : Nat) (k : Fin 4), j < nk → (keyWord t.w j)[k] = s.mem.load (s.lat.keyAddr.toNat + (4 * j + k.val))) ∧
      (∀ i, nk ≤ i → i < 4 * (nr + 1) →
        keyWord t.w i = keyWordXor (keyWord t.w (i - nk))
          (if i % nk = 0 then keyWordXor (subWord (rotWord (keyWord t.w (i - 1)))) #v[rcon (i / nk), 0, 0, 0]
           else if nk > 6 ∧ i % nk = 4 then subWord (keyWord t.w (i - 1))
           else keyWord t.w (i - 1)))

/-- R127: only `KEY_EXPAND` writes W, NK and NR: no other command, no transform and no host access changes them, or
KEY_VALID, whether a `KEY_EXPAND` has completed or is running. Reset and power-on, which are no host access, give them
their reset values. -/
def Obligations.OnlyKeyExpandWritesTheSchedule : Prop :=
  (∀ (i : Instr) (s t : State), i ≠ .keyExpand → exec i s = .next t →
    t.w = s.w ∧ t.nk = s.nk ∧ t.nr = s.nr ∧ t.keyValid = s.keyValid) ∧
  (∀ s t : State, step s = .next t →
    s.fsm = .idle ∨ decode s.lat.cmd ≠ .command .keyExpand ∨ s.agenda.head?.any isHostAccess = true →
    s.agenda.head? ≠ some .hardReset → s.agenda.head? ≠ some .powerCycle →
    t.w = s.w ∧ t.nk = s.nk ∧ t.nr = s.nr ∧ t.keyValid = s.keyValid)

/-! ## The round pipeline -/

/-- R151: `STATE_LOAD` loads the 16 bytes at `SRC_ADDR`, `S[i] = mem[SRC_ADDR + i]`, or ends with `BadAddress` and `S`
unchanged; nothing else changes. -/
def Obligations.StateLoadReadsSixteenBytes : Prop :=
  decode 0x00000010#32 = .command .stateLoad ∧
  ∀ s : State,
    (s.mem.size < s.lat.srcAddr.toNat + 16 → exec .stateLoad s = .next (onlyStatus .badAddress s)) ∧
    (s.lat.srcAddr.toNat + 16 ≤ s.mem.size → ∃ t, exec .stateLoad s = .next t ∧
      t = { s with sreg := t.sreg, err := .ok, done := true, fsm := .idle } ∧
      ∀ i : Fin 16, t.sreg[i] = s.mem.load (s.lat.srcAddr.toNat + i.val))

/-- R152: `STATE_STORE` writes `S` to the 16 bytes at `DST_ADDR` and no other byte, or ends with `BadAddress` and no
byte written; nothing else changes. -/
def Obligations.StateStoreWritesSixteenBytes : Prop :=
  decode 0x00000011#32 = .command .stateStore ∧
  ∀ s : State,
    (s.mem.size < s.lat.dstAddr.toNat + 16 → exec .stateStore s = .next (onlyStatus .badAddress s)) ∧
    (s.lat.dstAddr.toNat + 16 ≤ s.mem.size → s.mem.wf = true → ∃ t, exec .stateStore s = .next t ∧
      t = { s with mem := t.mem, err := .ok, done := true, fsm := .idle } ∧
      BytesWritten s.mem t.mem s.lat.dstAddr.toNat s.sreg.toList ∧
      (∀ i : Fin 16, t.mem.load (s.lat.dstAddr.toNat + i.val) = s.sreg[i]) ∧
      memKeptOutside s t s.lat.dstAddr.toNat 16)

/-- R153 to R158: each single transform replaces `S` byte by byte as its rule says, and changes nothing else. -/
def Obligations.SingleTransformsReplaceS : Prop :=
  (decode 0x00000012#32 = .command .subBytes ∧ decode 0x00000013#32 = .command .invSubBytes ∧
   decode 0x00000014#32 = .command .shiftRows ∧ decode 0x00000015#32 = .command .invShiftRows ∧
   decode 0x00000016#32 = .command .mixColumns ∧ decode 0x00000017#32 = .command .invMixColumns) ∧
  ∀ s : State,
    (∃ t, exec .subBytes s = .next t ∧ t = { s with sreg := t.sreg, err := .ok, done := true, fsm := .idle } ∧
      ∀ i : Fin 16, t.sreg[i] = sboxAt s.sreg[i]) ∧
    (∃ t, exec .invSubBytes s = .next t ∧ t = { s with sreg := t.sreg, err := .ok, done := true, fsm := .idle } ∧
      ∀ i : Fin 16, t.sreg[i] = invSboxAt s.sreg[i]) ∧
    (∃ t, exec .shiftRows s = .next t ∧ t = { s with sreg := t.sreg, err := .ok, done := true, fsm := .idle } ∧
      ∀ c r : Fin 4, cell t.sreg c.val r.val = cell s.sreg ((c.val + r.val) % 4) r.val) ∧
    (∃ t, exec .invShiftRows s = .next t ∧ t = { s with sreg := t.sreg, err := .ok, done := true, fsm := .idle } ∧
      ∀ c r : Fin 4, cell t.sreg ((c.val + r.val) % 4) r.val = cell s.sreg c.val r.val) ∧
    (∃ t, exec .mixColumns s = .next t ∧ t = { s with sreg := t.sreg, err := .ok, done := true, fsm := .idle } ∧
      ∀ c : Fin 4,
        cell t.sreg c.val 0 = gfMult 2 (cell s.sreg c.val 0) ^^^ gfMult 3 (cell s.sreg c.val 1) ^^^
          cell s.sreg c.val 2 ^^^ cell s.sreg c.val 3 ∧
        cell t.sreg c.val 1 = cell s.sreg c.val 0 ^^^ gfMult 2 (cell s.sreg c.val 1) ^^^
          gfMult 3 (cell s.sreg c.val 2) ^^^ cell s.sreg c.val 3 ∧
        cell t.sreg c.val 2 = cell s.sreg c.val 0 ^^^ cell s.sreg c.val 1 ^^^ gfMult 2 (cell s.sreg c.val 2) ^^^
          gfMult 3 (cell s.sreg c.val 3) ∧
        cell t.sreg c.val 3 = gfMult 3 (cell s.sreg c.val 0) ^^^ cell s.sreg c.val 1 ^^^ cell s.sreg c.val 2 ^^^
          gfMult 2 (cell s.sreg c.val 3)) ∧
    (∃ t, exec .invMixColumns s = .next t ∧ t = { s with sreg := t.sreg, err := .ok, done := true, fsm := .idle } ∧
      ∀ c : Fin 4,
        cell t.sreg c.val 0 = gfMult 14 (cell s.sreg c.val 0) ^^^ gfMult 11 (cell s.sreg c.val 1) ^^^
          gfMult 13 (cell s.sreg c.val 2) ^^^ gfMult 9 (cell s.sreg c.val 3) ∧
        cell t.sreg c.val 1 = gfMult 9 (cell s.sreg c.val 0) ^^^ gfMult 14 (cell s.sreg c.val 1) ^^^
          gfMult 11 (cell s.sreg c.val 2) ^^^ gfMult 13 (cell s.sreg c.val 3) ∧
        cell t.sreg c.val 2 = gfMult 13 (cell s.sreg c.val 0) ^^^ gfMult 9 (cell s.sreg c.val 1) ^^^
          gfMult 14 (cell s.sreg c.val 2) ^^^ gfMult 11 (cell s.sreg c.val 3) ∧
        cell t.sreg c.val 3 = gfMult 11 (cell s.sreg c.val 0) ^^^ gfMult 13 (cell s.sreg c.val 1) ^^^
          gfMult 9 (cell s.sreg c.val 2) ^^^ gfMult 14 (cell s.sreg c.val 3))

/-- R147: each inverse transform undoes its transform, in both orders, `addRoundKey` undoes itself, and the byte
substitutions commute with the row shifts. -/
def Obligations.TransformsAreInversePairs : Prop :=
  ∀ (b : Block) (w : Schedule) (r : Nat),
    invSubBytes (subBytes b) = b ∧ subBytes (invSubBytes b) = b ∧
    invShiftRows (shiftRows b) = b ∧ shiftRows (invShiftRows b) = b ∧
    invMixColumns (mixColumns b) = b ∧ mixColumns (invMixColumns b) = b ∧
    addRoundKey w r (addRoundKey w r b) = b ∧
    subBytes (shiftRows b) = shiftRows (subBytes b) ∧
    invSubBytes (invShiftRows b) = invShiftRows (invSubBytes b)

/-- R159: the three outcomes of `ADD_ROUND_KEY`, in error order; with a key and `ARG <= NR` it XORs `W[4*ARG + c][k]`
into `S[4*c + k]` and changes nothing else. -/
def Obligations.AddRoundKeyXorsOneSlice : Prop :=
  (∀ r : Nat, r < 16 → decode (0x00000018#32 ||| (BitVec.ofNat 32 r <<< 8)) = .command (.addRoundKey r)) ∧
  ∀ (s : State) (r : Nat),
    (s.keyValid = false → exec (.addRoundKey r) s = .next (onlyStatus .keyNotLoaded s)) ∧
    (s.keyValid = true → s.nr.toNat < r → exec (.addRoundKey r) s = .next (onlyStatus .illegalCommand s)) ∧
    (s.keyValid = true → r ≤ s.nr.toNat → ∃ t, exec (.addRoundKey r) s = .next t ∧
      t = { s with sreg := t.sreg, err := .ok, done := true, fsm := .idle } ∧
      ∀ c k : Fin 4, cell t.sreg c.val k.val = cell s.sreg c.val k.val ^^^ (keyWord s.w (4 * r + c.val))[k])

/-- R148 and R149: `Cipher` and `InvCipher` apply the round steps in the order the rules give. -/
def Obligations.CipherAppliesItsRoundsInOrder : Prop :=
  ∀ (w : Schedule) (nr : Nat) (b : Block), 1 ≤ nr →
    cipher w nr b = cipherByRounds w nr b ∧ invCipher w nr b = invCipherByRounds w nr b

/-- R160 and R161: `CIPHER_BLOCK` and `INV_CIPHER_BLOCK` replace `S` by `Cipher(S)` and `InvCipher(S)` under the loaded
key and change nothing else; without a key they end with `KeyNotLoaded`; each undoes the other under the same key. -/
def Obligations.CipherBlockCommands : Prop :=
  decode 0x00000020#32 = .command .cipherBlock ∧ decode 0x00000021#32 = .command .invCipherBlock ∧
  ∀ s : State,
    (s.keyValid = false → exec .cipherBlock s = .next (onlyStatus .keyNotLoaded s) ∧
      exec .invCipherBlock s = .next (onlyStatus .keyNotLoaded s)) ∧
    (s.keyValid = true → ∃ t u,
      exec .cipherBlock s = .next t ∧
      t = { s with sreg := cipher s.w s.nr.toNat s.sreg, err := .ok, done := true, fsm := .idle } ∧
      exec .invCipherBlock s = .next u ∧
      u = { s with sreg := invCipher s.w s.nr.toNat s.sreg, err := .ok, done := true, fsm := .idle } ∧
      (∃ t', exec .invCipherBlock t = .next t' ∧ t'.sreg = s.sreg) ∧
      (∃ u', exec .cipherBlock u = .next u' ∧ u'.sreg = s.sreg))

/-- R150: `InvCipher(Cipher(s)) = s` and `Cipher(InvCipher(s)) = s`, for every State and every schedule. -/
def Obligations.InvCipherUndoesCipher : Prop :=
  ∀ (w : Schedule) (nr : Nat) (b : Block), invCipher w nr (cipher w nr b) = b ∧ cipher w nr (invCipher w nr b) = b

/-! ## The block modes -/

/-- R184: `ECB_ENC`, its errors in order and its run for any overlap of source and destination: block `i` of the padded
message is read from the memory as it is after the output blocks before it, encrypted, and written; nothing else
changes. -/
def Obligations.EcbEncRuns : Prop :=
  decode 0x00000030#32 = .command .ecbEnc ∧
  ∀ (s : State) (n src dst N : Nat), n = s.lat.srcLen.toNat → src = s.lat.srcAddr.toNat → dst = s.lat.dstAddr.toNat →
    N = n / 16 + 1 →
    (s.keyValid = false → exec .ecbEnc s = .next (onlyStatus .keyNotLoaded { s with outLen := 0 })) ∧
    (s.keyValid = true → ¬(rangeFits s src n ∧ rangeFits s dst (16 * N)) →
      exec .ecbEnc s = .next (onlyStatus .badAddress { s with outLen := 0 })) ∧
    (s.keyValid = true → rangeFits s src n → rangeFits s dst (16 * N) → s.mem.wf = true →
      ∃ (t : State) (m : Nat → Memory), exec .ecbEnc s = .next t ∧ m 0 = s.mem ∧
        (∀ i, i < N → BytesWritten (m i) (m (i + 1)) (dst + 16 * i)
          (cipher s.w s.nr.toNat (paddedBlock (m i) src n i)).toList) ∧
        t = { s with
          mem := m N, sreg := cipher s.w s.nr.toNat (paddedBlock (m (N - 1)) src n (N - 1)),
          outLen := t.outLen, err := .ok, done := true, fsm := .idle } ∧
        (s.mem.size ≤ Config.maxMemSize → t.outLen.toNat = 16 * N) ∧ memKeptOutside s t dst (16 * N))

/-- R186: `CBC_ENC`, its errors in order and its run for any overlap: the chain starts from the IV and each output block
is the next chaining value. -/
def Obligations.CbcEncRuns : Prop :=
  decode 0x00000032#32 = .command .cbcEnc ∧
  ∀ (s : State) (n src dst iv N : Nat), n = s.lat.srcLen.toNat → src = s.lat.srcAddr.toNat →
    dst = s.lat.dstAddr.toNat → iv = s.lat.ivAddr.toNat → N = n / 16 + 1 →
    (s.keyValid = false → exec .cbcEnc s = .next (onlyStatus .keyNotLoaded { s with outLen := 0 })) ∧
    (s.keyValid = true → s.lat.ivLen.toNat ≠ 16 →
      exec .cbcEnc s = .next (onlyStatus .missingOrBadIV { s with outLen := 0 })) ∧
    (s.keyValid = true → s.lat.ivLen.toNat = 16 →
      ¬(rangeFits s iv 16 ∧ rangeFits s src n ∧ rangeFits s dst (16 * N)) →
      exec .cbcEnc s = .next (onlyStatus .badAddress { s with outLen := 0 })) ∧
    (s.keyValid = true → s.lat.ivLen.toNat = 16 → rangeFits s iv 16 → rangeFits s src n →
      rangeFits s dst (16 * N) → s.mem.wf = true →
      ∃ (t : State) (m : Nat → Memory) (c : Nat → Block), exec .cbcEnc s = .next t ∧ m 0 = s.mem ∧
        (∀ i, i < N →
          c i = cipher s.w s.nr.toNat
            (blockXor (paddedBlock (m i) src n i) (if i = 0 then s.mem.loadBlock iv else c (i - 1))) ∧
          BytesWritten (m i) (m (i + 1)) (dst + 16 * i) (c i).toList) ∧
        t = { s with
          mem := m N, sreg := c (N - 1), prev := c (N - 1), outLen := t.outLen,
          err := .ok, done := true, fsm := .idle } ∧
        (s.mem.size ≤ Config.maxMemSize → t.outLen.toNat = 16 * N) ∧ memKeptOutside s t dst (16 * N))

/-- R185: `ECB_DEC`: its errors in order; the final block is decrypted and its padding checked before any write; the
other blocks are then decrypted in order, and only the unpadded bytes of the final block are written. -/
def Obligations.EcbDecRuns : Prop :=
  decode 0x00000031#32 = .command .ecbDec ∧
  ∀ (s : State) (n src dst N : Nat) (h : Block), n = s.lat.srcLen.toNat → src = s.lat.srcAddr.toNat →
    dst = s.lat.dstAddr.toNat → N = n / 16 →
    h = invCipher s.w s.nr.toNat (s.mem.loadBlock (src + 16 * (N - 1))) →
    (s.keyValid = false → exec .ecbDec s = .next (onlyStatus .keyNotLoaded { s with outLen := 0 })) ∧
    (s.keyValid = true → (n = 0 ∨ n % 16 ≠ 0) →
      exec .ecbDec s = .next (onlyStatus .badCiphertextLength { s with outLen := 0 })) ∧
    (s.keyValid = true → n ≠ 0 → n % 16 = 0 → ¬(rangeFits s src n ∧ rangeFits s dst n) →
      exec .ecbDec s = .next (onlyStatus .badAddress { s with outLen := 0 })) ∧
    (s.keyValid = true → n ≠ 0 → n % 16 = 0 → rangeFits s src n → rangeFits s dst n → ¬goodPadding h →
      exec .ecbDec s = .next (onlyStatus .badPadding { s with outLen := 0, sreg := h, hold := h })) ∧
    (s.keyValid = true → n ≠ 0 → n % 16 = 0 → rangeFits s src n → rangeFits s dst n → goodPadding h →
      s.mem.wf = true →
      ∃ (t : State) (m : Nat → Memory), exec .ecbDec s = .next t ∧ m 0 = s.mem ∧
        (∀ i, i + 1 < N → BytesWritten (m i) (m (i + 1)) (dst + 16 * i)
          (invCipher s.w s.nr.toNat ((m i).loadBlock (src + 16 * i))).toList) ∧
        BytesWritten (m (N - 1)) t.mem (dst + 16 * (N - 1)) (h.toList.take (16 - h[15].toNat)) ∧
        t = { s with
          mem := t.mem, sreg := h, hold := h, outLen := t.outLen, err := .ok, done := true, fsm := .idle } ∧
        t.outLen.toNat = n - h[15].toNat ∧ memKeptOutside s t dst (n - h[15].toNat))

/-- R187: `CBC_DEC`: its errors in order; the final block is decrypted and unchained and its padding checked before any
write; the chain is taken from the ciphertext as it was read. -/
def Obligations.CbcDecRuns : Prop :=
  decode 0x00000033#32 = .command .cbcDec ∧
  ∀ (s : State) (n src dst iv N : Nat) (h : Block), n = s.lat.srcLen.toNat → src = s.lat.srcAddr.toNat →
    dst = s.lat.dstAddr.toNat → iv = s.lat.ivAddr.toNat → N = n / 16 →
    h = blockXor (invCipher s.w s.nr.toNat (s.mem.loadBlock (src + 16 * (N - 1))))
      (if N = 1 then s.mem.loadBlock iv else s.mem.loadBlock (src + 16 * (N - 2))) →
    (s.keyValid = false → exec .cbcDec s = .next (onlyStatus .keyNotLoaded { s with outLen := 0 })) ∧
    (s.keyValid = true → (n = 0 ∨ n % 16 ≠ 0) →
      exec .cbcDec s = .next (onlyStatus .badCiphertextLength { s with outLen := 0 })) ∧
    (s.keyValid = true → n ≠ 0 → n % 16 = 0 → s.lat.ivLen.toNat ≠ 16 →
      exec .cbcDec s = .next (onlyStatus .missingOrBadIV { s with outLen := 0 })) ∧
    (s.keyValid = true → n ≠ 0 → n % 16 = 0 → s.lat.ivLen.toNat = 16 →
      ¬(rangeFits s iv 16 ∧ rangeFits s src n ∧ rangeFits s dst n) →
      exec .cbcDec s = .next (onlyStatus .badAddress { s with outLen := 0 })) ∧
    (s.keyValid = true → n ≠ 0 → n % 16 = 0 → s.lat.ivLen.toNat = 16 → rangeFits s iv 16 → rangeFits s src n →
      rangeFits s dst n → ¬goodPadding h →
      exec .cbcDec s = .next (onlyStatus .badPadding { s with outLen := 0, sreg := h, hold := h })) ∧
    (s.keyValid = true → n ≠ 0 → n % 16 = 0 → s.lat.ivLen.toNat = 16 → rangeFits s iv 16 → rangeFits s src n →
      rangeFits s dst n → goodPadding h → s.mem.wf = true →
      ∃ (t : State) (m : Nat → Memory), exec .cbcDec s = .next t ∧ m 0 = s.mem ∧
        (∀ i, i + 1 < N → BytesWritten (m i) (m (i + 1)) (dst + 16 * i)
          (blockXor (invCipher s.w s.nr.toNat ((m i).loadBlock (src + 16 * i)))
            (if i = 0 then s.mem.loadBlock iv else (m (i - 1)).loadBlock (src + 16 * (i - 1)))).toList) ∧
        BytesWritten (m (N - 1)) t.mem (dst + 16 * (N - 1)) (h.toList.take (16 - h[15].toNat)) ∧
        t = { s with
          mem := t.mem, sreg := h, hold := h, prev := s.mem.loadBlock (src + 16 * (N - 1)), outLen := t.outLen,
          err := .ok, done := true, fsm := .idle } ∧
        t.outLen.toNat = n - h[15].toNat ∧ memKeptOutside s t dst (n - h[15].toNat))

/-- Where writing does not overtake reading (R192), in place included, the ciphertext an encryption leaves at the
destination is `Cipher` of the blocks of the padded message as it was, chained from the IV for CBC (R184, R186). -/
def Obligations.CiphertextIsTheCipherOfThePaddedMessage : Prop :=
  ∀ (s : State) (n src dst : Nat), n = s.lat.srcLen.toNat → src = s.lat.srcAddr.toNat → dst = s.lat.dstAddr.toNat →
    s.mem.wf = true → noOverrun src n dst →
    (checkEcbEnc s = .ok → ∃ t, exec .ecbEnc s = .next t ∧ t.err = .ok ∧
      ∀ i, i < n / 16 + 1 →
        t.mem.loadBlock (dst + 16 * i) = cipher s.w s.nr.toNat (paddedBlock s.mem src n i)) ∧
    (checkCbcEnc s = .ok → ∃ t, exec .cbcEnc s = .next t ∧ t.err = .ok ∧
      ∀ i, i < n / 16 + 1 →
        t.mem.loadBlock (dst + 16 * i) = cipher s.w s.nr.toNat (blockXor (paddedBlock s.mem src n i)
          (if i = 0 then s.mem.loadBlock s.lat.ivAddr.toNat else t.mem.loadBlock (dst + 16 * (i - 1)))))

/-- R191 for ECB: decrypting what `ECB_ENC` wrote, to any destination that does not overrun it, gives back the message
and its length with no error. -/
def Obligations.EcbRoundTrip : Prop :=
  ∀ (s : State) (n src dst back : Nat), n = s.lat.srcLen.toNat → src = s.lat.srcAddr.toNat →
    dst = s.lat.dstAddr.toNat → s.mem.wf = true → s.mem.size ≤ Config.maxMemSize → checkEcbEnc s = .ok →
    noOverrun src n dst → noOverrun dst (16 * (n / 16 + 1)) back → back + 16 * (n / 16 + 1) ≤ s.mem.size →
    ∃ t u, exec .ecbEnc s = .next t ∧
      exec .ecbDec { t with lat := { t.lat with
        srcAddr := s.lat.dstAddr, srcLen := t.outLen, dstAddr := BitVec.ofNat 32 back } } = .next u ∧
      u.err = .ok ∧ u.outLen.toNat = n ∧ ∀ k, k < n → u.mem.load (back + k) = s.mem.load (src + k)

/-- R191 for CBC: the same under the same IV, which the encryption must not have overwritten. -/
def Obligations.CbcRoundTrip : Prop :=
  ∀ (s : State) (n src dst iv back : Nat), n = s.lat.srcLen.toNat → src = s.lat.srcAddr.toNat →
    dst = s.lat.dstAddr.toNat → iv = s.lat.ivAddr.toNat → s.mem.wf = true → s.mem.size ≤ Config.maxMemSize →
    checkCbcEnc s = .ok → noOverrun src n dst → noOverrun dst (16 * (n / 16 + 1)) back →
    back + 16 * (n / 16 + 1) ≤ s.mem.size → (iv + 16 ≤ dst ∨ dst + 16 * (n / 16 + 1) ≤ iv) →
    ∃ t u, exec .cbcEnc s = .next t ∧
      exec .cbcDec { t with lat := { t.lat with
        srcAddr := s.lat.dstAddr, srcLen := t.outLen, dstAddr := BitVec.ofNat 32 back } } = .next u ∧
      u.err = .ok ∧ u.outLen.toNat = n ∧ ∀ k, k < n → u.mem.load (back + k) = s.mem.load (src + k)

/-- R190: under one key, equal plaintext blocks at any two positions of any two ECB messages give equal ciphertext
blocks. -/
def Obligations.EcbEqualBlocksGiveEqualCiphertext : Prop :=
  ∀ (s s' : State) (i i' : Nat), s.w = s'.w → s.nr = s'.nr →
    (∀ x ∈ [s, s'], x.mem.wf = true ∧ checkEcbEnc x = .ok ∧ noOverrun x.srcBase x.srcBytes x.dstBase) →
    i < encBlocks s.srcBytes → i' < encBlocks s'.srcBytes →
    paddedBlock s.mem s.srcBase s.srcBytes i = paddedBlock s'.mem s'.srcBase s'.srcBytes i' →
    ∃ t t', exec .ecbEnc s = .next t ∧ exec .ecbEnc s' = .next t' ∧
      t.mem.loadBlock (s.dstBase + 16 * i) = t'.mem.loadBlock (s'.dstBase + 16 * i')

/-- R193: two CBC encryptions under one key and IV of messages of equal length that differ in plaintext block `i` alone
agree on every ciphertext block before `i` and differ in every block from `i` on. -/
def Obligations.CbcDiffusion : Prop :=
  ∀ (s s' : State) (n i : Nat), n = s.srcBytes → s'.srcBytes = n → s.w = s'.w → s.nr = s'.nr →
    s.mem.loadBlock s.ivBase = s'.mem.loadBlock s'.ivBase →
    (∀ x ∈ [s, s'], x.mem.wf = true ∧ checkCbcEnc x = .ok ∧ noOverrun x.srcBase x.srcBytes x.dstBase) →
    (∀ k, k < n → k / 16 ≠ i → s.mem.load (s.srcBase + k) = s'.mem.load (s'.srcBase + k)) →
    (∃ k, k < n ∧ k / 16 = i ∧ s.mem.load (s.srcBase + k) ≠ s'.mem.load (s'.srcBase + k)) →
    ∃ t t', exec .cbcEnc s = .next t ∧ exec .cbcEnc s' = .next t' ∧
      (∀ j, j < i → t.mem.loadBlock (s.dstBase + 16 * j) = t'.mem.loadBlock (s'.dstBase + 16 * j)) ∧
      (∀ j, i ≤ j → j < encBlocks n →
        t.mem.loadBlock (s.dstBase + 16 * j) ≠ t'.mem.loadBlock (s'.dstBase + 16 * j))

/-! ## Errors and whole-machine rules -/

/-- R240: with several errors applying to one command, the first in the order of the rule is the one reported. -/
def Obligations.ErrorsAreReportedInPriorityOrder : Prop :=
  (∀ (s : State) (y : Illegal), s.agenda = [] → s.fsm = .check → decode s.lat.cmd = .illegal y →
    ∃ t, step s = .next t ∧ t.err = .illegalCommand) ∧
  ∀ (i : Instr) (s : State) (n src dst : Nat), n = s.lat.srcLen.toNat → src = s.lat.srcAddr.toNat →
    dst = s.lat.dstAddr.toNat →
    ∃ t, exec i s = .next t ∧ t.err =
      match i with
      | .keyExpand =>
        if s.lat.keyLen.toNat ∉ [16, 24, 32] then .invalidKeyLength
        else if ¬rangeFits s s.lat.keyAddr.toNat s.lat.keyLen.toNat then .badAddress else .ok
      | .stateLoad => if ¬rangeFits s src 16 then .badAddress else .ok
      | .stateStore => if ¬rangeFits s dst 16 then .badAddress else .ok
      | .addRoundKey r =>
        if s.keyValid = false then .keyNotLoaded else if s.nr.toNat < r then .illegalCommand else .ok
      | .cipherBlock => if s.keyValid = false then .keyNotLoaded else .ok
      | .invCipherBlock => if s.keyValid = false then .keyNotLoaded else .ok
      | .ecbEnc =>
        if s.keyValid = false then .keyNotLoaded
        else if ¬rangeFits s src n then .badAddress
        else if ¬rangeFits s dst (16 * (n / 16 + 1)) then .badAddress else .ok
      | .cbcEnc =>
        if s.keyValid = false then .keyNotLoaded
        else if s.lat.ivLen.toNat ≠ 16 then .missingOrBadIV
        else if ¬rangeFits s s.lat.ivAddr.toNat 16 then .badAddress
        else if ¬rangeFits s src n then .badAddress
        else if ¬rangeFits s dst (16 * (n / 16 + 1)) then .badAddress else .ok
      | .ecbDec =>
        if s.keyValid = false then .keyNotLoaded
        else if n = 0 ∨ n % 16 ≠ 0 then .badCiphertextLength
        else if ¬rangeFits s src n then .badAddress
        else if ¬rangeFits s dst n then .badAddress
        else if padOK (ecbDecHold s) = false then .badPadding else .ok
      | .cbcDec =>
        if s.keyValid = false then .keyNotLoaded
        else if n = 0 ∨ n % 16 ≠ 0 then .badCiphertextLength
        else if s.lat.ivLen.toNat ≠ 16 then .missingOrBadIV
        else if ¬rangeFits s s.lat.ivAddr.toNat 16 then .badAddress
        else if ¬rangeFits s src n then .badAddress
        else if ¬rangeFits s dst n then .badAddress
        else if padOK (cbcDecHold s) = false then .badPadding else .ok
      | .nop | .subBytes | .invSubBytes | .shiftRows | .invShiftRows | .mixColumns | .invMixColumns | .gfMul
      | .gfDouble | .sbox | .invSbox => .ok

/-- R238: what an error leaves, for every command; a decoding `IllegalCommand` changes only STATUS. -/
def Obligations.ErrorsLeaveNoPartialOutput : Prop :=
  (∀ (s t : State) (y : Illegal), decode s.lat.cmd = .illegal y → runCommand s = .next t →
    t = { s with err := .illegalCommand, done := true, fsm := .idle }) ∧
  (∀ (i : Instr) (s t : State), exec i s = .next t → t.err ≠ .ok →
    t.mem = s.mem ∧ t.done = true ∧ t.fsm = .idle ∧ t.cmd = s.cmd ∧
    (i = .keyExpand → t.keyValid = false ∧ t.nk = 0 ∧ t.nr = 0) ∧
    (i ≠ .keyExpand → t.keyValid = s.keyValid ∧ t.nk = s.nk ∧ t.nr = s.nr) ∧
    (isMode i = true → t.outLen = 0) ∧ (isMode i = false → t.outLen = s.outLen) ∧
    (t.err ≠ .badPadding → t.sreg = s.sreg) ∧
    (t.err = .badPadding → t.sreg = t.hold ∧ padOK t.sreg = false ∧
      (i = .ecbDec ∧ t.sreg = ecbDecHold s ∨ i = .cbcDec ∧ t.sreg = cbcDecHold s)) ∧
    t.prev = s.prev ∧ t.res = s.res ∧ t.w = s.w)

/-- Every command completes, with a result or an error, from every state, and the machine faults nowhere: a step is
refused only for a register access outside R34, and otherwise answers a next state (R203, R211, R230, R273). A read of
`WAIT` ends it exactly when the engine is idle with DONE 1, and repeats it otherwise, so that it ends once the command
has completed (R66); that the engine moves between two reads is the form of the model (log 18). -/
def Obligations.EveryCommandCompletes : Prop :=
  (∀ (i : Instr) (s : State), ∃ t, exec i s = .next t ∧ t.fsm = .idle ∧ t.done = true ∧ t.cmd = s.cmd ∧
    t.lat = s.lat ∧ t.ovr = s.ovr) ∧
  (∀ s : State, (∀ width off v, s.agenda.head? ≠ some (.regWrite width off v)) →
    (∀ width off, s.agenda.head? ≠ some (.regRead width off)) →
    ∃ t, step s = .next t ∧ ((∀ n, s.agenda.head? ≠ some (.wait n)) → t.agenda = s.agenda.tail)) ∧
  (∀ (s : State) (n : Nat) (rest : List Move), s.agenda = .wait n :: rest →
    ∃ t, step s = .next t ∧ t = { s with agenda := t.agenda, regData := t.regData, draws := t.draws } ∧
      (s.fsm = .idle → s.done = true → t.agenda = rest ∧ t.regData = regValue .status s) ∧
      (s.fsm ≠ .idle ∨ s.done = false →
        t.agenda = (if n = 0 then [.engine, .wait 0] else [.wait (n - 1)]) ++ rest)) ∧
  (∀ (s : State) (rest : List Move), s.fsm = .check → s.agenda = .wait 0 :: rest →
    ∃ t u v, step s = .next t ∧ step t = .next u ∧ step u = .next v ∧ v.agenda = rest ∧ v.fsm = .idle ∧
      v.done = true ∧ v.regData = regValue .status v)

/-- R29 and R32: OUT_LEN is written only by the mode commands, the output length on success and 0 on an
error; RES only by the four byte commands, their byte result, and its bits 31:8 read 0; no host write changes either; both are 0 at reset. -/
def Obligations.ResultRegistersKeepTheirOwners : Prop :=
  (∀ (i : Instr) (s t : State), exec i s = .next t →
    (isMode i = false → t.outLen = s.outLen) ∧
    (isMode i = true → t.err ≠ .ok → t.outLen = 0) ∧
    ((i = .ecbEnc ∨ i = .cbcEnc) → t.err = .ok → s.mem.size ≤ Config.maxMemSize →
      t.outLen.toNat = 16 * (s.lat.srcLen.toNat / 16 + 1)) ∧
    ((i = .ecbDec ∨ i = .cbcDec) → t.err = .ok → t.outLen.toNat = s.lat.srcLen.toNat - t.hold[15].toNat) ∧
    (i = .gfMul → t.res = gfMult s.lat.opA s.lat.opB) ∧ (i = .gfDouble → t.res = gfDouble s.lat.opA) ∧
    (i = .sbox → t.res = sboxAt s.lat.opA) ∧ (i = .invSbox → t.res = invSboxAt s.lat.opA) ∧
    (i ∉ [Instr.gfMul, .gfDouble, .sbox, .invSbox] → t.res = s.res)) ∧
  (∀ (s : State) (r : RegName) (v : Word), (writeReg r v s).outLen = s.outLen ∧ (writeReg r v s).res = s.res) ∧
  (∀ s : State, (regValue .res s).toNat = s.res.toNat) ∧
  regValue .outLen State.reset = 0 ∧ regValue .res State.reset = 0

/-- R245: OVR is sticky until the host writes 1 to it or a reset, and it changes no command's ERR. -/
def Obligations.OvrIsSticky : Prop :=
  (∀ s t : State, s.ovr = true → step s = .next t →
    t.ovr = true ∨ s.agenda.head? = some .hardReset ∨ s.agenda.head? = some .powerCycle ∨
      ∃ v, s.agenda.head? = some (.regWrite .word 0x04 v) ∧ v.getLsbD 3 = true) ∧
  (∀ (i : Instr) (s t : State) (b : Bool), exec i s = .next t → exec i { s with ovr := b } = .next { t with ovr := b })

/-! ## The control state machine -/

/-- R206: the step-level state machine refines the atomic command: from CHECK, running it to the bound of R211 reaches
the state the atomic step gives, but for its own counters and locals. The premise is the key invariant R17 and R18
give, which every step keeps. -/
def Obligations.StateMachineRefinesTheAtomicCommand : Prop :=
  ∀ s t : State, s.fsm = .check → s.keyInv → runCommand s = .next t → sameButSequencer t (ticks (tickBound s) s)

/-- R211: every command reaches completion within the bound, whatever the operands. -/
def Obligations.StateMachineTerminates : Prop :=
  ∀ s : State, s.fsm = .check →
    (ticks (4 + 60 + (s.lat.srcLen.toNat / 16 + 2) * (3 + 15)) s).fsm = .idle ∧
    (ticks (4 + 60 + (s.lat.srcLen.toNat / 16 + 2) * (3 + 15)) s).done = true

/-- R210: `KEY_EXPAND` takes one KLOAD step and `4*(NR+1) - NK` KEXP steps, 40, 46 or 52; one block takes `NR + 1` round
steps. -/
def Obligations.StateMachineStepCounts : Prop :=
  (∀ (s : State) (nk nr count : Nat), (nk, nr, count) ∈ [(4, 10, 40), (6, 12, 46), (8, 14, 52)] →
    s.fsm = .check → decode s.lat.cmd = .command .keyExpand → s.lat.keyLen.toNat = 4 * nk →
    s.lat.keyAddr.toNat + 4 * nk ≤ s.mem.size →
    count = 4 * (nr + 1) - nk ∧ (tick s).fsm = .kload ∧ (∀ k, k < count → (ticks (2 + k) s).fsm = .kexp) ∧
    (ticks (2 + count) s).fsm = .finish) ∧
  (∀ s : State, s.fsm = .check → s.keyValid = true →
    (decode s.lat.cmd = .command .cipherBlock →
      (∀ k, k < s.nr.toNat + 1 → (ticks (1 + k) s).fsm = .encRnd ∧ (ticks (1 + k) s).rnd = k) ∧
      (ticks (1 + (s.nr.toNat + 1)) s).fsm = .finish) ∧
    (decode s.lat.cmd = .command .invCipherBlock →
      (∀ k, k < s.nr.toNat + 1 → (ticks (1 + k) s).fsm = .decRnd ∧ (ticks (1 + k) s).rnd = s.nr.toNat - k) ∧
      (ticks (1 + (s.nr.toNat + 1)) s).fsm = .finish))
end

