-- ==== Sys2Proof/Laws/Memory.lean ====
section
/-! SUPPORT. What each buffer-memory operation does: the byte it leaves at every address, the size, and that it keeps
the canonical form. -/

namespace Sys2Proof.Machine

theorem Memory.lookup_insert_ne (c : List Host.Cell) (a x : Nat) (b : Byte) (h : x ≠ a) :
    Memory.lookup (Memory.insert c a b) x = Memory.lookup c x := by
  induction c with
  | nil => simp only [Memory.insert]; split <;> simp [Memory.lookup, h.symm]
  | cons hd tl ih =>
    obtain ⟨k, v⟩ := hd
    simp only [Memory.insert]
    split
    · split <;> simp [Memory.lookup, h.symm]
    · split
      · next hk => subst hk; split <;> simp [Memory.lookup, h.symm]
      · simp [Memory.lookup, ih]

/-- An address below every listed one is unlisted. -/
theorem Memory.lookup_below (c : List Host.Cell) (a : Nat) (h : ∀ y ∈ c, a < y.1) :
    Memory.lookup c a = Memory.unlisted := by
  induction c with
  | nil => rfl
  | cons hd tl ih =>
    have h1 := h hd (by simp)
    simp only [Memory.lookup]
    rw [if_neg (by omega)]
    exact ih fun y hy => h y (by simp [hy])

theorem Memory.lookup_insert_same (c : List Host.Cell) (a : Nat) (b : Byte)
    (h : c.Pairwise fun x y => x.1 < y.1) : Memory.lookup (Memory.insert c a b) a = b := by
  induction c with
  | nil => simp only [Memory.insert]; split <;> simp_all [Memory.lookup]
  | cons hd tl ih =>
    obtain ⟨k, v⟩ := hd
    rw [List.pairwise_cons] at h
    obtain ⟨h1, h2⟩ := h
    simp only [Memory.insert]
    split
    · next hk =>
      split
      · next hb =>
        rw [hb]
        apply Memory.lookup_below
        intro y hy
        rcases List.mem_cons.mp hy with rfl | hy
        · exact hk
        · exact lt_trans hk (h1 y hy)
      · simp [Memory.lookup]
    · split
      · next hk =>
        subst hk
        split
        · next hb => rw [hb]; exact Memory.lookup_below _ _ h1
        · simp [Memory.lookup]
      · next hk => simp [Memory.lookup, Ne.symm hk, ih h2]

theorem Memory.mem_insert (c : List Host.Cell) (a : Nat) (b : Byte) (y : Host.Cell)
    (h : y ∈ Memory.insert c a b) : y ∈ c ∨ (y = (a, b) ∧ b ≠ Memory.unlisted) := by
  induction c with
  | nil =>
    simp only [Memory.insert] at h
    split at h <;> simp_all
  | cons hd tl ih =>
    simp only [Memory.insert] at h
    split at h
    · split at h
      · exact .inl h
      · rcases List.mem_cons.mp h with rfl | h
        · exact .inr ⟨rfl, ‹_›⟩
        · exact .inl h
    · split at h
      · split at h
        · exact .inl (List.mem_cons_of_mem _ h)
        · rcases List.mem_cons.mp h with rfl | h
          · exact .inr ⟨rfl, ‹_›⟩
          · exact .inl (List.mem_cons_of_mem _ h)
      · rcases List.mem_cons.mp h with rfl | h
        · exact .inl (by simp)
        · rcases ih h with h | h
          · exact .inl (List.mem_cons_of_mem _ h)
          · exact .inr h

theorem Memory.insert_sorted (c : List Host.Cell) (a : Nat) (b : Byte)
    (h : c.Pairwise fun x y => x.1 < y.1) : (Memory.insert c a b).Pairwise fun x y => x.1 < y.1 := by
  induction c with
  | nil => simp only [Memory.insert]; split <;> simp
  | cons hd tl ih =>
    obtain ⟨k, v⟩ := hd
    have h' := h
    rw [List.pairwise_cons] at h
    obtain ⟨h1, h2⟩ := h
    simp only [Memory.insert]
    split
    · next hk =>
      split
      · exact h'
      · rw [List.pairwise_cons]
        refine ⟨fun y hy => ?_, h'⟩
        rcases List.mem_cons.mp hy with rfl | hy
        · exact hk
        · exact lt_trans hk (h1 y hy)
    · split
      · next hk =>
        subst hk
        split
        · exact h2
        · exact List.pairwise_cons.mpr ⟨h1, h2⟩
      · next hlt hne =>
        rw [List.pairwise_cons]
        refine ⟨fun y hy => ?_, ih h2⟩
        rcases Memory.mem_insert tl a b y hy with hy | ⟨rfl, -⟩
        · exact h1 y hy
        · simp only; omega

/-- The canonical form, as facts to use. -/
theorem Memory.wf_iff (m : Memory) :
    m.wf = true ↔ (m.cells.Pairwise fun x y => x.1 < y.1) ∧
      ∀ c ∈ m.cells, c.1 < m.size ∧ c.2 ≠ Memory.unlisted := by
  simp [Memory.wf]

@[simp] theorem Memory.store_size (m : Memory) (a : Nat) (b : Byte) : (m.store a b).size = m.size := by
  unfold Memory.store; split <;> rfl

theorem Memory.store_wf (m : Memory) (a : Nat) (b : Byte) (h : m.wf = true) : (m.store a b).wf = true := by
  rw [Memory.wf_iff] at h ⊢
  unfold Memory.store
  split
  · next ha =>
    refine ⟨Memory.insert_sorted _ _ _ h.1, fun c hc => ?_⟩
    rcases Memory.mem_insert _ _ _ _ hc with hc | ⟨rfl, hb⟩
    · exact h.2 c hc
    · exact ⟨ha, hb⟩
  · exact h

/-- A write leaves every other byte alone. -/
theorem Memory.load_store_ne (m : Memory) (a x : Nat) (b : Byte) (h : x ≠ a) : (m.store a b).load x = m.load x := by
  unfold Memory.load
  rw [Memory.store_size]
  unfold Memory.store
  split
  · split
    · exact Memory.lookup_insert_ne _ _ _ _ h
    · rfl
  · rfl

/-- A read after a write to the same address gives the byte written. -/
theorem Memory.load_store_same (m : Memory) (a : Nat) (b : Byte) (hm : m.wf = true) (ha : a < m.size) :
    (m.store a b).load a = b := by
  unfold Memory.load
  rw [Memory.store_size, if_pos ha]
  unfold Memory.store
  rw [if_pos ha]
  exact Memory.lookup_insert_same _ _ _ ((Memory.wf_iff m).mp hm).1

/-- At or above the size a read gives 0x00 (R43). -/
theorem Memory.load_above (m : Memory) (a : Nat) (h : m.size ≤ a) : m.load a = 0 := by
  unfold Memory.load; rw [if_neg (by omega)]

/-- At or above the size a write has no effect (R43). -/
theorem Memory.store_above (m : Memory) (a : Nat) (b : Byte) (h : m.size ≤ a) : m.store a b = m := by
  unfold Memory.store; rw [if_neg (by omega)]

@[simp] theorem Memory.storeBytes_size (v : List Byte) (m : Memory) (a : Nat) :
    (m.storeBytes a v).size = m.size := by
  induction v generalizing m a with
  | nil => rfl
  | cons b rest ih => simp [Memory.storeBytes, ih]

theorem Memory.storeBytes_wf (v : List Byte) (m : Memory) (a : Nat) (h : m.wf = true) :
    (m.storeBytes a v).wf = true := by
  induction v generalizing m a with
  | nil => exact h
  | cons b rest ih => exact ih _ _ (Memory.store_wf m a b h)

/-- A write of bytes leaves every byte outside its range alone. -/
theorem Memory.load_storeBytes_out (v : List Byte) (m : Memory) (a x : Nat) (h : ¬(a ≤ x ∧ x < a + v.length)) :
    (m.storeBytes a v).load x = m.load x := by
  induction v generalizing m a with
  | nil => rfl
  | cons b rest ih =>
    simp only [List.length_cons] at h
    rw [Memory.storeBytes, ih _ _ (by omega)]
    exact Memory.load_store_ne _ _ _ _ (by omega)

/-- A write of bytes inside the memory leaves each of them at its address. -/
theorem Memory.load_storeBytes_in (v : List Byte) (m : Memory) (a x : Nat) (hm : m.wf = true)
    (hs : a + v.length ≤ m.size) (h : a ≤ x ∧ x < a + v.length) : (m.storeBytes a v).load x = v.getD (x - a) 0 := by
  induction v generalizing m a with
  | nil => simp at h; omega
  | cons b rest ih =>
    simp only [List.length_cons] at h hs
    rw [Memory.storeBytes]
    by_cases hx : x = a
    · subst hx
      rw [Memory.load_storeBytes_out _ _ _ _ (by omega), Memory.load_store_same m x b hm (by omega)]
      simp
    · rw [ih _ _ (Memory.store_wf m a b hm) (by rw [Memory.store_size]; omega) (by omega)]
      obtain ⟨d, rfl⟩ : ∃ d, x = a + 1 + d := ⟨x - (a + 1), by omega⟩
      simp [show a + 1 + d - a = d + 1 by omega]

/-- `MemWrite` on a range in bounds writes exactly its bytes. -/
theorem bytesWritten_storeBytes (m : Memory) (a : Nat) (v : List Byte) (hm : m.wf = true)
    (hs : v.length = 0 ∨ a + v.length ≤ m.size) : BytesWritten m (m.storeBytes a v) a v := by
  refine ⟨Memory.storeBytes_size v m a, Memory.storeBytes_wf v m a hm, fun x => ?_⟩
  split
  · next h => exact Memory.load_storeBytes_in v m a x hm (by omega) h
  · next h => exact Memory.load_storeBytes_out v m a x h

theorem bytesWritten_storeBlock (m : Memory) (a : Nat) (b : Block) (hm : m.wf = true) (hs : a + 16 ≤ m.size) :
    BytesWritten m (m.storeBlock a b) a b.toList :=
  bytesWritten_storeBytes m a b.toList hm (.inr (by simpa using hs))

@[simp] theorem Memory.storeBlock_size (m : Memory) (a : Nat) (b : Block) : (m.storeBlock a b).size = m.size :=
  Memory.storeBytes_size _ _ _

theorem Memory.storeBlock_wf (m : Memory) (a : Nat) (b : Block) (h : m.wf = true) : (m.storeBlock a b).wf = true :=
  Memory.storeBytes_wf _ _ _ h

/-- Byte `i` of a block read at `a` is the byte at `a + i` (R45). -/
@[simp] theorem Memory.loadBlock_getElem (m : Memory) (a i : Nat) (h : i < 16) :
    (m.loadBlock a)[i] = m.load (a + i) := by
  simp [Memory.loadBlock]

@[simp] theorem Memory.scramble_size (n : Nat) (m : Memory) (a d : Nat) : (m.scramble a n d).size = m.size := by
  induction n generalizing m a d with
  | zero => rfl
  | succ n ih => simp [Memory.scramble, ih]

theorem Memory.scramble_wf (n : Nat) (m : Memory) (a d : Nat) (h : m.wf = true) : (m.scramble a n d).wf = true := by
  induction n generalizing m a d with
  | zero => exact h
  | succ n ih => exact ih _ _ _ (Memory.store_wf m a _ h)

/-- Free draws leave every byte outside their range alone. -/
theorem Memory.load_scramble_out (n : Nat) (m : Memory) (a d x : Nat) (h : ¬(a ≤ x ∧ x < a + n)) :
    (m.scramble a n d).load x = m.load x := by
  induction n generalizing m a d with
  | zero => rfl
  | succ n ih =>
    rw [Memory.scramble, ih _ _ _ (by omega)]
    exact Memory.load_store_ne _ _ _ _ (by omega)

@[simp] theorem Memory.scrambleRanges_size (rs : List (Nat × Nat)) (m : Memory) (d : Nat) :
    (m.scrambleRanges rs d).size = m.size := by
  induction rs generalizing m d with
  | nil => rfl
  | cons r rest ih => simp [Memory.scrambleRanges, ih]

theorem Memory.scrambleRanges_wf (rs : List (Nat × Nat)) (m : Memory) (d : Nat) (h : m.wf = true) :
    (m.scrambleRanges rs d).wf = true := by
  induction rs generalizing m d with
  | nil => exact h
  | cons r rest ih => exact ih _ _ (Memory.scramble_wf _ _ _ _ h)

theorem Memory.load_scrambleRanges_out (rs : List (Nat × Nat)) (m : Memory) (d x : Nat)
    (h : inRanges rs x = false) : (m.scrambleRanges rs d).load x = m.load x := by
  induction rs generalizing m d with
  | nil => rfl
  | cons r rest ih =>
    simp only [inRanges, List.any_cons, Bool.or_eq_false_iff, decide_eq_false_iff_not] at h
    rw [Memory.scrambleRanges, ih _ _ h.2]
    exact Memory.load_scramble_out _ _ _ _ _ h.1

theorem Memory.inBounds_iff (m : Memory) (base len : Nat) :
    m.inBounds base len = true ↔ (len = 0 ∨ base + len ≤ m.size) := by
  simp [Memory.inBounds]

/-- The reset memory lists nothing and so is in canonical form. -/
theorem reset_mem_wf : State.reset.mem.wf = true := by decide

end Sys2Proof.Machine
end

