-- ==== Sys2Proof/Laws/State.lean ====
section
/-! SUPPORT. One lemma per field for each named update of the state, true by unfolding the update alone. -/

namespace Sys2Proof.Machine

section StateUpdates

/- `complete` -/
@[simp] theorem complete_cmd (e : ErrCode) (s : State) : (complete e s).cmd = s.cmd := rfl
@[simp] theorem complete_keyAddr (e : ErrCode) (s : State) : (complete e s).keyAddr = s.keyAddr := rfl
@[simp] theorem complete_keyLen (e : ErrCode) (s : State) : (complete e s).keyLen = s.keyLen := rfl
@[simp] theorem complete_ivAddr (e : ErrCode) (s : State) : (complete e s).ivAddr = s.ivAddr := rfl
@[simp] theorem complete_ivLen (e : ErrCode) (s : State) : (complete e s).ivLen = s.ivLen := rfl
@[simp] theorem complete_srcAddr (e : ErrCode) (s : State) : (complete e s).srcAddr = s.srcAddr := rfl
@[simp] theorem complete_srcLen (e : ErrCode) (s : State) : (complete e s).srcLen = s.srcLen := rfl
@[simp] theorem complete_dstAddr (e : ErrCode) (s : State) : (complete e s).dstAddr = s.dstAddr := rfl
@[simp] theorem complete_outLen (e : ErrCode) (s : State) : (complete e s).outLen = s.outLen := rfl
@[simp] theorem complete_opA (e : ErrCode) (s : State) : (complete e s).opA = s.opA := rfl
@[simp] theorem complete_opB (e : ErrCode) (s : State) : (complete e s).opB = s.opB := rfl
@[simp] theorem complete_res (e : ErrCode) (s : State) : (complete e s).res = s.res := rfl
@[simp] theorem complete_done (e : ErrCode) (s : State) : (complete e s).done = true := rfl
@[simp] theorem complete_ovr (e : ErrCode) (s : State) : (complete e s).ovr = s.ovr := rfl
@[simp] theorem complete_err (e : ErrCode) (s : State) : (complete e s).err = e := rfl
@[simp] theorem complete_keyValid (e : ErrCode) (s : State) : (complete e s).keyValid = s.keyValid := rfl
@[simp] theorem complete_nk (e : ErrCode) (s : State) : (complete e s).nk = s.nk := rfl
@[simp] theorem complete_nr (e : ErrCode) (s : State) : (complete e s).nr = s.nr := rfl
@[simp] theorem complete_sreg (e : ErrCode) (s : State) : (complete e s).sreg = s.sreg := rfl
@[simp] theorem complete_w (e : ErrCode) (s : State) : (complete e s).w = s.w := rfl
@[simp] theorem complete_prev (e : ErrCode) (s : State) : (complete e s).prev = s.prev := rfl
@[simp] theorem complete_hold (e : ErrCode) (s : State) : (complete e s).hold = s.hold := rfl
@[simp] theorem complete_lat (e : ErrCode) (s : State) : (complete e s).lat = s.lat := rfl
@[simp] theorem complete_fsm (e : ErrCode) (s : State) : (complete e s).fsm = .idle := rfl
@[simp] theorem complete_rnd (e : ErrCode) (s : State) : (complete e s).rnd = s.rnd := rfl
@[simp] theorem complete_blk (e : ErrCode) (s : State) : (complete e s).blk = s.blk := rfl
@[simp] theorem complete_kidx (e : ErrCode) (s : State) : (complete e s).kidx = s.kidx := rfl
@[simp] theorem complete_mem (e : ErrCode) (s : State) : (complete e s).mem = s.mem := rfl
@[simp] theorem complete_scratch (e : ErrCode) (s : State) : (complete e s).scratch = s.scratch := rfl
@[simp] theorem complete_hazard (e : ErrCode) (s : State) : (complete e s).hazard = s.hazard := rfl
@[simp] theorem complete_draws (e : ErrCode) (s : State) : (complete e s).draws = s.draws := rfl
@[simp] theorem complete_regData (e : ErrCode) (s : State) : (complete e s).regData = s.regData := rfl
@[simp] theorem complete_memData (e : ErrCode) (s : State) : (complete e s).memData = s.memData := rfl
@[simp] theorem complete_agenda (e : ErrCode) (s : State) : (complete e s).agenda = s.agenda := rfl

/- `raiseError` -/
@[simp] theorem raiseError_cmd (e : ErrCode) (s : State) : (raiseError e s).cmd = s.cmd := rfl
@[simp] theorem raiseError_keyAddr (e : ErrCode) (s : State) : (raiseError e s).keyAddr = s.keyAddr := rfl
@[simp] theorem raiseError_keyLen (e : ErrCode) (s : State) : (raiseError e s).keyLen = s.keyLen := rfl
@[simp] theorem raiseError_ivAddr (e : ErrCode) (s : State) : (raiseError e s).ivAddr = s.ivAddr := rfl
@[simp] theorem raiseError_ivLen (e : ErrCode) (s : State) : (raiseError e s).ivLen = s.ivLen := rfl
@[simp] theorem raiseError_srcAddr (e : ErrCode) (s : State) : (raiseError e s).srcAddr = s.srcAddr := rfl
@[simp] theorem raiseError_srcLen (e : ErrCode) (s : State) : (raiseError e s).srcLen = s.srcLen := rfl
@[simp] theorem raiseError_dstAddr (e : ErrCode) (s : State) : (raiseError e s).dstAddr = s.dstAddr := rfl
@[simp] theorem raiseError_outLen (e : ErrCode) (s : State) : (raiseError e s).outLen = s.outLen := rfl
@[simp] theorem raiseError_opA (e : ErrCode) (s : State) : (raiseError e s).opA = s.opA := rfl
@[simp] theorem raiseError_opB (e : ErrCode) (s : State) : (raiseError e s).opB = s.opB := rfl
@[simp] theorem raiseError_res (e : ErrCode) (s : State) : (raiseError e s).res = s.res := rfl
@[simp] theorem raiseError_done (e : ErrCode) (s : State) : (raiseError e s).done = true := rfl
@[simp] theorem raiseError_ovr (e : ErrCode) (s : State) : (raiseError e s).ovr = s.ovr := rfl
@[simp] theorem raiseError_err (e : ErrCode) (s : State) : (raiseError e s).err = e := rfl
@[simp] theorem raiseError_keyValid (e : ErrCode) (s : State) : (raiseError e s).keyValid = s.keyValid := rfl
@[simp] theorem raiseError_nk (e : ErrCode) (s : State) : (raiseError e s).nk = s.nk := rfl
@[simp] theorem raiseError_nr (e : ErrCode) (s : State) : (raiseError e s).nr = s.nr := rfl
@[simp] theorem raiseError_sreg (e : ErrCode) (s : State) : (raiseError e s).sreg = s.sreg := rfl
@[simp] theorem raiseError_w (e : ErrCode) (s : State) : (raiseError e s).w = s.w := rfl
@[simp] theorem raiseError_prev (e : ErrCode) (s : State) : (raiseError e s).prev = s.prev := rfl
@[simp] theorem raiseError_hold (e : ErrCode) (s : State) : (raiseError e s).hold = s.hold := rfl
@[simp] theorem raiseError_lat (e : ErrCode) (s : State) : (raiseError e s).lat = s.lat := rfl
@[simp] theorem raiseError_fsm (e : ErrCode) (s : State) : (raiseError e s).fsm = .idle := rfl
@[simp] theorem raiseError_rnd (e : ErrCode) (s : State) : (raiseError e s).rnd = s.rnd := rfl
@[simp] theorem raiseError_blk (e : ErrCode) (s : State) : (raiseError e s).blk = s.blk := rfl
@[simp] theorem raiseError_kidx (e : ErrCode) (s : State) : (raiseError e s).kidx = s.kidx := rfl
@[simp] theorem raiseError_mem (e : ErrCode) (s : State) : (raiseError e s).mem = s.mem := rfl
@[simp] theorem raiseError_scratch (e : ErrCode) (s : State) : (raiseError e s).scratch = s.scratch := rfl
@[simp] theorem raiseError_hazard (e : ErrCode) (s : State) : (raiseError e s).hazard = s.hazard := rfl
@[simp] theorem raiseError_draws (e : ErrCode) (s : State) : (raiseError e s).draws = s.draws := rfl
@[simp] theorem raiseError_regData (e : ErrCode) (s : State) : (raiseError e s).regData = s.regData := rfl
@[simp] theorem raiseError_memData (e : ErrCode) (s : State) : (raiseError e s).memData = s.memData := rfl
@[simp] theorem raiseError_agenda (e : ErrCode) (s : State) : (raiseError e s).agenda = s.agenda := rfl

/- `raiseKeyError` -/
@[simp] theorem raiseKeyError_cmd (e : ErrCode) (s : State) : (raiseKeyError e s).cmd = s.cmd := rfl
@[simp] theorem raiseKeyError_keyAddr (e : ErrCode) (s : State) : (raiseKeyError e s).keyAddr = s.keyAddr := rfl
@[simp] theorem raiseKeyError_keyLen (e : ErrCode) (s : State) : (raiseKeyError e s).keyLen = s.keyLen := rfl
@[simp] theorem raiseKeyError_ivAddr (e : ErrCode) (s : State) : (raiseKeyError e s).ivAddr = s.ivAddr := rfl
@[simp] theorem raiseKeyError_ivLen (e : ErrCode) (s : State) : (raiseKeyError e s).ivLen = s.ivLen := rfl
@[simp] theorem raiseKeyError_srcAddr (e : ErrCode) (s : State) : (raiseKeyError e s).srcAddr = s.srcAddr := rfl
@[simp] theorem raiseKeyError_srcLen (e : ErrCode) (s : State) : (raiseKeyError e s).srcLen = s.srcLen := rfl
@[simp] theorem raiseKeyError_dstAddr (e : ErrCode) (s : State) : (raiseKeyError e s).dstAddr = s.dstAddr := rfl
@[simp] theorem raiseKeyError_outLen (e : ErrCode) (s : State) : (raiseKeyError e s).outLen = s.outLen := rfl
@[simp] theorem raiseKeyError_opA (e : ErrCode) (s : State) : (raiseKeyError e s).opA = s.opA := rfl
@[simp] theorem raiseKeyError_opB (e : ErrCode) (s : State) : (raiseKeyError e s).opB = s.opB := rfl
@[simp] theorem raiseKeyError_res (e : ErrCode) (s : State) : (raiseKeyError e s).res = s.res := rfl
@[simp] theorem raiseKeyError_done (e : ErrCode) (s : State) : (raiseKeyError e s).done = true := rfl
@[simp] theorem raiseKeyError_ovr (e : ErrCode) (s : State) : (raiseKeyError e s).ovr = s.ovr := rfl
@[simp] theorem raiseKeyError_err (e : ErrCode) (s : State) : (raiseKeyError e s).err = e := rfl
@[simp] theorem raiseKeyError_keyValid (e : ErrCode) (s : State) : (raiseKeyError e s).keyValid = false := rfl
@[simp] theorem raiseKeyError_nk (e : ErrCode) (s : State) : (raiseKeyError e s).nk = 0 := rfl
@[simp] theorem raiseKeyError_nr (e : ErrCode) (s : State) : (raiseKeyError e s).nr = 0 := rfl
@[simp] theorem raiseKeyError_sreg (e : ErrCode) (s : State) : (raiseKeyError e s).sreg = s.sreg := rfl
@[simp] theorem raiseKeyError_w (e : ErrCode) (s : State) : (raiseKeyError e s).w = s.w := rfl
@[simp] theorem raiseKeyError_prev (e : ErrCode) (s : State) : (raiseKeyError e s).prev = s.prev := rfl
@[simp] theorem raiseKeyError_hold (e : ErrCode) (s : State) : (raiseKeyError e s).hold = s.hold := rfl
@[simp] theorem raiseKeyError_lat (e : ErrCode) (s : State) : (raiseKeyError e s).lat = s.lat := rfl
@[simp] theorem raiseKeyError_fsm (e : ErrCode) (s : State) : (raiseKeyError e s).fsm = .idle := rfl
@[simp] theorem raiseKeyError_rnd (e : ErrCode) (s : State) : (raiseKeyError e s).rnd = s.rnd := rfl
@[simp] theorem raiseKeyError_blk (e : ErrCode) (s : State) : (raiseKeyError e s).blk = s.blk := rfl
@[simp] theorem raiseKeyError_kidx (e : ErrCode) (s : State) : (raiseKeyError e s).kidx = s.kidx := rfl
@[simp] theorem raiseKeyError_mem (e : ErrCode) (s : State) : (raiseKeyError e s).mem = s.mem := rfl
@[simp] theorem raiseKeyError_scratch (e : ErrCode) (s : State) : (raiseKeyError e s).scratch = s.scratch := rfl
@[simp] theorem raiseKeyError_hazard (e : ErrCode) (s : State) : (raiseKeyError e s).hazard = s.hazard := rfl
@[simp] theorem raiseKeyError_draws (e : ErrCode) (s : State) : (raiseKeyError e s).draws = s.draws := rfl
@[simp] theorem raiseKeyError_regData (e : ErrCode) (s : State) : (raiseKeyError e s).regData = s.regData := rfl
@[simp] theorem raiseKeyError_memData (e : ErrCode) (s : State) : (raiseKeyError e s).memData = s.memData := rfl
@[simp] theorem raiseKeyError_agenda (e : ErrCode) (s : State) : (raiseKeyError e s).agenda = s.agenda := rfl

/- `raiseModeError` -/
@[simp] theorem raiseModeError_cmd (e : ErrCode) (s : State) : (raiseModeError e s).cmd = s.cmd := rfl
@[simp] theorem raiseModeError_keyAddr (e : ErrCode) (s : State) : (raiseModeError e s).keyAddr = s.keyAddr := rfl
@[simp] theorem raiseModeError_keyLen (e : ErrCode) (s : State) : (raiseModeError e s).keyLen = s.keyLen := rfl
@[simp] theorem raiseModeError_ivAddr (e : ErrCode) (s : State) : (raiseModeError e s).ivAddr = s.ivAddr := rfl
@[simp] theorem raiseModeError_ivLen (e : ErrCode) (s : State) : (raiseModeError e s).ivLen = s.ivLen := rfl
@[simp] theorem raiseModeError_srcAddr (e : ErrCode) (s : State) : (raiseModeError e s).srcAddr = s.srcAddr := rfl
@[simp] theorem raiseModeError_srcLen (e : ErrCode) (s : State) : (raiseModeError e s).srcLen = s.srcLen := rfl
@[simp] theorem raiseModeError_dstAddr (e : ErrCode) (s : State) : (raiseModeError e s).dstAddr = s.dstAddr := rfl
@[simp] theorem raiseModeError_outLen (e : ErrCode) (s : State) : (raiseModeError e s).outLen = 0 := rfl
@[simp] theorem raiseModeError_opA (e : ErrCode) (s : State) : (raiseModeError e s).opA = s.opA := rfl
@[simp] theorem raiseModeError_opB (e : ErrCode) (s : State) : (raiseModeError e s).opB = s.opB := rfl
@[simp] theorem raiseModeError_res (e : ErrCode) (s : State) : (raiseModeError e s).res = s.res := rfl
@[simp] theorem raiseModeError_done (e : ErrCode) (s : State) : (raiseModeError e s).done = true := rfl
@[simp] theorem raiseModeError_ovr (e : ErrCode) (s : State) : (raiseModeError e s).ovr = s.ovr := rfl
@[simp] theorem raiseModeError_err (e : ErrCode) (s : State) : (raiseModeError e s).err = e := rfl
@[simp] theorem raiseModeError_keyValid (e : ErrCode) (s : State) : (raiseModeError e s).keyValid = s.keyValid := rfl
@[simp] theorem raiseModeError_nk (e : ErrCode) (s : State) : (raiseModeError e s).nk = s.nk := rfl
@[simp] theorem raiseModeError_nr (e : ErrCode) (s : State) : (raiseModeError e s).nr = s.nr := rfl
@[simp] theorem raiseModeError_sreg (e : ErrCode) (s : State) : (raiseModeError e s).sreg = s.sreg := rfl
@[simp] theorem raiseModeError_w (e : ErrCode) (s : State) : (raiseModeError e s).w = s.w := rfl
@[simp] theorem raiseModeError_prev (e : ErrCode) (s : State) : (raiseModeError e s).prev = s.prev := rfl
@[simp] theorem raiseModeError_hold (e : ErrCode) (s : State) : (raiseModeError e s).hold = s.hold := rfl
@[simp] theorem raiseModeError_lat (e : ErrCode) (s : State) : (raiseModeError e s).lat = s.lat := rfl
@[simp] theorem raiseModeError_fsm (e : ErrCode) (s : State) : (raiseModeError e s).fsm = .idle := rfl
@[simp] theorem raiseModeError_rnd (e : ErrCode) (s : State) : (raiseModeError e s).rnd = s.rnd := rfl
@[simp] theorem raiseModeError_blk (e : ErrCode) (s : State) : (raiseModeError e s).blk = s.blk := rfl
@[simp] theorem raiseModeError_kidx (e : ErrCode) (s : State) : (raiseModeError e s).kidx = s.kidx := rfl
@[simp] theorem raiseModeError_mem (e : ErrCode) (s : State) : (raiseModeError e s).mem = s.mem := rfl
@[simp] theorem raiseModeError_scratch (e : ErrCode) (s : State) : (raiseModeError e s).scratch = s.scratch := rfl
@[simp] theorem raiseModeError_hazard (e : ErrCode) (s : State) : (raiseModeError e s).hazard = s.hazard := rfl
@[simp] theorem raiseModeError_draws (e : ErrCode) (s : State) : (raiseModeError e s).draws = s.draws := rfl
@[simp] theorem raiseModeError_regData (e : ErrCode) (s : State) : (raiseModeError e s).regData = s.regData := rfl
@[simp] theorem raiseModeError_memData (e : ErrCode) (s : State) : (raiseModeError e s).memData = s.memData := rfl
@[simp] theorem raiseModeError_agenda (e : ErrCode) (s : State) : (raiseModeError e s).agenda = s.agenda := rfl

/- `setOutLen` -/
@[simp] theorem setOutLen_cmd (n : Nat) (s : State) : (setOutLen n s).cmd = s.cmd := rfl
@[simp] theorem setOutLen_keyAddr (n : Nat) (s : State) : (setOutLen n s).keyAddr = s.keyAddr := rfl
@[simp] theorem setOutLen_keyLen (n : Nat) (s : State) : (setOutLen n s).keyLen = s.keyLen := rfl
@[simp] theorem setOutLen_ivAddr (n : Nat) (s : State) : (setOutLen n s).ivAddr = s.ivAddr := rfl
@[simp] theorem setOutLen_ivLen (n : Nat) (s : State) : (setOutLen n s).ivLen = s.ivLen := rfl
@[simp] theorem setOutLen_srcAddr (n : Nat) (s : State) : (setOutLen n s).srcAddr = s.srcAddr := rfl
@[simp] theorem setOutLen_srcLen (n : Nat) (s : State) : (setOutLen n s).srcLen = s.srcLen := rfl
@[simp] theorem setOutLen_dstAddr (n : Nat) (s : State) : (setOutLen n s).dstAddr = s.dstAddr := rfl
@[simp] theorem setOutLen_outLen (n : Nat) (s : State) : (setOutLen n s).outLen = BitVec.ofNat 32 n := rfl
@[simp] theorem setOutLen_opA (n : Nat) (s : State) : (setOutLen n s).opA = s.opA := rfl
@[simp] theorem setOutLen_opB (n : Nat) (s : State) : (setOutLen n s).opB = s.opB := rfl
@[simp] theorem setOutLen_res (n : Nat) (s : State) : (setOutLen n s).res = s.res := rfl
@[simp] theorem setOutLen_done (n : Nat) (s : State) : (setOutLen n s).done = s.done := rfl
@[simp] theorem setOutLen_ovr (n : Nat) (s : State) : (setOutLen n s).ovr = s.ovr := rfl
@[simp] theorem setOutLen_err (n : Nat) (s : State) : (setOutLen n s).err = s.err := rfl
@[simp] theorem setOutLen_keyValid (n : Nat) (s : State) : (setOutLen n s).keyValid = s.keyValid := rfl
@[simp] theorem setOutLen_nk (n : Nat) (s : State) : (setOutLen n s).nk = s.nk := rfl
@[simp] theorem setOutLen_nr (n : Nat) (s : State) : (setOutLen n s).nr = s.nr := rfl
@[simp] theorem setOutLen_sreg (n : Nat) (s : State) : (setOutLen n s).sreg = s.sreg := rfl
@[simp] theorem setOutLen_w (n : Nat) (s : State) : (setOutLen n s).w = s.w := rfl
@[simp] theorem setOutLen_prev (n : Nat) (s : State) : (setOutLen n s).prev = s.prev := rfl
@[simp] theorem setOutLen_hold (n : Nat) (s : State) : (setOutLen n s).hold = s.hold := rfl
@[simp] theorem setOutLen_lat (n : Nat) (s : State) : (setOutLen n s).lat = s.lat := rfl
@[simp] theorem setOutLen_fsm (n : Nat) (s : State) : (setOutLen n s).fsm = s.fsm := rfl
@[simp] theorem setOutLen_rnd (n : Nat) (s : State) : (setOutLen n s).rnd = s.rnd := rfl
@[simp] theorem setOutLen_blk (n : Nat) (s : State) : (setOutLen n s).blk = s.blk := rfl
@[simp] theorem setOutLen_kidx (n : Nat) (s : State) : (setOutLen n s).kidx = s.kidx := rfl
@[simp] theorem setOutLen_mem (n : Nat) (s : State) : (setOutLen n s).mem = s.mem := rfl
@[simp] theorem setOutLen_scratch (n : Nat) (s : State) : (setOutLen n s).scratch = s.scratch := rfl
@[simp] theorem setOutLen_hazard (n : Nat) (s : State) : (setOutLen n s).hazard = s.hazard := rfl
@[simp] theorem setOutLen_draws (n : Nat) (s : State) : (setOutLen n s).draws = s.draws := rfl
@[simp] theorem setOutLen_regData (n : Nat) (s : State) : (setOutLen n s).regData = s.regData := rfl
@[simp] theorem setOutLen_memData (n : Nat) (s : State) : (setOutLen n s).memData = s.memData := rfl
@[simp] theorem setOutLen_agenda (n : Nat) (s : State) : (setOutLen n s).agenda = s.agenda := rfl

/- `precheckEffect` -/
@[simp] theorem precheckEffect_cmd (h : Block) (s : State) : (precheckEffect h s).cmd = s.cmd := rfl
@[simp] theorem precheckEffect_keyAddr (h : Block) (s : State) : (precheckEffect h s).keyAddr = s.keyAddr := rfl
@[simp] theorem precheckEffect_keyLen (h : Block) (s : State) : (precheckEffect h s).keyLen = s.keyLen := rfl
@[simp] theorem precheckEffect_ivAddr (h : Block) (s : State) : (precheckEffect h s).ivAddr = s.ivAddr := rfl
@[simp] theorem precheckEffect_ivLen (h : Block) (s : State) : (precheckEffect h s).ivLen = s.ivLen := rfl
@[simp] theorem precheckEffect_srcAddr (h : Block) (s : State) : (precheckEffect h s).srcAddr = s.srcAddr := rfl
@[simp] theorem precheckEffect_srcLen (h : Block) (s : State) : (precheckEffect h s).srcLen = s.srcLen := rfl
@[simp] theorem precheckEffect_dstAddr (h : Block) (s : State) : (precheckEffect h s).dstAddr = s.dstAddr := rfl
@[simp] theorem precheckEffect_outLen (h : Block) (s : State) : (precheckEffect h s).outLen = s.outLen := rfl
@[simp] theorem precheckEffect_opA (h : Block) (s : State) : (precheckEffect h s).opA = s.opA := rfl
@[simp] theorem precheckEffect_opB (h : Block) (s : State) : (precheckEffect h s).opB = s.opB := rfl
@[simp] theorem precheckEffect_res (h : Block) (s : State) : (precheckEffect h s).res = s.res := rfl
@[simp] theorem precheckEffect_done (h : Block) (s : State) : (precheckEffect h s).done = s.done := rfl
@[simp] theorem precheckEffect_ovr (h : Block) (s : State) : (precheckEffect h s).ovr = s.ovr := rfl
@[simp] theorem precheckEffect_err (h : Block) (s : State) : (precheckEffect h s).err = s.err := rfl
@[simp] theorem precheckEffect_keyValid (h : Block) (s : State) : (precheckEffect h s).keyValid = s.keyValid := rfl
@[simp] theorem precheckEffect_nk (h : Block) (s : State) : (precheckEffect h s).nk = s.nk := rfl
@[simp] theorem precheckEffect_nr (h : Block) (s : State) : (precheckEffect h s).nr = s.nr := rfl
@[simp] theorem precheckEffect_sreg (h : Block) (s : State) : (precheckEffect h s).sreg = h := rfl
@[simp] theorem precheckEffect_w (h : Block) (s : State) : (precheckEffect h s).w = s.w := rfl
@[simp] theorem precheckEffect_prev (h : Block) (s : State) : (precheckEffect h s).prev = s.prev := rfl
@[simp] theorem precheckEffect_hold (h : Block) (s : State) : (precheckEffect h s).hold = h := rfl
@[simp] theorem precheckEffect_lat (h : Block) (s : State) : (precheckEffect h s).lat = s.lat := rfl
@[simp] theorem precheckEffect_fsm (h : Block) (s : State) : (precheckEffect h s).fsm = s.fsm := rfl
@[simp] theorem precheckEffect_rnd (h : Block) (s : State) : (precheckEffect h s).rnd = s.rnd := rfl
@[simp] theorem precheckEffect_blk (h : Block) (s : State) : (precheckEffect h s).blk = s.blk := rfl
@[simp] theorem precheckEffect_kidx (h : Block) (s : State) : (precheckEffect h s).kidx = s.kidx := rfl
@[simp] theorem precheckEffect_mem (h : Block) (s : State) : (precheckEffect h s).mem = s.mem := rfl
@[simp] theorem precheckEffect_scratch (h : Block) (s : State) : (precheckEffect h s).scratch = s.scratch := rfl
@[simp] theorem precheckEffect_hazard (h : Block) (s : State) : (precheckEffect h s).hazard = s.hazard := rfl
@[simp] theorem precheckEffect_draws (h : Block) (s : State) : (precheckEffect h s).draws = s.draws := rfl
@[simp] theorem precheckEffect_regData (h : Block) (s : State) : (precheckEffect h s).regData = s.regData := rfl
@[simp] theorem precheckEffect_memData (h : Block) (s : State) : (precheckEffect h s).memData = s.memData := rfl
@[simp] theorem precheckEffect_agenda (h : Block) (s : State) : (precheckEffect h s).agenda = s.agenda := rfl

/- `transformEffect` -/
@[simp] theorem transformEffect_cmd (f : Block → Block) (s : State) : (transformEffect f s).cmd = s.cmd := by simp only [transformEffect]
@[simp] theorem transformEffect_keyAddr (f : Block → Block) (s : State) : (transformEffect f s).keyAddr = s.keyAddr := by simp only [transformEffect]
@[simp] theorem transformEffect_keyLen (f : Block → Block) (s : State) : (transformEffect f s).keyLen = s.keyLen := by simp only [transformEffect]
@[simp] theorem transformEffect_ivAddr (f : Block → Block) (s : State) : (transformEffect f s).ivAddr = s.ivAddr := by simp only [transformEffect]
@[simp] theorem transformEffect_ivLen (f : Block → Block) (s : State) : (transformEffect f s).ivLen = s.ivLen := by simp only [transformEffect]
@[simp] theorem transformEffect_srcAddr (f : Block → Block) (s : State) : (transformEffect f s).srcAddr = s.srcAddr := by simp only [transformEffect]
@[simp] theorem transformEffect_srcLen (f : Block → Block) (s : State) : (transformEffect f s).srcLen = s.srcLen := by simp only [transformEffect]
@[simp] theorem transformEffect_dstAddr (f : Block → Block) (s : State) : (transformEffect f s).dstAddr = s.dstAddr := by simp only [transformEffect]
@[simp] theorem transformEffect_outLen (f : Block → Block) (s : State) : (transformEffect f s).outLen = s.outLen := by simp only [transformEffect]
@[simp] theorem transformEffect_opA (f : Block → Block) (s : State) : (transformEffect f s).opA = s.opA := by simp only [transformEffect]
@[simp] theorem transformEffect_opB (f : Block → Block) (s : State) : (transformEffect f s).opB = s.opB := by simp only [transformEffect]
@[simp] theorem transformEffect_res (f : Block → Block) (s : State) : (transformEffect f s).res = s.res := by simp only [transformEffect]
@[simp] theorem transformEffect_done (f : Block → Block) (s : State) : (transformEffect f s).done = s.done := by simp only [transformEffect]
@[simp] theorem transformEffect_ovr (f : Block → Block) (s : State) : (transformEffect f s).ovr = s.ovr := by simp only [transformEffect]
@[simp] theorem transformEffect_err (f : Block → Block) (s : State) : (transformEffect f s).err = s.err := by simp only [transformEffect]
@[simp] theorem transformEffect_keyValid (f : Block → Block) (s : State) : (transformEffect f s).keyValid = s.keyValid := by simp only [transformEffect]
@[simp] theorem transformEffect_nk (f : Block → Block) (s : State) : (transformEffect f s).nk = s.nk := by simp only [transformEffect]
@[simp] theorem transformEffect_nr (f : Block → Block) (s : State) : (transformEffect f s).nr = s.nr := by simp only [transformEffect]
@[simp] theorem transformEffect_sreg (f : Block → Block) (s : State) : (transformEffect f s).sreg = f s.sreg := by simp only [transformEffect]
@[simp] theorem transformEffect_w (f : Block → Block) (s : State) : (transformEffect f s).w = s.w := by simp only [transformEffect]
@[simp] theorem transformEffect_prev (f : Block → Block) (s : State) : (transformEffect f s).prev = s.prev := by simp only [transformEffect]
@[simp] theorem transformEffect_hold (f : Block → Block) (s : State) : (transformEffect f s).hold = s.hold := by simp only [transformEffect]
@[simp] theorem transformEffect_lat (f : Block → Block) (s : State) : (transformEffect f s).lat = s.lat := by simp only [transformEffect]
@[simp] theorem transformEffect_fsm (f : Block → Block) (s : State) : (transformEffect f s).fsm = s.fsm := by simp only [transformEffect]
@[simp] theorem transformEffect_rnd (f : Block → Block) (s : State) : (transformEffect f s).rnd = s.rnd := by simp only [transformEffect]
@[simp] theorem transformEffect_blk (f : Block → Block) (s : State) : (transformEffect f s).blk = s.blk := by simp only [transformEffect]
@[simp] theorem transformEffect_kidx (f : Block → Block) (s : State) : (transformEffect f s).kidx = s.kidx := by simp only [transformEffect]
@[simp] theorem transformEffect_mem (f : Block → Block) (s : State) : (transformEffect f s).mem = s.mem := by simp only [transformEffect]
@[simp] theorem transformEffect_scratch (f : Block → Block) (s : State) : (transformEffect f s).scratch = s.scratch := by simp only [transformEffect]
@[simp] theorem transformEffect_hazard (f : Block → Block) (s : State) : (transformEffect f s).hazard = s.hazard := by simp only [transformEffect]
@[simp] theorem transformEffect_draws (f : Block → Block) (s : State) : (transformEffect f s).draws = s.draws := by simp only [transformEffect]
@[simp] theorem transformEffect_regData (f : Block → Block) (s : State) : (transformEffect f s).regData = s.regData := by simp only [transformEffect]
@[simp] theorem transformEffect_memData (f : Block → Block) (s : State) : (transformEffect f s).memData = s.memData := by simp only [transformEffect]
@[simp] theorem transformEffect_agenda (f : Block → Block) (s : State) : (transformEffect f s).agenda = s.agenda := by simp only [transformEffect]

/- `setKeyParams` -/
@[simp] theorem setKeyParams_cmd (s : State) : (setKeyParams s).cmd = s.cmd := by simp only [setKeyParams]
@[simp] theorem setKeyParams_keyAddr (s : State) : (setKeyParams s).keyAddr = s.keyAddr := by simp only [setKeyParams]
@[simp] theorem setKeyParams_keyLen (s : State) : (setKeyParams s).keyLen = s.keyLen := by simp only [setKeyParams]
@[simp] theorem setKeyParams_ivAddr (s : State) : (setKeyParams s).ivAddr = s.ivAddr := by simp only [setKeyParams]
@[simp] theorem setKeyParams_ivLen (s : State) : (setKeyParams s).ivLen = s.ivLen := by simp only [setKeyParams]
@[simp] theorem setKeyParams_srcAddr (s : State) : (setKeyParams s).srcAddr = s.srcAddr := by simp only [setKeyParams]
@[simp] theorem setKeyParams_srcLen (s : State) : (setKeyParams s).srcLen = s.srcLen := by simp only [setKeyParams]
@[simp] theorem setKeyParams_dstAddr (s : State) : (setKeyParams s).dstAddr = s.dstAddr := by simp only [setKeyParams]
@[simp] theorem setKeyParams_outLen (s : State) : (setKeyParams s).outLen = s.outLen := by simp only [setKeyParams]
@[simp] theorem setKeyParams_opA (s : State) : (setKeyParams s).opA = s.opA := by simp only [setKeyParams]
@[simp] theorem setKeyParams_opB (s : State) : (setKeyParams s).opB = s.opB := by simp only [setKeyParams]
@[simp] theorem setKeyParams_res (s : State) : (setKeyParams s).res = s.res := by simp only [setKeyParams]
@[simp] theorem setKeyParams_done (s : State) : (setKeyParams s).done = s.done := by simp only [setKeyParams]
@[simp] theorem setKeyParams_ovr (s : State) : (setKeyParams s).ovr = s.ovr := by simp only [setKeyParams]
@[simp] theorem setKeyParams_err (s : State) : (setKeyParams s).err = s.err := by simp only [setKeyParams]
@[simp] theorem setKeyParams_keyValid (s : State) : (setKeyParams s).keyValid = true := by simp only [setKeyParams]
@[simp] theorem setKeyParams_nk (s : State) : (setKeyParams s).nk = BitVec.ofNat 4 (nkOf s.keyBytes) := by simp only [setKeyParams]
@[simp] theorem setKeyParams_nr (s : State) : (setKeyParams s).nr = BitVec.ofNat 4 (nrOf s.keyBytes) := by simp only [setKeyParams]
@[simp] theorem setKeyParams_sreg (s : State) : (setKeyParams s).sreg = s.sreg := by simp only [setKeyParams]
@[simp] theorem setKeyParams_w (s : State) : (setKeyParams s).w = s.w := by simp only [setKeyParams]
@[simp] theorem setKeyParams_prev (s : State) : (setKeyParams s).prev = s.prev := by simp only [setKeyParams]
@[simp] theorem setKeyParams_hold (s : State) : (setKeyParams s).hold = s.hold := by simp only [setKeyParams]
@[simp] theorem setKeyParams_lat (s : State) : (setKeyParams s).lat = s.lat := by simp only [setKeyParams]
@[simp] theorem setKeyParams_fsm (s : State) : (setKeyParams s).fsm = s.fsm := by simp only [setKeyParams]
@[simp] theorem setKeyParams_rnd (s : State) : (setKeyParams s).rnd = s.rnd := by simp only [setKeyParams]
@[simp] theorem setKeyParams_blk (s : State) : (setKeyParams s).blk = s.blk := by simp only [setKeyParams]
@[simp] theorem setKeyParams_kidx (s : State) : (setKeyParams s).kidx = s.kidx := by simp only [setKeyParams]
@[simp] theorem setKeyParams_mem (s : State) : (setKeyParams s).mem = s.mem := by simp only [setKeyParams]
@[simp] theorem setKeyParams_scratch (s : State) : (setKeyParams s).scratch = s.scratch := by simp only [setKeyParams]
@[simp] theorem setKeyParams_hazard (s : State) : (setKeyParams s).hazard = s.hazard := by simp only [setKeyParams]
@[simp] theorem setKeyParams_draws (s : State) : (setKeyParams s).draws = s.draws := by simp only [setKeyParams]
@[simp] theorem setKeyParams_regData (s : State) : (setKeyParams s).regData = s.regData := by simp only [setKeyParams]
@[simp] theorem setKeyParams_memData (s : State) : (setKeyParams s).memData = s.memData := by simp only [setKeyParams]
@[simp] theorem setKeyParams_agenda (s : State) : (setKeyParams s).agenda = s.agenda := by simp only [setKeyParams]

/- `stateLoadEffect` -/
@[simp] theorem stateLoadEffect_cmd (s : State) : (stateLoadEffect s).cmd = s.cmd := by simp only [stateLoadEffect]
@[simp] theorem stateLoadEffect_keyAddr (s : State) : (stateLoadEffect s).keyAddr = s.keyAddr := by simp only [stateLoadEffect]
@[simp] theorem stateLoadEffect_keyLen (s : State) : (stateLoadEffect s).keyLen = s.keyLen := by simp only [stateLoadEffect]
@[simp] theorem stateLoadEffect_ivAddr (s : State) : (stateLoadEffect s).ivAddr = s.ivAddr := by simp only [stateLoadEffect]
@[simp] theorem stateLoadEffect_ivLen (s : State) : (stateLoadEffect s).ivLen = s.ivLen := by simp only [stateLoadEffect]
@[simp] theorem stateLoadEffect_srcAddr (s : State) : (stateLoadEffect s).srcAddr = s.srcAddr := by simp only [stateLoadEffect]
@[simp] theorem stateLoadEffect_srcLen (s : State) : (stateLoadEffect s).srcLen = s.srcLen := by simp only [stateLoadEffect]
@[simp] theorem stateLoadEffect_dstAddr (s : State) : (stateLoadEffect s).dstAddr = s.dstAddr := by simp only [stateLoadEffect]
@[simp] theorem stateLoadEffect_outLen (s : State) : (stateLoadEffect s).outLen = s.outLen := by simp only [stateLoadEffect]
@[simp] theorem stateLoadEffect_opA (s : State) : (stateLoadEffect s).opA = s.opA := by simp only [stateLoadEffect]
@[simp] theorem stateLoadEffect_opB (s : State) : (stateLoadEffect s).opB = s.opB := by simp only [stateLoadEffect]
@[simp] theorem stateLoadEffect_res (s : State) : (stateLoadEffect s).res = s.res := by simp only [stateLoadEffect]
@[simp] theorem stateLoadEffect_done (s : State) : (stateLoadEffect s).done = s.done := by simp only [stateLoadEffect]
@[simp] theorem stateLoadEffect_ovr (s : State) : (stateLoadEffect s).ovr = s.ovr := by simp only [stateLoadEffect]
@[simp] theorem stateLoadEffect_err (s : State) : (stateLoadEffect s).err = s.err := by simp only [stateLoadEffect]
@[simp] theorem stateLoadEffect_keyValid (s : State) : (stateLoadEffect s).keyValid = s.keyValid := by simp only [stateLoadEffect]
@[simp] theorem stateLoadEffect_nk (s : State) : (stateLoadEffect s).nk = s.nk := by simp only [stateLoadEffect]
@[simp] theorem stateLoadEffect_nr (s : State) : (stateLoadEffect s).nr = s.nr := by simp only [stateLoadEffect]
@[simp] theorem stateLoadEffect_sreg (s : State) : (stateLoadEffect s).sreg = s.mem.loadBlock s.srcBase := by simp only [stateLoadEffect]
@[simp] theorem stateLoadEffect_w (s : State) : (stateLoadEffect s).w = s.w := by simp only [stateLoadEffect]
@[simp] theorem stateLoadEffect_prev (s : State) : (stateLoadEffect s).prev = s.prev := by simp only [stateLoadEffect]
@[simp] theorem stateLoadEffect_hold (s : State) : (stateLoadEffect s).hold = s.hold := by simp only [stateLoadEffect]
@[simp] theorem stateLoadEffect_lat (s : State) : (stateLoadEffect s).lat = s.lat := by simp only [stateLoadEffect]
@[simp] theorem stateLoadEffect_fsm (s : State) : (stateLoadEffect s).fsm = s.fsm := by simp only [stateLoadEffect]
@[simp] theorem stateLoadEffect_rnd (s : State) : (stateLoadEffect s).rnd = s.rnd := by simp only [stateLoadEffect]
@[simp] theorem stateLoadEffect_blk (s : State) : (stateLoadEffect s).blk = s.blk := by simp only [stateLoadEffect]
@[simp] theorem stateLoadEffect_kidx (s : State) : (stateLoadEffect s).kidx = s.kidx := by simp only [stateLoadEffect]
@[simp] theorem stateLoadEffect_mem (s : State) : (stateLoadEffect s).mem = s.mem := by simp only [stateLoadEffect]
@[simp] theorem stateLoadEffect_scratch (s : State) : (stateLoadEffect s).scratch = s.scratch := by simp only [stateLoadEffect]
@[simp] theorem stateLoadEffect_hazard (s : State) : (stateLoadEffect s).hazard = s.hazard := by simp only [stateLoadEffect]
@[simp] theorem stateLoadEffect_draws (s : State) : (stateLoadEffect s).draws = s.draws := by simp only [stateLoadEffect]
@[simp] theorem stateLoadEffect_regData (s : State) : (stateLoadEffect s).regData = s.regData := by simp only [stateLoadEffect]
@[simp] theorem stateLoadEffect_memData (s : State) : (stateLoadEffect s).memData = s.memData := by simp only [stateLoadEffect]
@[simp] theorem stateLoadEffect_agenda (s : State) : (stateLoadEffect s).agenda = s.agenda := by simp only [stateLoadEffect]

/- `stateStoreEffect` -/
@[simp] theorem stateStoreEffect_cmd (s : State) : (stateStoreEffect s).cmd = s.cmd := by simp only [stateStoreEffect]
@[simp] theorem stateStoreEffect_keyAddr (s : State) : (stateStoreEffect s).keyAddr = s.keyAddr := by simp only [stateStoreEffect]
@[simp] theorem stateStoreEffect_keyLen (s : State) : (stateStoreEffect s).keyLen = s.keyLen := by simp only [stateStoreEffect]
@[simp] theorem stateStoreEffect_ivAddr (s : State) : (stateStoreEffect s).ivAddr = s.ivAddr := by simp only [stateStoreEffect]
@[simp] theorem stateStoreEffect_ivLen (s : State) : (stateStoreEffect s).ivLen = s.ivLen := by simp only [stateStoreEffect]
@[simp] theorem stateStoreEffect_srcAddr (s : State) : (stateStoreEffect s).srcAddr = s.srcAddr := by simp only [stateStoreEffect]
@[simp] theorem stateStoreEffect_srcLen (s : State) : (stateStoreEffect s).srcLen = s.srcLen := by simp only [stateStoreEffect]
@[simp] theorem stateStoreEffect_dstAddr (s : State) : (stateStoreEffect s).dstAddr = s.dstAddr := by simp only [stateStoreEffect]
@[simp] theorem stateStoreEffect_outLen (s : State) : (stateStoreEffect s).outLen = s.outLen := by simp only [stateStoreEffect]
@[simp] theorem stateStoreEffect_opA (s : State) : (stateStoreEffect s).opA = s.opA := by simp only [stateStoreEffect]
@[simp] theorem stateStoreEffect_opB (s : State) : (stateStoreEffect s).opB = s.opB := by simp only [stateStoreEffect]
@[simp] theorem stateStoreEffect_res (s : State) : (stateStoreEffect s).res = s.res := by simp only [stateStoreEffect]
@[simp] theorem stateStoreEffect_done (s : State) : (stateStoreEffect s).done = s.done := by simp only [stateStoreEffect]
@[simp] theorem stateStoreEffect_ovr (s : State) : (stateStoreEffect s).ovr = s.ovr := by simp only [stateStoreEffect]
@[simp] theorem stateStoreEffect_err (s : State) : (stateStoreEffect s).err = s.err := by simp only [stateStoreEffect]
@[simp] theorem stateStoreEffect_keyValid (s : State) : (stateStoreEffect s).keyValid = s.keyValid := by simp only [stateStoreEffect]
@[simp] theorem stateStoreEffect_nk (s : State) : (stateStoreEffect s).nk = s.nk := by simp only [stateStoreEffect]
@[simp] theorem stateStoreEffect_nr (s : State) : (stateStoreEffect s).nr = s.nr := by simp only [stateStoreEffect]
@[simp] theorem stateStoreEffect_sreg (s : State) : (stateStoreEffect s).sreg = s.sreg := by simp only [stateStoreEffect]
@[simp] theorem stateStoreEffect_w (s : State) : (stateStoreEffect s).w = s.w := by simp only [stateStoreEffect]
@[simp] theorem stateStoreEffect_prev (s : State) : (stateStoreEffect s).prev = s.prev := by simp only [stateStoreEffect]
@[simp] theorem stateStoreEffect_hold (s : State) : (stateStoreEffect s).hold = s.hold := by simp only [stateStoreEffect]
@[simp] theorem stateStoreEffect_lat (s : State) : (stateStoreEffect s).lat = s.lat := by simp only [stateStoreEffect]
@[simp] theorem stateStoreEffect_fsm (s : State) : (stateStoreEffect s).fsm = s.fsm := by simp only [stateStoreEffect]
@[simp] theorem stateStoreEffect_rnd (s : State) : (stateStoreEffect s).rnd = s.rnd := by simp only [stateStoreEffect]
@[simp] theorem stateStoreEffect_blk (s : State) : (stateStoreEffect s).blk = s.blk := by simp only [stateStoreEffect]
@[simp] theorem stateStoreEffect_kidx (s : State) : (stateStoreEffect s).kidx = s.kidx := by simp only [stateStoreEffect]
@[simp] theorem stateStoreEffect_mem (s : State) : (stateStoreEffect s).mem = s.mem.storeBlock s.dstBase s.sreg := by simp only [stateStoreEffect]
@[simp] theorem stateStoreEffect_scratch (s : State) : (stateStoreEffect s).scratch = s.scratch := by simp only [stateStoreEffect]
@[simp] theorem stateStoreEffect_hazard (s : State) : (stateStoreEffect s).hazard = s.hazard := by simp only [stateStoreEffect]
@[simp] theorem stateStoreEffect_draws (s : State) : (stateStoreEffect s).draws = s.draws := by simp only [stateStoreEffect]
@[simp] theorem stateStoreEffect_regData (s : State) : (stateStoreEffect s).regData = s.regData := by simp only [stateStoreEffect]
@[simp] theorem stateStoreEffect_memData (s : State) : (stateStoreEffect s).memData = s.memData := by simp only [stateStoreEffect]
@[simp] theorem stateStoreEffect_agenda (s : State) : (stateStoreEffect s).agenda = s.agenda := by simp only [stateStoreEffect]

/- `addRoundKeyEffect` -/
@[simp] theorem addRoundKeyEffect_cmd (r : Nat) (s : State) : (addRoundKeyEffect r s).cmd = s.cmd := by simp only [addRoundKeyEffect, transformEffect]
@[simp] theorem addRoundKeyEffect_keyAddr (r : Nat) (s : State) : (addRoundKeyEffect r s).keyAddr = s.keyAddr := by simp only [addRoundKeyEffect, transformEffect]
@[simp] theorem addRoundKeyEffect_keyLen (r : Nat) (s : State) : (addRoundKeyEffect r s).keyLen = s.keyLen := by simp only [addRoundKeyEffect, transformEffect]
@[simp] theorem addRoundKeyEffect_ivAddr (r : Nat) (s : State) : (addRoundKeyEffect r s).ivAddr = s.ivAddr := by simp only [addRoundKeyEffect, transformEffect]
@[simp] theorem addRoundKeyEffect_ivLen (r : Nat) (s : State) : (addRoundKeyEffect r s).ivLen = s.ivLen := by simp only [addRoundKeyEffect, transformEffect]
@[simp] theorem addRoundKeyEffect_srcAddr (r : Nat) (s : State) : (addRoundKeyEffect r s).srcAddr = s.srcAddr := by simp only [addRoundKeyEffect, transformEffect]
@[simp] theorem addRoundKeyEffect_srcLen (r : Nat) (s : State) : (addRoundKeyEffect r s).srcLen = s.srcLen := by simp only [addRoundKeyEffect, transformEffect]
@[simp] theorem addRoundKeyEffect_dstAddr (r : Nat) (s : State) : (addRoundKeyEffect r s).dstAddr = s.dstAddr := by simp only [addRoundKeyEffect, transformEffect]
@[simp] theorem addRoundKeyEffect_outLen (r : Nat) (s : State) : (addRoundKeyEffect r s).outLen = s.outLen := by simp only [addRoundKeyEffect, transformEffect]
@[simp] theorem addRoundKeyEffect_opA (r : Nat) (s : State) : (addRoundKeyEffect r s).opA = s.opA := by simp only [addRoundKeyEffect, transformEffect]
@[simp] theorem addRoundKeyEffect_opB (r : Nat) (s : State) : (addRoundKeyEffect r s).opB = s.opB := by simp only [addRoundKeyEffect, transformEffect]
@[simp] theorem addRoundKeyEffect_res (r : Nat) (s : State) : (addRoundKeyEffect r s).res = s.res := by simp only [addRoundKeyEffect, transformEffect]
@[simp] theorem addRoundKeyEffect_done (r : Nat) (s : State) : (addRoundKeyEffect r s).done = s.done := by simp only [addRoundKeyEffect, transformEffect]
@[simp] theorem addRoundKeyEffect_ovr (r : Nat) (s : State) : (addRoundKeyEffect r s).ovr = s.ovr := by simp only [addRoundKeyEffect, transformEffect]
@[simp] theorem addRoundKeyEffect_err (r : Nat) (s : State) : (addRoundKeyEffect r s).err = s.err := by simp only [addRoundKeyEffect, transformEffect]
@[simp] theorem addRoundKeyEffect_keyValid (r : Nat) (s : State) : (addRoundKeyEffect r s).keyValid = s.keyValid := by simp only [addRoundKeyEffect, transformEffect]
@[simp] theorem addRoundKeyEffect_nk (r : Nat) (s : State) : (addRoundKeyEffect r s).nk = s.nk := by simp only [addRoundKeyEffect, transformEffect]
@[simp] theorem addRoundKeyEffect_nr (r : Nat) (s : State) : (addRoundKeyEffect r s).nr = s.nr := by simp only [addRoundKeyEffect, transformEffect]
@[simp] theorem addRoundKeyEffect_sreg (r : Nat) (s : State) : (addRoundKeyEffect r s).sreg = addRoundKey s.w r s.sreg := by simp only [addRoundKeyEffect, transformEffect]
@[simp] theorem addRoundKeyEffect_w (r : Nat) (s : State) : (addRoundKeyEffect r s).w = s.w := by simp only [addRoundKeyEffect, transformEffect]
@[simp] theorem addRoundKeyEffect_prev (r : Nat) (s : State) : (addRoundKeyEffect r s).prev = s.prev := by simp only [addRoundKeyEffect, transformEffect]
@[simp] theorem addRoundKeyEffect_hold (r : Nat) (s : State) : (addRoundKeyEffect r s).hold = s.hold := by simp only [addRoundKeyEffect, transformEffect]
@[simp] theorem addRoundKeyEffect_lat (r : Nat) (s : State) : (addRoundKeyEffect r s).lat = s.lat := by simp only [addRoundKeyEffect, transformEffect]
@[simp] theorem addRoundKeyEffect_fsm (r : Nat) (s : State) : (addRoundKeyEffect r s).fsm = s.fsm := by simp only [addRoundKeyEffect, transformEffect]
@[simp] theorem addRoundKeyEffect_rnd (r : Nat) (s : State) : (addRoundKeyEffect r s).rnd = s.rnd := by simp only [addRoundKeyEffect, transformEffect]
@[simp] theorem addRoundKeyEffect_blk (r : Nat) (s : State) : (addRoundKeyEffect r s).blk = s.blk := by simp only [addRoundKeyEffect, transformEffect]
@[simp] theorem addRoundKeyEffect_kidx (r : Nat) (s : State) : (addRoundKeyEffect r s).kidx = s.kidx := by simp only [addRoundKeyEffect, transformEffect]
@[simp] theorem addRoundKeyEffect_mem (r : Nat) (s : State) : (addRoundKeyEffect r s).mem = s.mem := by simp only [addRoundKeyEffect, transformEffect]
@[simp] theorem addRoundKeyEffect_scratch (r : Nat) (s : State) : (addRoundKeyEffect r s).scratch = s.scratch := by simp only [addRoundKeyEffect, transformEffect]
@[simp] theorem addRoundKeyEffect_hazard (r : Nat) (s : State) : (addRoundKeyEffect r s).hazard = s.hazard := by simp only [addRoundKeyEffect, transformEffect]
@[simp] theorem addRoundKeyEffect_draws (r : Nat) (s : State) : (addRoundKeyEffect r s).draws = s.draws := by simp only [addRoundKeyEffect, transformEffect]
@[simp] theorem addRoundKeyEffect_regData (r : Nat) (s : State) : (addRoundKeyEffect r s).regData = s.regData := by simp only [addRoundKeyEffect, transformEffect]
@[simp] theorem addRoundKeyEffect_memData (r : Nat) (s : State) : (addRoundKeyEffect r s).memData = s.memData := by simp only [addRoundKeyEffect, transformEffect]
@[simp] theorem addRoundKeyEffect_agenda (r : Nat) (s : State) : (addRoundKeyEffect r s).agenda = s.agenda := by simp only [addRoundKeyEffect, transformEffect]

/- `keyExpandEffect` -/
@[simp] theorem keyExpandEffect_cmd (s : State) : (keyExpandEffect s).cmd = s.cmd := by simp only [keyExpandEffect, setKeyParams, State.keyBytes]
@[simp] theorem keyExpandEffect_keyAddr (s : State) : (keyExpandEffect s).keyAddr = s.keyAddr := by simp only [keyExpandEffect, setKeyParams, State.keyBytes]
@[simp] theorem keyExpandEffect_keyLen (s : State) : (keyExpandEffect s).keyLen = s.keyLen := by simp only [keyExpandEffect, setKeyParams, State.keyBytes]
@[simp] theorem keyExpandEffect_ivAddr (s : State) : (keyExpandEffect s).ivAddr = s.ivAddr := by simp only [keyExpandEffect, setKeyParams, State.keyBytes]
@[simp] theorem keyExpandEffect_ivLen (s : State) : (keyExpandEffect s).ivLen = s.ivLen := by simp only [keyExpandEffect, setKeyParams, State.keyBytes]
@[simp] theorem keyExpandEffect_srcAddr (s : State) : (keyExpandEffect s).srcAddr = s.srcAddr := by simp only [keyExpandEffect, setKeyParams, State.keyBytes]
@[simp] theorem keyExpandEffect_srcLen (s : State) : (keyExpandEffect s).srcLen = s.srcLen := by simp only [keyExpandEffect, setKeyParams, State.keyBytes]
@[simp] theorem keyExpandEffect_dstAddr (s : State) : (keyExpandEffect s).dstAddr = s.dstAddr := by simp only [keyExpandEffect, setKeyParams, State.keyBytes]
@[simp] theorem keyExpandEffect_outLen (s : State) : (keyExpandEffect s).outLen = s.outLen := by simp only [keyExpandEffect, setKeyParams, State.keyBytes]
@[simp] theorem keyExpandEffect_opA (s : State) : (keyExpandEffect s).opA = s.opA := by simp only [keyExpandEffect, setKeyParams, State.keyBytes]
@[simp] theorem keyExpandEffect_opB (s : State) : (keyExpandEffect s).opB = s.opB := by simp only [keyExpandEffect, setKeyParams, State.keyBytes]
@[simp] theorem keyExpandEffect_res (s : State) : (keyExpandEffect s).res = s.res := by simp only [keyExpandEffect, setKeyParams, State.keyBytes]
@[simp] theorem keyExpandEffect_done (s : State) : (keyExpandEffect s).done = s.done := by simp only [keyExpandEffect, setKeyParams, State.keyBytes]
@[simp] theorem keyExpandEffect_ovr (s : State) : (keyExpandEffect s).ovr = s.ovr := by simp only [keyExpandEffect, setKeyParams, State.keyBytes]
@[simp] theorem keyExpandEffect_err (s : State) : (keyExpandEffect s).err = s.err := by simp only [keyExpandEffect, setKeyParams, State.keyBytes]
@[simp] theorem keyExpandEffect_keyValid (s : State) : (keyExpandEffect s).keyValid = true := by simp only [keyExpandEffect, setKeyParams, State.keyBytes]
@[simp] theorem keyExpandEffect_nk (s : State) : (keyExpandEffect s).nk = BitVec.ofNat 4 (nkOf s.keyBytes) := by simp only [keyExpandEffect, setKeyParams, State.keyBytes]
@[simp] theorem keyExpandEffect_nr (s : State) : (keyExpandEffect s).nr = BitVec.ofNat 4 (nrOf s.keyBytes) := by simp only [keyExpandEffect, setKeyParams, State.keyBytes]
@[simp] theorem keyExpandEffect_sreg (s : State) : (keyExpandEffect s).sreg = s.sreg := by simp only [keyExpandEffect, setKeyParams, State.keyBytes]
@[simp] theorem keyExpandEffect_w (s : State) : (keyExpandEffect s).w = expandKey s.mem s.keyBase s.keyBytes s.w := by simp only [keyExpandEffect, setKeyParams, State.keyBytes]
@[simp] theorem keyExpandEffect_prev (s : State) : (keyExpandEffect s).prev = s.prev := by simp only [keyExpandEffect, setKeyParams, State.keyBytes]
@[simp] theorem keyExpandEffect_hold (s : State) : (keyExpandEffect s).hold = s.hold := by simp only [keyExpandEffect, setKeyParams, State.keyBytes]
@[simp] theorem keyExpandEffect_lat (s : State) : (keyExpandEffect s).lat = s.lat := by simp only [keyExpandEffect, setKeyParams, State.keyBytes]
@[simp] theorem keyExpandEffect_fsm (s : State) : (keyExpandEffect s).fsm = s.fsm := by simp only [keyExpandEffect, setKeyParams, State.keyBytes]
@[simp] theorem keyExpandEffect_rnd (s : State) : (keyExpandEffect s).rnd = s.rnd := by simp only [keyExpandEffect, setKeyParams, State.keyBytes]
@[simp] theorem keyExpandEffect_blk (s : State) : (keyExpandEffect s).blk = s.blk := by simp only [keyExpandEffect, setKeyParams, State.keyBytes]
@[simp] theorem keyExpandEffect_kidx (s : State) : (keyExpandEffect s).kidx = s.kidx := by simp only [keyExpandEffect, setKeyParams, State.keyBytes]
@[simp] theorem keyExpandEffect_mem (s : State) : (keyExpandEffect s).mem = s.mem := by simp only [keyExpandEffect, setKeyParams, State.keyBytes]
@[simp] theorem keyExpandEffect_scratch (s : State) : (keyExpandEffect s).scratch = s.scratch := by simp only [keyExpandEffect, setKeyParams, State.keyBytes]
@[simp] theorem keyExpandEffect_hazard (s : State) : (keyExpandEffect s).hazard = s.hazard := by simp only [keyExpandEffect, setKeyParams, State.keyBytes]
@[simp] theorem keyExpandEffect_draws (s : State) : (keyExpandEffect s).draws = s.draws := by simp only [keyExpandEffect, setKeyParams, State.keyBytes]
@[simp] theorem keyExpandEffect_regData (s : State) : (keyExpandEffect s).regData = s.regData := by simp only [keyExpandEffect, setKeyParams, State.keyBytes]
@[simp] theorem keyExpandEffect_memData (s : State) : (keyExpandEffect s).memData = s.memData := by simp only [keyExpandEffect, setKeyParams, State.keyBytes]
@[simp] theorem keyExpandEffect_agenda (s : State) : (keyExpandEffect s).agenda = s.agenda := by simp only [keyExpandEffect, setKeyParams, State.keyBytes]

/- `gfMulEffect` -/
@[simp] theorem gfMulEffect_cmd (s : State) : (gfMulEffect s).cmd = s.cmd := by simp only [gfMulEffect]
@[simp] theorem gfMulEffect_keyAddr (s : State) : (gfMulEffect s).keyAddr = s.keyAddr := by simp only [gfMulEffect]
@[simp] theorem gfMulEffect_keyLen (s : State) : (gfMulEffect s).keyLen = s.keyLen := by simp only [gfMulEffect]
@[simp] theorem gfMulEffect_ivAddr (s : State) : (gfMulEffect s).ivAddr = s.ivAddr := by simp only [gfMulEffect]
@[simp] theorem gfMulEffect_ivLen (s : State) : (gfMulEffect s).ivLen = s.ivLen := by simp only [gfMulEffect]
@[simp] theorem gfMulEffect_srcAddr (s : State) : (gfMulEffect s).srcAddr = s.srcAddr := by simp only [gfMulEffect]
@[simp] theorem gfMulEffect_srcLen (s : State) : (gfMulEffect s).srcLen = s.srcLen := by simp only [gfMulEffect]
@[simp] theorem gfMulEffect_dstAddr (s : State) : (gfMulEffect s).dstAddr = s.dstAddr := by simp only [gfMulEffect]
@[simp] theorem gfMulEffect_outLen (s : State) : (gfMulEffect s).outLen = s.outLen := by simp only [gfMulEffect]
@[simp] theorem gfMulEffect_opA (s : State) : (gfMulEffect s).opA = s.opA := by simp only [gfMulEffect]
@[simp] theorem gfMulEffect_opB (s : State) : (gfMulEffect s).opB = s.opB := by simp only [gfMulEffect]
@[simp] theorem gfMulEffect_res (s : State) : (gfMulEffect s).res = gfMult s.lat.opA s.lat.opB := by simp only [gfMulEffect]
@[simp] theorem gfMulEffect_done (s : State) : (gfMulEffect s).done = s.done := by simp only [gfMulEffect]
@[simp] theorem gfMulEffect_ovr (s : State) : (gfMulEffect s).ovr = s.ovr := by simp only [gfMulEffect]
@[simp] theorem gfMulEffect_err (s : State) : (gfMulEffect s).err = s.err := by simp only [gfMulEffect]
@[simp] theorem gfMulEffect_keyValid (s : State) : (gfMulEffect s).keyValid = s.keyValid := by simp only [gfMulEffect]
@[simp] theorem gfMulEffect_nk (s : State) : (gfMulEffect s).nk = s.nk := by simp only [gfMulEffect]
@[simp] theorem gfMulEffect_nr (s : State) : (gfMulEffect s).nr = s.nr := by simp only [gfMulEffect]
@[simp] theorem gfMulEffect_sreg (s : State) : (gfMulEffect s).sreg = s.sreg := by simp only [gfMulEffect]
@[simp] theorem gfMulEffect_w (s : State) : (gfMulEffect s).w = s.w := by simp only [gfMulEffect]
@[simp] theorem gfMulEffect_prev (s : State) : (gfMulEffect s).prev = s.prev := by simp only [gfMulEffect]
@[simp] theorem gfMulEffect_hold (s : State) : (gfMulEffect s).hold = s.hold := by simp only [gfMulEffect]
@[simp] theorem gfMulEffect_lat (s : State) : (gfMulEffect s).lat = s.lat := by simp only [gfMulEffect]
@[simp] theorem gfMulEffect_fsm (s : State) : (gfMulEffect s).fsm = s.fsm := by simp only [gfMulEffect]
@[simp] theorem gfMulEffect_rnd (s : State) : (gfMulEffect s).rnd = s.rnd := by simp only [gfMulEffect]
@[simp] theorem gfMulEffect_blk (s : State) : (gfMulEffect s).blk = s.blk := by simp only [gfMulEffect]
@[simp] theorem gfMulEffect_kidx (s : State) : (gfMulEffect s).kidx = s.kidx := by simp only [gfMulEffect]
@[simp] theorem gfMulEffect_mem (s : State) : (gfMulEffect s).mem = s.mem := by simp only [gfMulEffect]
@[simp] theorem gfMulEffect_scratch (s : State) : (gfMulEffect s).scratch = s.scratch := by simp only [gfMulEffect]
@[simp] theorem gfMulEffect_hazard (s : State) : (gfMulEffect s).hazard = s.hazard := by simp only [gfMulEffect]
@[simp] theorem gfMulEffect_draws (s : State) : (gfMulEffect s).draws = s.draws := by simp only [gfMulEffect]
@[simp] theorem gfMulEffect_regData (s : State) : (gfMulEffect s).regData = s.regData := by simp only [gfMulEffect]
@[simp] theorem gfMulEffect_memData (s : State) : (gfMulEffect s).memData = s.memData := by simp only [gfMulEffect]
@[simp] theorem gfMulEffect_agenda (s : State) : (gfMulEffect s).agenda = s.agenda := by simp only [gfMulEffect]

/- `gfDoubleEffect` -/
@[simp] theorem gfDoubleEffect_cmd (s : State) : (gfDoubleEffect s).cmd = s.cmd := by simp only [gfDoubleEffect]
@[simp] theorem gfDoubleEffect_keyAddr (s : State) : (gfDoubleEffect s).keyAddr = s.keyAddr := by simp only [gfDoubleEffect]
@[simp] theorem gfDoubleEffect_keyLen (s : State) : (gfDoubleEffect s).keyLen = s.keyLen := by simp only [gfDoubleEffect]
@[simp] theorem gfDoubleEffect_ivAddr (s : State) : (gfDoubleEffect s).ivAddr = s.ivAddr := by simp only [gfDoubleEffect]
@[simp] theorem gfDoubleEffect_ivLen (s : State) : (gfDoubleEffect s).ivLen = s.ivLen := by simp only [gfDoubleEffect]
@[simp] theorem gfDoubleEffect_srcAddr (s : State) : (gfDoubleEffect s).srcAddr = s.srcAddr := by simp only [gfDoubleEffect]
@[simp] theorem gfDoubleEffect_srcLen (s : State) : (gfDoubleEffect s).srcLen = s.srcLen := by simp only [gfDoubleEffect]
@[simp] theorem gfDoubleEffect_dstAddr (s : State) : (gfDoubleEffect s).dstAddr = s.dstAddr := by simp only [gfDoubleEffect]
@[simp] theorem gfDoubleEffect_outLen (s : State) : (gfDoubleEffect s).outLen = s.outLen := by simp only [gfDoubleEffect]
@[simp] theorem gfDoubleEffect_opA (s : State) : (gfDoubleEffect s).opA = s.opA := by simp only [gfDoubleEffect]
@[simp] theorem gfDoubleEffect_opB (s : State) : (gfDoubleEffect s).opB = s.opB := by simp only [gfDoubleEffect]
@[simp] theorem gfDoubleEffect_res (s : State) : (gfDoubleEffect s).res = gfDouble s.lat.opA := by simp only [gfDoubleEffect]
@[simp] theorem gfDoubleEffect_done (s : State) : (gfDoubleEffect s).done = s.done := by simp only [gfDoubleEffect]
@[simp] theorem gfDoubleEffect_ovr (s : State) : (gfDoubleEffect s).ovr = s.ovr := by simp only [gfDoubleEffect]
@[simp] theorem gfDoubleEffect_err (s : State) : (gfDoubleEffect s).err = s.err := by simp only [gfDoubleEffect]
@[simp] theorem gfDoubleEffect_keyValid (s : State) : (gfDoubleEffect s).keyValid = s.keyValid := by simp only [gfDoubleEffect]
@[simp] theorem gfDoubleEffect_nk (s : State) : (gfDoubleEffect s).nk = s.nk := by simp only [gfDoubleEffect]
@[simp] theorem gfDoubleEffect_nr (s : State) : (gfDoubleEffect s).nr = s.nr := by simp only [gfDoubleEffect]
@[simp] theorem gfDoubleEffect_sreg (s : State) : (gfDoubleEffect s).sreg = s.sreg := by simp only [gfDoubleEffect]
@[simp] theorem gfDoubleEffect_w (s : State) : (gfDoubleEffect s).w = s.w := by simp only [gfDoubleEffect]
@[simp] theorem gfDoubleEffect_prev (s : State) : (gfDoubleEffect s).prev = s.prev := by simp only [gfDoubleEffect]
@[simp] theorem gfDoubleEffect_hold (s : State) : (gfDoubleEffect s).hold = s.hold := by simp only [gfDoubleEffect]
@[simp] theorem gfDoubleEffect_lat (s : State) : (gfDoubleEffect s).lat = s.lat := by simp only [gfDoubleEffect]
@[simp] theorem gfDoubleEffect_fsm (s : State) : (gfDoubleEffect s).fsm = s.fsm := by simp only [gfDoubleEffect]
@[simp] theorem gfDoubleEffect_rnd (s : State) : (gfDoubleEffect s).rnd = s.rnd := by simp only [gfDoubleEffect]
@[simp] theorem gfDoubleEffect_blk (s : State) : (gfDoubleEffect s).blk = s.blk := by simp only [gfDoubleEffect]
@[simp] theorem gfDoubleEffect_kidx (s : State) : (gfDoubleEffect s).kidx = s.kidx := by simp only [gfDoubleEffect]
@[simp] theorem gfDoubleEffect_mem (s : State) : (gfDoubleEffect s).mem = s.mem := by simp only [gfDoubleEffect]
@[simp] theorem gfDoubleEffect_scratch (s : State) : (gfDoubleEffect s).scratch = s.scratch := by simp only [gfDoubleEffect]
@[simp] theorem gfDoubleEffect_hazard (s : State) : (gfDoubleEffect s).hazard = s.hazard := by simp only [gfDoubleEffect]
@[simp] theorem gfDoubleEffect_draws (s : State) : (gfDoubleEffect s).draws = s.draws := by simp only [gfDoubleEffect]
@[simp] theorem gfDoubleEffect_regData (s : State) : (gfDoubleEffect s).regData = s.regData := by simp only [gfDoubleEffect]
@[simp] theorem gfDoubleEffect_memData (s : State) : (gfDoubleEffect s).memData = s.memData := by simp only [gfDoubleEffect]
@[simp] theorem gfDoubleEffect_agenda (s : State) : (gfDoubleEffect s).agenda = s.agenda := by simp only [gfDoubleEffect]

/- `sboxEffect` -/
@[simp] theorem sboxEffect_cmd (s : State) : (sboxEffect s).cmd = s.cmd := by simp only [sboxEffect]
@[simp] theorem sboxEffect_keyAddr (s : State) : (sboxEffect s).keyAddr = s.keyAddr := by simp only [sboxEffect]
@[simp] theorem sboxEffect_keyLen (s : State) : (sboxEffect s).keyLen = s.keyLen := by simp only [sboxEffect]
@[simp] theorem sboxEffect_ivAddr (s : State) : (sboxEffect s).ivAddr = s.ivAddr := by simp only [sboxEffect]
@[simp] theorem sboxEffect_ivLen (s : State) : (sboxEffect s).ivLen = s.ivLen := by simp only [sboxEffect]
@[simp] theorem sboxEffect_srcAddr (s : State) : (sboxEffect s).srcAddr = s.srcAddr := by simp only [sboxEffect]
@[simp] theorem sboxEffect_srcLen (s : State) : (sboxEffect s).srcLen = s.srcLen := by simp only [sboxEffect]
@[simp] theorem sboxEffect_dstAddr (s : State) : (sboxEffect s).dstAddr = s.dstAddr := by simp only [sboxEffect]
@[simp] theorem sboxEffect_outLen (s : State) : (sboxEffect s).outLen = s.outLen := by simp only [sboxEffect]
@[simp] theorem sboxEffect_opA (s : State) : (sboxEffect s).opA = s.opA := by simp only [sboxEffect]
@[simp] theorem sboxEffect_opB (s : State) : (sboxEffect s).opB = s.opB := by simp only [sboxEffect]
@[simp] theorem sboxEffect_res (s : State) : (sboxEffect s).res = sboxAt s.lat.opA := by simp only [sboxEffect]
@[simp] theorem sboxEffect_done (s : State) : (sboxEffect s).done = s.done := by simp only [sboxEffect]
@[simp] theorem sboxEffect_ovr (s : State) : (sboxEffect s).ovr = s.ovr := by simp only [sboxEffect]
@[simp] theorem sboxEffect_err (s : State) : (sboxEffect s).err = s.err := by simp only [sboxEffect]
@[simp] theorem sboxEffect_keyValid (s : State) : (sboxEffect s).keyValid = s.keyValid := by simp only [sboxEffect]
@[simp] theorem sboxEffect_nk (s : State) : (sboxEffect s).nk = s.nk := by simp only [sboxEffect]
@[simp] theorem sboxEffect_nr (s : State) : (sboxEffect s).nr = s.nr := by simp only [sboxEffect]
@[simp] theorem sboxEffect_sreg (s : State) : (sboxEffect s).sreg = s.sreg := by simp only [sboxEffect]
@[simp] theorem sboxEffect_w (s : State) : (sboxEffect s).w = s.w := by simp only [sboxEffect]
@[simp] theorem sboxEffect_prev (s : State) : (sboxEffect s).prev = s.prev := by simp only [sboxEffect]
@[simp] theorem sboxEffect_hold (s : State) : (sboxEffect s).hold = s.hold := by simp only [sboxEffect]
@[simp] theorem sboxEffect_lat (s : State) : (sboxEffect s).lat = s.lat := by simp only [sboxEffect]
@[simp] theorem sboxEffect_fsm (s : State) : (sboxEffect s).fsm = s.fsm := by simp only [sboxEffect]
@[simp] theorem sboxEffect_rnd (s : State) : (sboxEffect s).rnd = s.rnd := by simp only [sboxEffect]
@[simp] theorem sboxEffect_blk (s : State) : (sboxEffect s).blk = s.blk := by simp only [sboxEffect]
@[simp] theorem sboxEffect_kidx (s : State) : (sboxEffect s).kidx = s.kidx := by simp only [sboxEffect]
@[simp] theorem sboxEffect_mem (s : State) : (sboxEffect s).mem = s.mem := by simp only [sboxEffect]
@[simp] theorem sboxEffect_scratch (s : State) : (sboxEffect s).scratch = s.scratch := by simp only [sboxEffect]
@[simp] theorem sboxEffect_hazard (s : State) : (sboxEffect s).hazard = s.hazard := by simp only [sboxEffect]
@[simp] theorem sboxEffect_draws (s : State) : (sboxEffect s).draws = s.draws := by simp only [sboxEffect]
@[simp] theorem sboxEffect_regData (s : State) : (sboxEffect s).regData = s.regData := by simp only [sboxEffect]
@[simp] theorem sboxEffect_memData (s : State) : (sboxEffect s).memData = s.memData := by simp only [sboxEffect]
@[simp] theorem sboxEffect_agenda (s : State) : (sboxEffect s).agenda = s.agenda := by simp only [sboxEffect]

/- `invSboxEffect` -/
@[simp] theorem invSboxEffect_cmd (s : State) : (invSboxEffect s).cmd = s.cmd := by simp only [invSboxEffect]
@[simp] theorem invSboxEffect_keyAddr (s : State) : (invSboxEffect s).keyAddr = s.keyAddr := by simp only [invSboxEffect]
@[simp] theorem invSboxEffect_keyLen (s : State) : (invSboxEffect s).keyLen = s.keyLen := by simp only [invSboxEffect]
@[simp] theorem invSboxEffect_ivAddr (s : State) : (invSboxEffect s).ivAddr = s.ivAddr := by simp only [invSboxEffect]
@[simp] theorem invSboxEffect_ivLen (s : State) : (invSboxEffect s).ivLen = s.ivLen := by simp only [invSboxEffect]
@[simp] theorem invSboxEffect_srcAddr (s : State) : (invSboxEffect s).srcAddr = s.srcAddr := by simp only [invSboxEffect]
@[simp] theorem invSboxEffect_srcLen (s : State) : (invSboxEffect s).srcLen = s.srcLen := by simp only [invSboxEffect]
@[simp] theorem invSboxEffect_dstAddr (s : State) : (invSboxEffect s).dstAddr = s.dstAddr := by simp only [invSboxEffect]
@[simp] theorem invSboxEffect_outLen (s : State) : (invSboxEffect s).outLen = s.outLen := by simp only [invSboxEffect]
@[simp] theorem invSboxEffect_opA (s : State) : (invSboxEffect s).opA = s.opA := by simp only [invSboxEffect]
@[simp] theorem invSboxEffect_opB (s : State) : (invSboxEffect s).opB = s.opB := by simp only [invSboxEffect]
@[simp] theorem invSboxEffect_res (s : State) : (invSboxEffect s).res = invSboxAt s.lat.opA := by simp only [invSboxEffect]
@[simp] theorem invSboxEffect_done (s : State) : (invSboxEffect s).done = s.done := by simp only [invSboxEffect]
@[simp] theorem invSboxEffect_ovr (s : State) : (invSboxEffect s).ovr = s.ovr := by simp only [invSboxEffect]
@[simp] theorem invSboxEffect_err (s : State) : (invSboxEffect s).err = s.err := by simp only [invSboxEffect]
@[simp] theorem invSboxEffect_keyValid (s : State) : (invSboxEffect s).keyValid = s.keyValid := by simp only [invSboxEffect]
@[simp] theorem invSboxEffect_nk (s : State) : (invSboxEffect s).nk = s.nk := by simp only [invSboxEffect]
@[simp] theorem invSboxEffect_nr (s : State) : (invSboxEffect s).nr = s.nr := by simp only [invSboxEffect]
@[simp] theorem invSboxEffect_sreg (s : State) : (invSboxEffect s).sreg = s.sreg := by simp only [invSboxEffect]
@[simp] theorem invSboxEffect_w (s : State) : (invSboxEffect s).w = s.w := by simp only [invSboxEffect]
@[simp] theorem invSboxEffect_prev (s : State) : (invSboxEffect s).prev = s.prev := by simp only [invSboxEffect]
@[simp] theorem invSboxEffect_hold (s : State) : (invSboxEffect s).hold = s.hold := by simp only [invSboxEffect]
@[simp] theorem invSboxEffect_lat (s : State) : (invSboxEffect s).lat = s.lat := by simp only [invSboxEffect]
@[simp] theorem invSboxEffect_fsm (s : State) : (invSboxEffect s).fsm = s.fsm := by simp only [invSboxEffect]
@[simp] theorem invSboxEffect_rnd (s : State) : (invSboxEffect s).rnd = s.rnd := by simp only [invSboxEffect]
@[simp] theorem invSboxEffect_blk (s : State) : (invSboxEffect s).blk = s.blk := by simp only [invSboxEffect]
@[simp] theorem invSboxEffect_kidx (s : State) : (invSboxEffect s).kidx = s.kidx := by simp only [invSboxEffect]
@[simp] theorem invSboxEffect_mem (s : State) : (invSboxEffect s).mem = s.mem := by simp only [invSboxEffect]
@[simp] theorem invSboxEffect_scratch (s : State) : (invSboxEffect s).scratch = s.scratch := by simp only [invSboxEffect]
@[simp] theorem invSboxEffect_hazard (s : State) : (invSboxEffect s).hazard = s.hazard := by simp only [invSboxEffect]
@[simp] theorem invSboxEffect_draws (s : State) : (invSboxEffect s).draws = s.draws := by simp only [invSboxEffect]
@[simp] theorem invSboxEffect_regData (s : State) : (invSboxEffect s).regData = s.regData := by simp only [invSboxEffect]
@[simp] theorem invSboxEffect_memData (s : State) : (invSboxEffect s).memData = s.memData := by simp only [invSboxEffect]
@[simp] theorem invSboxEffect_agenda (s : State) : (invSboxEffect s).agenda = s.agenda := by simp only [invSboxEffect]

/- `ecbEncEffect` -/
@[simp] theorem ecbEncEffect_cmd (s : State) : (ecbEncEffect s).cmd = s.cmd := by simp only [ecbEncEffect, setOutLen]
@[simp] theorem ecbEncEffect_keyAddr (s : State) : (ecbEncEffect s).keyAddr = s.keyAddr := by simp only [ecbEncEffect, setOutLen]
@[simp] theorem ecbEncEffect_keyLen (s : State) : (ecbEncEffect s).keyLen = s.keyLen := by simp only [ecbEncEffect, setOutLen]
@[simp] theorem ecbEncEffect_ivAddr (s : State) : (ecbEncEffect s).ivAddr = s.ivAddr := by simp only [ecbEncEffect, setOutLen]
@[simp] theorem ecbEncEffect_ivLen (s : State) : (ecbEncEffect s).ivLen = s.ivLen := by simp only [ecbEncEffect, setOutLen]
@[simp] theorem ecbEncEffect_srcAddr (s : State) : (ecbEncEffect s).srcAddr = s.srcAddr := by simp only [ecbEncEffect, setOutLen]
@[simp] theorem ecbEncEffect_srcLen (s : State) : (ecbEncEffect s).srcLen = s.srcLen := by simp only [ecbEncEffect, setOutLen]
@[simp] theorem ecbEncEffect_dstAddr (s : State) : (ecbEncEffect s).dstAddr = s.dstAddr := by simp only [ecbEncEffect, setOutLen]
@[simp] theorem ecbEncEffect_outLen (s : State) : (ecbEncEffect s).outLen = BitVec.ofNat 32 (encBytes s.srcBytes) := by simp only [ecbEncEffect, setOutLen]
@[simp] theorem ecbEncEffect_opA (s : State) : (ecbEncEffect s).opA = s.opA := by simp only [ecbEncEffect, setOutLen]
@[simp] theorem ecbEncEffect_opB (s : State) : (ecbEncEffect s).opB = s.opB := by simp only [ecbEncEffect, setOutLen]
@[simp] theorem ecbEncEffect_res (s : State) : (ecbEncEffect s).res = s.res := by simp only [ecbEncEffect, setOutLen]
@[simp] theorem ecbEncEffect_done (s : State) : (ecbEncEffect s).done = s.done := by simp only [ecbEncEffect, setOutLen]
@[simp] theorem ecbEncEffect_ovr (s : State) : (ecbEncEffect s).ovr = s.ovr := by simp only [ecbEncEffect, setOutLen]
@[simp] theorem ecbEncEffect_err (s : State) : (ecbEncEffect s).err = s.err := by simp only [ecbEncEffect, setOutLen]
@[simp] theorem ecbEncEffect_keyValid (s : State) : (ecbEncEffect s).keyValid = s.keyValid := by simp only [ecbEncEffect, setOutLen]
@[simp] theorem ecbEncEffect_nk (s : State) : (ecbEncEffect s).nk = s.nk := by simp only [ecbEncEffect, setOutLen]
@[simp] theorem ecbEncEffect_nr (s : State) : (ecbEncEffect s).nr = s.nr := by simp only [ecbEncEffect, setOutLen]
@[simp] theorem ecbEncEffect_sreg (s : State) : (ecbEncEffect s).sreg = (ecbEncPass s).sreg := by simp only [ecbEncEffect, setOutLen]
@[simp] theorem ecbEncEffect_w (s : State) : (ecbEncEffect s).w = s.w := by simp only [ecbEncEffect, setOutLen]
@[simp] theorem ecbEncEffect_prev (s : State) : (ecbEncEffect s).prev = s.prev := by simp only [ecbEncEffect, setOutLen]
@[simp] theorem ecbEncEffect_hold (s : State) : (ecbEncEffect s).hold = s.hold := by simp only [ecbEncEffect, setOutLen]
@[simp] theorem ecbEncEffect_lat (s : State) : (ecbEncEffect s).lat = s.lat := by simp only [ecbEncEffect, setOutLen]
@[simp] theorem ecbEncEffect_fsm (s : State) : (ecbEncEffect s).fsm = s.fsm := by simp only [ecbEncEffect, setOutLen]
@[simp] theorem ecbEncEffect_rnd (s : State) : (ecbEncEffect s).rnd = s.rnd := by simp only [ecbEncEffect, setOutLen]
@[simp] theorem ecbEncEffect_blk (s : State) : (ecbEncEffect s).blk = s.blk := by simp only [ecbEncEffect, setOutLen]
@[simp] theorem ecbEncEffect_kidx (s : State) : (ecbEncEffect s).kidx = s.kidx := by simp only [ecbEncEffect, setOutLen]
@[simp] theorem ecbEncEffect_mem (s : State) : (ecbEncEffect s).mem = (ecbEncPass s).mem := by simp only [ecbEncEffect, setOutLen]
@[simp] theorem ecbEncEffect_scratch (s : State) : (ecbEncEffect s).scratch = s.scratch := by simp only [ecbEncEffect, setOutLen]
@[simp] theorem ecbEncEffect_hazard (s : State) : (ecbEncEffect s).hazard = s.hazard := by simp only [ecbEncEffect, setOutLen]
@[simp] theorem ecbEncEffect_draws (s : State) : (ecbEncEffect s).draws = s.draws := by simp only [ecbEncEffect, setOutLen]
@[simp] theorem ecbEncEffect_regData (s : State) : (ecbEncEffect s).regData = s.regData := by simp only [ecbEncEffect, setOutLen]
@[simp] theorem ecbEncEffect_memData (s : State) : (ecbEncEffect s).memData = s.memData := by simp only [ecbEncEffect, setOutLen]
@[simp] theorem ecbEncEffect_agenda (s : State) : (ecbEncEffect s).agenda = s.agenda := by simp only [ecbEncEffect, setOutLen]

/- `cbcEncEffect` -/
@[simp] theorem cbcEncEffect_cmd (s : State) : (cbcEncEffect s).cmd = s.cmd := by simp only [cbcEncEffect, setOutLen]
@[simp] theorem cbcEncEffect_keyAddr (s : State) : (cbcEncEffect s).keyAddr = s.keyAddr := by simp only [cbcEncEffect, setOutLen]
@[simp] theorem cbcEncEffect_keyLen (s : State) : (cbcEncEffect s).keyLen = s.keyLen := by simp only [cbcEncEffect, setOutLen]
@[simp] theorem cbcEncEffect_ivAddr (s : State) : (cbcEncEffect s).ivAddr = s.ivAddr := by simp only [cbcEncEffect, setOutLen]
@[simp] theorem cbcEncEffect_ivLen (s : State) : (cbcEncEffect s).ivLen = s.ivLen := by simp only [cbcEncEffect, setOutLen]
@[simp] theorem cbcEncEffect_srcAddr (s : State) : (cbcEncEffect s).srcAddr = s.srcAddr := by simp only [cbcEncEffect, setOutLen]
@[simp] theorem cbcEncEffect_srcLen (s : State) : (cbcEncEffect s).srcLen = s.srcLen := by simp only [cbcEncEffect, setOutLen]
@[simp] theorem cbcEncEffect_dstAddr (s : State) : (cbcEncEffect s).dstAddr = s.dstAddr := by simp only [cbcEncEffect, setOutLen]
@[simp] theorem cbcEncEffect_outLen (s : State) : (cbcEncEffect s).outLen = BitVec.ofNat 32 (encBytes s.srcBytes) := by simp only [cbcEncEffect, setOutLen]
@[simp] theorem cbcEncEffect_opA (s : State) : (cbcEncEffect s).opA = s.opA := by simp only [cbcEncEffect, setOutLen]
@[simp] theorem cbcEncEffect_opB (s : State) : (cbcEncEffect s).opB = s.opB := by simp only [cbcEncEffect, setOutLen]
@[simp] theorem cbcEncEffect_res (s : State) : (cbcEncEffect s).res = s.res := by simp only [cbcEncEffect, setOutLen]
@[simp] theorem cbcEncEffect_done (s : State) : (cbcEncEffect s).done = s.done := by simp only [cbcEncEffect, setOutLen]
@[simp] theorem cbcEncEffect_ovr (s : State) : (cbcEncEffect s).ovr = s.ovr := by simp only [cbcEncEffect, setOutLen]
@[simp] theorem cbcEncEffect_err (s : State) : (cbcEncEffect s).err = s.err := by simp only [cbcEncEffect, setOutLen]
@[simp] theorem cbcEncEffect_keyValid (s : State) : (cbcEncEffect s).keyValid = s.keyValid := by simp only [cbcEncEffect, setOutLen]
@[simp] theorem cbcEncEffect_nk (s : State) : (cbcEncEffect s).nk = s.nk := by simp only [cbcEncEffect, setOutLen]
@[simp] theorem cbcEncEffect_nr (s : State) : (cbcEncEffect s).nr = s.nr := by simp only [cbcEncEffect, setOutLen]
@[simp] theorem cbcEncEffect_sreg (s : State) : (cbcEncEffect s).sreg = (cbcEncPass s).sreg := by simp only [cbcEncEffect, setOutLen]
@[simp] theorem cbcEncEffect_w (s : State) : (cbcEncEffect s).w = s.w := by simp only [cbcEncEffect, setOutLen]
@[simp] theorem cbcEncEffect_prev (s : State) : (cbcEncEffect s).prev = (cbcEncPass s).prev := by simp only [cbcEncEffect, setOutLen]
@[simp] theorem cbcEncEffect_hold (s : State) : (cbcEncEffect s).hold = s.hold := by simp only [cbcEncEffect, setOutLen]
@[simp] theorem cbcEncEffect_lat (s : State) : (cbcEncEffect s).lat = s.lat := by simp only [cbcEncEffect, setOutLen]
@[simp] theorem cbcEncEffect_fsm (s : State) : (cbcEncEffect s).fsm = s.fsm := by simp only [cbcEncEffect, setOutLen]
@[simp] theorem cbcEncEffect_rnd (s : State) : (cbcEncEffect s).rnd = s.rnd := by simp only [cbcEncEffect, setOutLen]
@[simp] theorem cbcEncEffect_blk (s : State) : (cbcEncEffect s).blk = s.blk := by simp only [cbcEncEffect, setOutLen]
@[simp] theorem cbcEncEffect_kidx (s : State) : (cbcEncEffect s).kidx = s.kidx := by simp only [cbcEncEffect, setOutLen]
@[simp] theorem cbcEncEffect_mem (s : State) : (cbcEncEffect s).mem = (cbcEncPass s).mem := by simp only [cbcEncEffect, setOutLen]
@[simp] theorem cbcEncEffect_scratch (s : State) : (cbcEncEffect s).scratch = s.scratch := by simp only [cbcEncEffect, setOutLen]
@[simp] theorem cbcEncEffect_hazard (s : State) : (cbcEncEffect s).hazard = s.hazard := by simp only [cbcEncEffect, setOutLen]
@[simp] theorem cbcEncEffect_draws (s : State) : (cbcEncEffect s).draws = s.draws := by simp only [cbcEncEffect, setOutLen]
@[simp] theorem cbcEncEffect_regData (s : State) : (cbcEncEffect s).regData = s.regData := by simp only [cbcEncEffect, setOutLen]
@[simp] theorem cbcEncEffect_memData (s : State) : (cbcEncEffect s).memData = s.memData := by simp only [cbcEncEffect, setOutLen]
@[simp] theorem cbcEncEffect_agenda (s : State) : (cbcEncEffect s).agenda = s.agenda := by simp only [cbcEncEffect, setOutLen]

/- `ecbDecEffect` -/
@[simp] theorem ecbDecEffect_cmd (s : State) : (ecbDecEffect s).cmd = s.cmd := by simp only [ecbDecEffect, setOutLen, precheckEffect]
@[simp] theorem ecbDecEffect_keyAddr (s : State) : (ecbDecEffect s).keyAddr = s.keyAddr := by simp only [ecbDecEffect, setOutLen, precheckEffect]
@[simp] theorem ecbDecEffect_keyLen (s : State) : (ecbDecEffect s).keyLen = s.keyLen := by simp only [ecbDecEffect, setOutLen, precheckEffect]
@[simp] theorem ecbDecEffect_ivAddr (s : State) : (ecbDecEffect s).ivAddr = s.ivAddr := by simp only [ecbDecEffect, setOutLen, precheckEffect]
@[simp] theorem ecbDecEffect_ivLen (s : State) : (ecbDecEffect s).ivLen = s.ivLen := by simp only [ecbDecEffect, setOutLen, precheckEffect]
@[simp] theorem ecbDecEffect_srcAddr (s : State) : (ecbDecEffect s).srcAddr = s.srcAddr := by simp only [ecbDecEffect, setOutLen, precheckEffect]
@[simp] theorem ecbDecEffect_srcLen (s : State) : (ecbDecEffect s).srcLen = s.srcLen := by simp only [ecbDecEffect, setOutLen, precheckEffect]
@[simp] theorem ecbDecEffect_dstAddr (s : State) : (ecbDecEffect s).dstAddr = s.dstAddr := by simp only [ecbDecEffect, setOutLen, precheckEffect]
@[simp] theorem ecbDecEffect_outLen (s : State) : (ecbDecEffect s).outLen = BitVec.ofNat 32 (decLength s.srcBytes (ecbDecHold s)) := by simp only [ecbDecEffect, setOutLen, precheckEffect]
@[simp] theorem ecbDecEffect_opA (s : State) : (ecbDecEffect s).opA = s.opA := by simp only [ecbDecEffect, setOutLen, precheckEffect]
@[simp] theorem ecbDecEffect_opB (s : State) : (ecbDecEffect s).opB = s.opB := by simp only [ecbDecEffect, setOutLen, precheckEffect]
@[simp] theorem ecbDecEffect_res (s : State) : (ecbDecEffect s).res = s.res := by simp only [ecbDecEffect, setOutLen, precheckEffect]
@[simp] theorem ecbDecEffect_done (s : State) : (ecbDecEffect s).done = s.done := by simp only [ecbDecEffect, setOutLen, precheckEffect]
@[simp] theorem ecbDecEffect_ovr (s : State) : (ecbDecEffect s).ovr = s.ovr := by simp only [ecbDecEffect, setOutLen, precheckEffect]
@[simp] theorem ecbDecEffect_err (s : State) : (ecbDecEffect s).err = s.err := by simp only [ecbDecEffect, setOutLen, precheckEffect]
@[simp] theorem ecbDecEffect_keyValid (s : State) : (ecbDecEffect s).keyValid = s.keyValid := by simp only [ecbDecEffect, setOutLen, precheckEffect]
@[simp] theorem ecbDecEffect_nk (s : State) : (ecbDecEffect s).nk = s.nk := by simp only [ecbDecEffect, setOutLen, precheckEffect]
@[simp] theorem ecbDecEffect_nr (s : State) : (ecbDecEffect s).nr = s.nr := by simp only [ecbDecEffect, setOutLen, precheckEffect]
@[simp] theorem ecbDecEffect_sreg (s : State) : (ecbDecEffect s).sreg = ecbDecHold s := by simp only [ecbDecEffect, setOutLen, precheckEffect]
@[simp] theorem ecbDecEffect_w (s : State) : (ecbDecEffect s).w = s.w := by simp only [ecbDecEffect, setOutLen, precheckEffect]
@[simp] theorem ecbDecEffect_prev (s : State) : (ecbDecEffect s).prev = s.prev := by simp only [ecbDecEffect, setOutLen, precheckEffect]
@[simp] theorem ecbDecEffect_hold (s : State) : (ecbDecEffect s).hold = ecbDecHold s := by simp only [ecbDecEffect, setOutLen, precheckEffect]
@[simp] theorem ecbDecEffect_lat (s : State) : (ecbDecEffect s).lat = s.lat := by simp only [ecbDecEffect, setOutLen, precheckEffect]
@[simp] theorem ecbDecEffect_fsm (s : State) : (ecbDecEffect s).fsm = s.fsm := by simp only [ecbDecEffect, setOutLen, precheckEffect]
@[simp] theorem ecbDecEffect_rnd (s : State) : (ecbDecEffect s).rnd = s.rnd := by simp only [ecbDecEffect, setOutLen, precheckEffect]
@[simp] theorem ecbDecEffect_blk (s : State) : (ecbDecEffect s).blk = s.blk := by simp only [ecbDecEffect, setOutLen, precheckEffect]
@[simp] theorem ecbDecEffect_kidx (s : State) : (ecbDecEffect s).kidx = s.kidx := by simp only [ecbDecEffect, setOutLen, precheckEffect]
@[simp] theorem ecbDecEffect_mem (s : State) : (ecbDecEffect s).mem = (ecbDecPass s).mem.storeBytes s.lastDst (unpadded (ecbDecHold s)) := by simp only [ecbDecEffect, setOutLen, precheckEffect]
@[simp] theorem ecbDecEffect_scratch (s : State) : (ecbDecEffect s).scratch = s.scratch := by simp only [ecbDecEffect, setOutLen, precheckEffect]
@[simp] theorem ecbDecEffect_hazard (s : State) : (ecbDecEffect s).hazard = s.hazard := by simp only [ecbDecEffect, setOutLen, precheckEffect]
@[simp] theorem ecbDecEffect_draws (s : State) : (ecbDecEffect s).draws = s.draws := by simp only [ecbDecEffect, setOutLen, precheckEffect]
@[simp] theorem ecbDecEffect_regData (s : State) : (ecbDecEffect s).regData = s.regData := by simp only [ecbDecEffect, setOutLen, precheckEffect]
@[simp] theorem ecbDecEffect_memData (s : State) : (ecbDecEffect s).memData = s.memData := by simp only [ecbDecEffect, setOutLen, precheckEffect]
@[simp] theorem ecbDecEffect_agenda (s : State) : (ecbDecEffect s).agenda = s.agenda := by simp only [ecbDecEffect, setOutLen, precheckEffect]

/- `cbcDecEffect` -/
@[simp] theorem cbcDecEffect_cmd (s : State) : (cbcDecEffect s).cmd = s.cmd := by simp only [cbcDecEffect, setOutLen, precheckEffect]
@[simp] theorem cbcDecEffect_keyAddr (s : State) : (cbcDecEffect s).keyAddr = s.keyAddr := by simp only [cbcDecEffect, setOutLen, precheckEffect]
@[simp] theorem cbcDecEffect_keyLen (s : State) : (cbcDecEffect s).keyLen = s.keyLen := by simp only [cbcDecEffect, setOutLen, precheckEffect]
@[simp] theorem cbcDecEffect_ivAddr (s : State) : (cbcDecEffect s).ivAddr = s.ivAddr := by simp only [cbcDecEffect, setOutLen, precheckEffect]
@[simp] theorem cbcDecEffect_ivLen (s : State) : (cbcDecEffect s).ivLen = s.ivLen := by simp only [cbcDecEffect, setOutLen, precheckEffect]
@[simp] theorem cbcDecEffect_srcAddr (s : State) : (cbcDecEffect s).srcAddr = s.srcAddr := by simp only [cbcDecEffect, setOutLen, precheckEffect]
@[simp] theorem cbcDecEffect_srcLen (s : State) : (cbcDecEffect s).srcLen = s.srcLen := by simp only [cbcDecEffect, setOutLen, precheckEffect]
@[simp] theorem cbcDecEffect_dstAddr (s : State) : (cbcDecEffect s).dstAddr = s.dstAddr := by simp only [cbcDecEffect, setOutLen, precheckEffect]
@[simp] theorem cbcDecEffect_outLen (s : State) : (cbcDecEffect s).outLen = BitVec.ofNat 32 (decLength s.srcBytes (cbcDecHold s)) := by simp only [cbcDecEffect, setOutLen, precheckEffect]
@[simp] theorem cbcDecEffect_opA (s : State) : (cbcDecEffect s).opA = s.opA := by simp only [cbcDecEffect, setOutLen, precheckEffect]
@[simp] theorem cbcDecEffect_opB (s : State) : (cbcDecEffect s).opB = s.opB := by simp only [cbcDecEffect, setOutLen, precheckEffect]
@[simp] theorem cbcDecEffect_res (s : State) : (cbcDecEffect s).res = s.res := by simp only [cbcDecEffect, setOutLen, precheckEffect]
@[simp] theorem cbcDecEffect_done (s : State) : (cbcDecEffect s).done = s.done := by simp only [cbcDecEffect, setOutLen, precheckEffect]
@[simp] theorem cbcDecEffect_ovr (s : State) : (cbcDecEffect s).ovr = s.ovr := by simp only [cbcDecEffect, setOutLen, precheckEffect]
@[simp] theorem cbcDecEffect_err (s : State) : (cbcDecEffect s).err = s.err := by simp only [cbcDecEffect, setOutLen, precheckEffect]
@[simp] theorem cbcDecEffect_keyValid (s : State) : (cbcDecEffect s).keyValid = s.keyValid := by simp only [cbcDecEffect, setOutLen, precheckEffect]
@[simp] theorem cbcDecEffect_nk (s : State) : (cbcDecEffect s).nk = s.nk := by simp only [cbcDecEffect, setOutLen, precheckEffect]
@[simp] theorem cbcDecEffect_nr (s : State) : (cbcDecEffect s).nr = s.nr := by simp only [cbcDecEffect, setOutLen, precheckEffect]
@[simp] theorem cbcDecEffect_sreg (s : State) : (cbcDecEffect s).sreg = cbcDecHold s := by simp only [cbcDecEffect, setOutLen, precheckEffect]
@[simp] theorem cbcDecEffect_w (s : State) : (cbcDecEffect s).w = s.w := by simp only [cbcDecEffect, setOutLen, precheckEffect]
@[simp] theorem cbcDecEffect_prev (s : State) : (cbcDecEffect s).prev = s.mem.loadBlock s.lastSrc := by simp only [cbcDecEffect, setOutLen, precheckEffect]
@[simp] theorem cbcDecEffect_hold (s : State) : (cbcDecEffect s).hold = cbcDecHold s := by simp only [cbcDecEffect, setOutLen, precheckEffect]
@[simp] theorem cbcDecEffect_lat (s : State) : (cbcDecEffect s).lat = s.lat := by simp only [cbcDecEffect, setOutLen, precheckEffect]
@[simp] theorem cbcDecEffect_fsm (s : State) : (cbcDecEffect s).fsm = s.fsm := by simp only [cbcDecEffect, setOutLen, precheckEffect]
@[simp] theorem cbcDecEffect_rnd (s : State) : (cbcDecEffect s).rnd = s.rnd := by simp only [cbcDecEffect, setOutLen, precheckEffect]
@[simp] theorem cbcDecEffect_blk (s : State) : (cbcDecEffect s).blk = s.blk := by simp only [cbcDecEffect, setOutLen, precheckEffect]
@[simp] theorem cbcDecEffect_kidx (s : State) : (cbcDecEffect s).kidx = s.kidx := by simp only [cbcDecEffect, setOutLen, precheckEffect]
@[simp] theorem cbcDecEffect_mem (s : State) : (cbcDecEffect s).mem = (cbcDecPass s).mem.storeBytes s.lastDst (unpadded (cbcDecHold s)) := by simp only [cbcDecEffect, setOutLen, precheckEffect]
@[simp] theorem cbcDecEffect_scratch (s : State) : (cbcDecEffect s).scratch = s.scratch := by simp only [cbcDecEffect, setOutLen, precheckEffect]
@[simp] theorem cbcDecEffect_hazard (s : State) : (cbcDecEffect s).hazard = s.hazard := by simp only [cbcDecEffect, setOutLen, precheckEffect]
@[simp] theorem cbcDecEffect_draws (s : State) : (cbcDecEffect s).draws = s.draws := by simp only [cbcDecEffect, setOutLen, precheckEffect]
@[simp] theorem cbcDecEffect_regData (s : State) : (cbcDecEffect s).regData = s.regData := by simp only [cbcDecEffect, setOutLen, precheckEffect]
@[simp] theorem cbcDecEffect_memData (s : State) : (cbcDecEffect s).memData = s.memData := by simp only [cbcDecEffect, setOutLen, precheckEffect]
@[simp] theorem cbcDecEffect_agenda (s : State) : (cbcDecEffect s).agenda = s.agenda := by simp only [cbcDecEffect, setOutLen, precheckEffect]

/- `writeStatus` -/
@[simp] theorem writeStatus_cmd (v : Word) (s : State) : (writeStatus v s).cmd = s.cmd := rfl
@[simp] theorem writeStatus_keyAddr (v : Word) (s : State) : (writeStatus v s).keyAddr = s.keyAddr := rfl
@[simp] theorem writeStatus_keyLen (v : Word) (s : State) : (writeStatus v s).keyLen = s.keyLen := rfl
@[simp] theorem writeStatus_ivAddr (v : Word) (s : State) : (writeStatus v s).ivAddr = s.ivAddr := rfl
@[simp] theorem writeStatus_ivLen (v : Word) (s : State) : (writeStatus v s).ivLen = s.ivLen := rfl
@[simp] theorem writeStatus_srcAddr (v : Word) (s : State) : (writeStatus v s).srcAddr = s.srcAddr := rfl
@[simp] theorem writeStatus_srcLen (v : Word) (s : State) : (writeStatus v s).srcLen = s.srcLen := rfl
@[simp] theorem writeStatus_dstAddr (v : Word) (s : State) : (writeStatus v s).dstAddr = s.dstAddr := rfl
@[simp] theorem writeStatus_outLen (v : Word) (s : State) : (writeStatus v s).outLen = s.outLen := rfl
@[simp] theorem writeStatus_opA (v : Word) (s : State) : (writeStatus v s).opA = s.opA := rfl
@[simp] theorem writeStatus_opB (v : Word) (s : State) : (writeStatus v s).opB = s.opB := rfl
@[simp] theorem writeStatus_res (v : Word) (s : State) : (writeStatus v s).res = s.res := rfl
@[simp] theorem writeStatus_done (v : Word) (s : State) : (writeStatus v s).done = (s.done && !v.getLsbD 1) := rfl
@[simp] theorem writeStatus_ovr (v : Word) (s : State) : (writeStatus v s).ovr = (s.ovr && !v.getLsbD 3) := rfl
@[simp] theorem writeStatus_err (v : Word) (s : State) : (writeStatus v s).err = s.err := rfl
@[simp] theorem writeStatus_keyValid (v : Word) (s : State) : (writeStatus v s).keyValid = s.keyValid := rfl
@[simp] theorem writeStatus_nk (v : Word) (s : State) : (writeStatus v s).nk = s.nk := rfl
@[simp] theorem writeStatus_nr (v : Word) (s : State) : (writeStatus v s).nr = s.nr := rfl
@[simp] theorem writeStatus_sreg (v : Word) (s : State) : (writeStatus v s).sreg = s.sreg := rfl
@[simp] theorem writeStatus_w (v : Word) (s : State) : (writeStatus v s).w = s.w := rfl
@[simp] theorem writeStatus_prev (v : Word) (s : State) : (writeStatus v s).prev = s.prev := rfl
@[simp] theorem writeStatus_hold (v : Word) (s : State) : (writeStatus v s).hold = s.hold := rfl
@[simp] theorem writeStatus_lat (v : Word) (s : State) : (writeStatus v s).lat = s.lat := rfl
@[simp] theorem writeStatus_fsm (v : Word) (s : State) : (writeStatus v s).fsm = s.fsm := rfl
@[simp] theorem writeStatus_rnd (v : Word) (s : State) : (writeStatus v s).rnd = s.rnd := rfl
@[simp] theorem writeStatus_blk (v : Word) (s : State) : (writeStatus v s).blk = s.blk := rfl
@[simp] theorem writeStatus_kidx (v : Word) (s : State) : (writeStatus v s).kidx = s.kidx := rfl
@[simp] theorem writeStatus_mem (v : Word) (s : State) : (writeStatus v s).mem = s.mem := rfl
@[simp] theorem writeStatus_scratch (v : Word) (s : State) : (writeStatus v s).scratch = s.scratch := rfl
@[simp] theorem writeStatus_hazard (v : Word) (s : State) : (writeStatus v s).hazard = s.hazard := rfl
@[simp] theorem writeStatus_draws (v : Word) (s : State) : (writeStatus v s).draws = s.draws := rfl
@[simp] theorem writeStatus_regData (v : Word) (s : State) : (writeStatus v s).regData = s.regData := rfl
@[simp] theorem writeStatus_memData (v : Word) (s : State) : (writeStatus v s).memData = s.memData := rfl
@[simp] theorem writeStatus_agenda (v : Word) (s : State) : (writeStatus v s).agenda = s.agenda := rfl

/- `raiseHazard` -/
@[simp] theorem raiseHazard_cmd (s : State) : (raiseHazard s).cmd = s.cmd := by simp only [raiseHazard, scrambleTouched]
@[simp] theorem raiseHazard_keyAddr (s : State) : (raiseHazard s).keyAddr = s.keyAddr := by simp only [raiseHazard, scrambleTouched]
@[simp] theorem raiseHazard_keyLen (s : State) : (raiseHazard s).keyLen = s.keyLen := by simp only [raiseHazard, scrambleTouched]
@[simp] theorem raiseHazard_ivAddr (s : State) : (raiseHazard s).ivAddr = s.ivAddr := by simp only [raiseHazard, scrambleTouched]
@[simp] theorem raiseHazard_ivLen (s : State) : (raiseHazard s).ivLen = s.ivLen := by simp only [raiseHazard, scrambleTouched]
@[simp] theorem raiseHazard_srcAddr (s : State) : (raiseHazard s).srcAddr = s.srcAddr := by simp only [raiseHazard, scrambleTouched]
@[simp] theorem raiseHazard_srcLen (s : State) : (raiseHazard s).srcLen = s.srcLen := by simp only [raiseHazard, scrambleTouched]
@[simp] theorem raiseHazard_dstAddr (s : State) : (raiseHazard s).dstAddr = s.dstAddr := by simp only [raiseHazard, scrambleTouched]
@[simp] theorem raiseHazard_outLen (s : State) : (raiseHazard s).outLen = s.outLen := by simp only [raiseHazard, scrambleTouched]
@[simp] theorem raiseHazard_opA (s : State) : (raiseHazard s).opA = s.opA := by simp only [raiseHazard, scrambleTouched]
@[simp] theorem raiseHazard_opB (s : State) : (raiseHazard s).opB = s.opB := by simp only [raiseHazard, scrambleTouched]
@[simp] theorem raiseHazard_res (s : State) : (raiseHazard s).res = s.res := by simp only [raiseHazard, scrambleTouched]
@[simp] theorem raiseHazard_done (s : State) : (raiseHazard s).done = s.done := by simp only [raiseHazard, scrambleTouched]
@[simp] theorem raiseHazard_ovr (s : State) : (raiseHazard s).ovr = s.ovr := by simp only [raiseHazard, scrambleTouched]
@[simp] theorem raiseHazard_err (s : State) : (raiseHazard s).err = s.err := by simp only [raiseHazard, scrambleTouched]
@[simp] theorem raiseHazard_keyValid (s : State) : (raiseHazard s).keyValid = s.keyValid := by simp only [raiseHazard, scrambleTouched]
@[simp] theorem raiseHazard_nk (s : State) : (raiseHazard s).nk = s.nk := by simp only [raiseHazard, scrambleTouched]
@[simp] theorem raiseHazard_nr (s : State) : (raiseHazard s).nr = s.nr := by simp only [raiseHazard, scrambleTouched]
@[simp] theorem raiseHazard_sreg (s : State) : (raiseHazard s).sreg = s.sreg := by simp only [raiseHazard, scrambleTouched]
@[simp] theorem raiseHazard_w (s : State) : (raiseHazard s).w = s.w := by simp only [raiseHazard, scrambleTouched]
@[simp] theorem raiseHazard_prev (s : State) : (raiseHazard s).prev = s.prev := by simp only [raiseHazard, scrambleTouched]
@[simp] theorem raiseHazard_hold (s : State) : (raiseHazard s).hold = s.hold := by simp only [raiseHazard, scrambleTouched]
@[simp] theorem raiseHazard_lat (s : State) : (raiseHazard s).lat = s.lat := by simp only [raiseHazard, scrambleTouched]
@[simp] theorem raiseHazard_fsm (s : State) : (raiseHazard s).fsm = s.fsm := by simp only [raiseHazard, scrambleTouched]
@[simp] theorem raiseHazard_rnd (s : State) : (raiseHazard s).rnd = s.rnd := by simp only [raiseHazard, scrambleTouched]
@[simp] theorem raiseHazard_blk (s : State) : (raiseHazard s).blk = s.blk := by simp only [raiseHazard, scrambleTouched]
@[simp] theorem raiseHazard_kidx (s : State) : (raiseHazard s).kidx = s.kidx := by simp only [raiseHazard, scrambleTouched]
@[simp] theorem raiseHazard_mem (s : State) : (raiseHazard s).mem = s.mem.scrambleRanges (touchedRanges s) s.draws := by simp only [raiseHazard, scrambleTouched]
@[simp] theorem raiseHazard_scratch (s : State) : (raiseHazard s).scratch = s.scratch := by simp only [raiseHazard, scrambleTouched]
@[simp] theorem raiseHazard_hazard (s : State) : (raiseHazard s).hazard = true := by simp only [raiseHazard, scrambleTouched]
@[simp] theorem raiseHazard_draws (s : State) : (raiseHazard s).draws = s.draws + rangesLength (touchedRanges s) := by simp only [raiseHazard, scrambleTouched]
@[simp] theorem raiseHazard_regData (s : State) : (raiseHazard s).regData = s.regData := by simp only [raiseHazard, scrambleTouched]
@[simp] theorem raiseHazard_memData (s : State) : (raiseHazard s).memData = s.memData := by simp only [raiseHazard, scrambleTouched]
@[simp] theorem raiseHazard_agenda (s : State) : (raiseHazard s).agenda = s.agenda := by simp only [raiseHazard, scrambleTouched]

/- `accept` -/
@[simp] theorem accept_cmd (v : Word) (s : State) : (accept v s).cmd = v := rfl
@[simp] theorem accept_keyAddr (v : Word) (s : State) : (accept v s).keyAddr = s.keyAddr := rfl
@[simp] theorem accept_keyLen (v : Word) (s : State) : (accept v s).keyLen = s.keyLen := rfl
@[simp] theorem accept_ivAddr (v : Word) (s : State) : (accept v s).ivAddr = s.ivAddr := rfl
@[simp] theorem accept_ivLen (v : Word) (s : State) : (accept v s).ivLen = s.ivLen := rfl
@[simp] theorem accept_srcAddr (v : Word) (s : State) : (accept v s).srcAddr = s.srcAddr := rfl
@[simp] theorem accept_srcLen (v : Word) (s : State) : (accept v s).srcLen = s.srcLen := rfl
@[simp] theorem accept_dstAddr (v : Word) (s : State) : (accept v s).dstAddr = s.dstAddr := rfl
@[simp] theorem accept_outLen (v : Word) (s : State) : (accept v s).outLen = s.outLen := rfl
@[simp] theorem accept_opA (v : Word) (s : State) : (accept v s).opA = s.opA := rfl
@[simp] theorem accept_opB (v : Word) (s : State) : (accept v s).opB = s.opB := rfl
@[simp] theorem accept_res (v : Word) (s : State) : (accept v s).res = s.res := rfl
@[simp] theorem accept_done (v : Word) (s : State) : (accept v s).done = false := rfl
@[simp] theorem accept_ovr (v : Word) (s : State) : (accept v s).ovr = s.ovr := rfl
@[simp] theorem accept_err (v : Word) (s : State) : (accept v s).err = .ok := rfl
@[simp] theorem accept_keyValid (v : Word) (s : State) : (accept v s).keyValid = s.keyValid := rfl
@[simp] theorem accept_nk (v : Word) (s : State) : (accept v s).nk = s.nk := rfl
@[simp] theorem accept_nr (v : Word) (s : State) : (accept v s).nr = s.nr := rfl
@[simp] theorem accept_sreg (v : Word) (s : State) : (accept v s).sreg = s.sreg := rfl
@[simp] theorem accept_w (v : Word) (s : State) : (accept v s).w = s.w := rfl
@[simp] theorem accept_prev (v : Word) (s : State) : (accept v s).prev = s.prev := rfl
@[simp] theorem accept_hold (v : Word) (s : State) : (accept v s).hold = s.hold := rfl
@[simp] theorem accept_lat (v : Word) (s : State) : (accept v s).lat = latch v s := rfl
@[simp] theorem accept_fsm (v : Word) (s : State) : (accept v s).fsm = .check := rfl
@[simp] theorem accept_rnd (v : Word) (s : State) : (accept v s).rnd = s.rnd := rfl
@[simp] theorem accept_blk (v : Word) (s : State) : (accept v s).blk = s.blk := rfl
@[simp] theorem accept_kidx (v : Word) (s : State) : (accept v s).kidx = s.kidx := rfl
@[simp] theorem accept_mem (v : Word) (s : State) : (accept v s).mem = s.mem := rfl
@[simp] theorem accept_scratch (v : Word) (s : State) : (accept v s).scratch = s.scratch := rfl
@[simp] theorem accept_hazard (v : Word) (s : State) : (accept v s).hazard = false := rfl
@[simp] theorem accept_draws (v : Word) (s : State) : (accept v s).draws = s.draws := rfl
@[simp] theorem accept_regData (v : Word) (s : State) : (accept v s).regData = s.regData := rfl
@[simp] theorem accept_memData (v : Word) (s : State) : (accept v s).memData = s.memData := rfl
@[simp] theorem accept_agenda (v : Word) (s : State) : (accept v s).agenda = s.agenda := rfl

/- `scrambleTouched` -/
@[simp] theorem scrambleTouched_cmd (s : State) : (scrambleTouched s).cmd = s.cmd := by simp only [scrambleTouched]
@[simp] theorem scrambleTouched_keyAddr (s : State) : (scrambleTouched s).keyAddr = s.keyAddr := by simp only [scrambleTouched]
@[simp] theorem scrambleTouched_keyLen (s : State) : (scrambleTouched s).keyLen = s.keyLen := by simp only [scrambleTouched]
@[simp] theorem scrambleTouched_ivAddr (s : State) : (scrambleTouched s).ivAddr = s.ivAddr := by simp only [scrambleTouched]
@[simp] theorem scrambleTouched_ivLen (s : State) : (scrambleTouched s).ivLen = s.ivLen := by simp only [scrambleTouched]
@[simp] theorem scrambleTouched_srcAddr (s : State) : (scrambleTouched s).srcAddr = s.srcAddr := by simp only [scrambleTouched]
@[simp] theorem scrambleTouched_srcLen (s : State) : (scrambleTouched s).srcLen = s.srcLen := by simp only [scrambleTouched]
@[simp] theorem scrambleTouched_dstAddr (s : State) : (scrambleTouched s).dstAddr = s.dstAddr := by simp only [scrambleTouched]
@[simp] theorem scrambleTouched_outLen (s : State) : (scrambleTouched s).outLen = s.outLen := by simp only [scrambleTouched]
@[simp] theorem scrambleTouched_opA (s : State) : (scrambleTouched s).opA = s.opA := by simp only [scrambleTouched]
@[simp] theorem scrambleTouched_opB (s : State) : (scrambleTouched s).opB = s.opB := by simp only [scrambleTouched]
@[simp] theorem scrambleTouched_res (s : State) : (scrambleTouched s).res = s.res := by simp only [scrambleTouched]
@[simp] theorem scrambleTouched_done (s : State) : (scrambleTouched s).done = s.done := by simp only [scrambleTouched]
@[simp] theorem scrambleTouched_ovr (s : State) : (scrambleTouched s).ovr = s.ovr := by simp only [scrambleTouched]
@[simp] theorem scrambleTouched_err (s : State) : (scrambleTouched s).err = s.err := by simp only [scrambleTouched]
@[simp] theorem scrambleTouched_keyValid (s : State) : (scrambleTouched s).keyValid = s.keyValid := by simp only [scrambleTouched]
@[simp] theorem scrambleTouched_nk (s : State) : (scrambleTouched s).nk = s.nk := by simp only [scrambleTouched]
@[simp] theorem scrambleTouched_nr (s : State) : (scrambleTouched s).nr = s.nr := by simp only [scrambleTouched]
@[simp] theorem scrambleTouched_sreg (s : State) : (scrambleTouched s).sreg = s.sreg := by simp only [scrambleTouched]
@[simp] theorem scrambleTouched_w (s : State) : (scrambleTouched s).w = s.w := by simp only [scrambleTouched]
@[simp] theorem scrambleTouched_prev (s : State) : (scrambleTouched s).prev = s.prev := by simp only [scrambleTouched]
@[simp] theorem scrambleTouched_hold (s : State) : (scrambleTouched s).hold = s.hold := by simp only [scrambleTouched]
@[simp] theorem scrambleTouched_lat (s : State) : (scrambleTouched s).lat = s.lat := by simp only [scrambleTouched]
@[simp] theorem scrambleTouched_fsm (s : State) : (scrambleTouched s).fsm = s.fsm := by simp only [scrambleTouched]
@[simp] theorem scrambleTouched_rnd (s : State) : (scrambleTouched s).rnd = s.rnd := by simp only [scrambleTouched]
@[simp] theorem scrambleTouched_blk (s : State) : (scrambleTouched s).blk = s.blk := by simp only [scrambleTouched]
@[simp] theorem scrambleTouched_kidx (s : State) : (scrambleTouched s).kidx = s.kidx := by simp only [scrambleTouched]
@[simp] theorem scrambleTouched_mem (s : State) : (scrambleTouched s).mem = s.mem.scrambleRanges (touchedRanges s) s.draws := by simp only [scrambleTouched]
@[simp] theorem scrambleTouched_scratch (s : State) : (scrambleTouched s).scratch = s.scratch := by simp only [scrambleTouched]
@[simp] theorem scrambleTouched_hazard (s : State) : (scrambleTouched s).hazard = s.hazard := by simp only [scrambleTouched]
@[simp] theorem scrambleTouched_draws (s : State) : (scrambleTouched s).draws = s.draws + rangesLength (touchedRanges s) := by simp only [scrambleTouched]
@[simp] theorem scrambleTouched_regData (s : State) : (scrambleTouched s).regData = s.regData := by simp only [scrambleTouched]
@[simp] theorem scrambleTouched_memData (s : State) : (scrambleTouched s).memData = s.memData := by simp only [scrambleTouched]
@[simp] theorem scrambleTouched_agenda (s : State) : (scrambleTouched s).agenda = s.agenda := by simp only [scrambleTouched]

end StateUpdates

end Sys2Proof.Machine
end

