-- ==== Sys2Proof/Laws/Ops.lean ====
section
/-! SUPPORT. What the shared operations do: the priority of errors, the checks of each command, block access, the
block loop, and the settling of a forbidden host access. -/

namespace Sys2Proof.Machine

/-- No error exactly when no test raises one. -/
theorem firstError_ok_iff (l : List (Bool × ErrCode)) (h : ∀ x ∈ l, x.2 ≠ .ok) :
    firstError l = .ok ↔ ∀ x ∈ l, x.1 = false := by
  induction l with
  | nil => simp [firstError]
  | cons hd tl ih =>
    obtain ⟨b, e⟩ := hd
    have h1 := h (b, e) (by simp)
    have ih' := ih fun x hx => h x (by simp [hx])
    cases b <;> simp [firstError, ih', h1]

theorem rangeCheck_iff (s : State) (base len : Nat) :
    (!s.mem.inBounds base len) = false ↔ rangeFits s base len := by
  simp [Memory.inBounds, rangeFits]
  simp only [or_iff_not_imp_left]

theorem checkKeyExpand_ok_iff (s : State) : checkKeyExpand s = .ok ↔
    (s.keyBytes = 16 ∨ s.keyBytes = 24 ∨ s.keyBytes = 32) ∧ rangeFits s s.keyBase s.keyBytes := by
  rw [checkKeyExpand, firstError_ok_iff _ (by simp)]
  simp [Memory.inBounds, rangeFits]
  simp only [or_iff_not_imp_left]

theorem checkStateLoad_ok_iff (s : State) : checkStateLoad s = .ok ↔ s.srcBase + 16 ≤ s.mem.size := by
  rw [checkStateLoad, firstError_ok_iff _ (by simp)]
  simp [Memory.inBounds]

theorem checkStateStore_ok_iff (s : State) : checkStateStore s = .ok ↔ s.dstBase + 16 ≤ s.mem.size := by
  rw [checkStateStore, firstError_ok_iff _ (by simp)]
  simp [Memory.inBounds]

theorem checkAddRoundKey_ok_iff (round : Nat) (s : State) :
    checkAddRoundKey round s = .ok ↔ s.keyValid = true ∧ round ≤ s.nr.toNat := by
  rw [checkAddRoundKey, firstError_ok_iff _ (by simp)]
  simp

theorem checkKeyLoaded_ok_iff (s : State) : checkKeyLoaded s = .ok ↔ s.keyValid = true := by
  rw [checkKeyLoaded, firstError_ok_iff _ (by simp)]
  simp

theorem checkEcbEnc_ok_iff (s : State) : checkEcbEnc s = .ok ↔
    s.keyValid = true ∧ rangeFits s s.srcBase s.srcBytes ∧ rangeFits s s.dstBase (encBytes s.srcBytes) := by
  rw [checkEcbEnc, firstError_ok_iff _ (by simp)]
  simp [Memory.inBounds, rangeFits]
  simp only [or_iff_not_imp_left, implies_true]

theorem checkEcbDec_ok_iff (s : State) : checkEcbDec s = .ok ↔
    s.keyValid = true ∧ (s.srcBytes ≠ 0 ∧ s.srcBytes % 16 = 0) ∧ rangeFits s s.srcBase s.srcBytes ∧
      rangeFits s s.dstBase s.srcBytes := by
  rw [checkEcbDec, firstError_ok_iff _ (by simp)]
  simp [Memory.inBounds, rangeFits]
  simp only [or_iff_not_imp_left, implies_true]

theorem checkCbcEnc_ok_iff (s : State) : checkCbcEnc s = .ok ↔
    s.keyValid = true ∧ s.ivBytes = 16 ∧ rangeFits s s.ivBase 16 ∧ rangeFits s s.srcBase s.srcBytes ∧
      rangeFits s s.dstBase (encBytes s.srcBytes) := by
  rw [checkCbcEnc, firstError_ok_iff _ (by simp)]
  simp [Memory.inBounds, rangeFits]
  simp only [or_iff_not_imp_left, implies_true]

theorem checkCbcDec_ok_iff (s : State) : checkCbcDec s = .ok ↔
    s.keyValid = true ∧ (s.srcBytes ≠ 0 ∧ s.srcBytes % 16 = 0) ∧ s.ivBytes = 16 ∧ rangeFits s s.ivBase 16 ∧
      rangeFits s s.srcBase s.srcBytes ∧ rangeFits s s.dstBase s.srcBytes := by
  rw [checkCbcDec, firstError_ok_iff _ (by simp)]
  simp [Memory.inBounds, rangeFits]
  simp only [or_iff_not_imp_left, implies_true]

/-- A command's checks read the latched operands, the key's flag and size and the memory's size, nothing else. -/
theorem commandCheck_congr (i : Instr) {s t : State} (hl : t.lat = s.lat) (hk : t.keyValid = s.keyValid)
    (hn : t.nr = s.nr) (hm : t.mem.size = s.mem.size) : commandCheck i t = commandCheck i s := by
  have hb : ∀ a n, t.mem.inBounds a n = s.mem.inBounds a n := fun a n => by simp [Memory.inBounds, hm]
  cases i <;>
    simp only [commandCheck, checkKeyExpand, checkStateLoad, checkStateStore, checkAddRoundKey, checkKeyLoaded,
      checkEcbEnc, checkEcbDec, checkCbcEnc, checkCbcDec, State.keyBytes, State.keyBase, State.srcBase, State.srcBytes,
      State.dstBase, State.ivBase, State.ivBytes, hl, hk, hn, hb]

theorem modeBlocks_congr (i : Instr) {s t : State} (hl : t.lat = s.lat) : modeBlocks i t = modeBlocks i s := by
  cases i <;> simp only [modeBlocks, State.srcBytes, hl]

/-- So do the ranges a command touches. -/
theorem touchedRanges_congr {s t : State} (hl : t.lat = s.lat) (hk : t.keyValid = s.keyValid) (hn : t.nr = s.nr)
    (hm : t.mem.size = s.mem.size) : touchedRanges t = touchedRanges s := by
  unfold touchedRanges
  rw [hl]
  split
  · rfl
  · next i _ =>
    rw [commandCheck_congr i hl hk hn hm]
    cases i <;>
      simp only [commandReads, commandWrites, State.keyBytes, State.keyBase, State.srcBase, State.srcBytes,
        State.dstBase, State.ivBase, hl]

theorem writtenRanges_congr {s t : State} (hl : t.lat = s.lat) (hk : t.keyValid = s.keyValid) (hn : t.nr = s.nr)
    (hm : t.mem.size = s.mem.size) : writtenRanges t = writtenRanges s := by
  unfold writtenRanges
  rw [hl]
  split
  · rfl
  · next i _ =>
    rw [commandCheck_congr i hl hk hn hm]
    cases i <;> simp only [commandWrites, State.srcBytes, State.dstBase, hl]

@[simp] theorem blockXor_getElem (a b : Block) (i : Nat) (h : i < 16) : (blockXor a b)[i] = a[i] ^^^ b[i] := by
  simp [blockXor]

/-- XOR with the same block twice gives the block back. -/
theorem blockXor_blockXor (a b : Block) : blockXor (blockXor a b) b = a := by
  apply Vector.ext
  intro i h
  simp

theorem blockXor_comm (a b : Block) : blockXor a b = blockXor b a := by
  apply Vector.ext
  intro i h
  simp [BitVec.xor_comm]

/-- The number of pad bytes is 1 to 16 (R181). -/
theorem padLength_bounds (n : Nat) : 1 ≤ padLength n ∧ padLength n ≤ 16 := by
  unfold padLength; omega

theorem encBytes_eq (n : Nat) : encBytes n = n + padLength n := by
  unfold encBytes encBlocks padLength; omega

/-- Block `i` of the micro-program's message is block `i` of the padded message (R181, R184). -/
theorem messageBlock_eq_paddedBlock (m : Memory) (src n i : Nat) (h : i < encBlocks n) :
    messageBlock m src n i = paddedBlock m src n i := by
  apply Vector.ext
  intro j hj
  unfold messageBlock paddedBlock encBlocks at *
  unfold padLength
  simp only [Vector.getElem_ofFn]
  split
  · simp only [Memory.loadBlock_getElem]
    rw [if_pos (by omega), Nat.add_assoc]
  · simp only [Vector.getElem_ofFn]
    have hd := Nat.div_add_mod n 16
    have hm := Nat.mod_lt n (show 0 < 16 by omega)
    by_cases hlt : j < n % 16
    · rw [if_pos (by omega), if_pos (by omega)]; simp [Nat.add_assoc]
    · rw [if_neg (by omega), if_neg (by omega)]

/-- `n + 1` iterations are `n` iterations and then the last one. -/
theorem forBlocks_succ (body : Nat → Pass → Pass) (n i : Nat) (p : Pass) :
    forBlocks body (n + 1) i p = body (i + n) (forBlocks body n i p) := by
  induction n generalizing i p with
  | zero => rfl
  | succ n ih => rw [forBlocks, ih (i + 1) (body i p), forBlocks]; congr 1; omega

theorem ticks_add (m n : Nat) (s : State) : ticks (m + n) s = ticks n (ticks m s) := by
  induction m generalizing s with
  | zero => simp [ticks]
  | succ m ih => rw [Nat.succ_add, ticks, ih, ticks]

theorem tick_idle (s : State) (h : s.fsm = .idle) : tick s = s := by
  unfold tick; rw [h]

theorem ticks_idle (n : Nat) (s : State) (h : s.fsm = .idle) : ticks n s = s := by
  induction n with
  | zero => rfl
  | succ n ih => rw [ticks, tick_idle s h, ih]

/-- Nothing to settle where the host touched nothing. -/
theorem settle_of_no_hazard (s : State) (h : s.hazard = false) : settle s = s := by
  simp [settle, h]

/-- Settling changes nothing but the bytes the command read or wrote. -/
theorem settle_cases (s : State) :
    settle s = s ∨ (s.hazard = true ∧ s.fsm = .idle ∧ settle s = { scrambleTouched s with hazard := false }) := by
  by_cases h : s.hazard = true ∧ s.busy = false
  · refine .inr ⟨h.1, by simpa [State.busy] using h.2, by simp [settle, h.1, h.2]⟩
  · refine .inl ?_
    unfold settle
    rw [if_neg]
    simpa using h

theorem busy_iff (s : State) : s.busy = true ↔ s.fsm ≠ .idle := by
  simp [State.busy]

theorem busy_eq_false_iff (s : State) : s.busy = false ↔ s.fsm = .idle := by
  simp [State.busy]

/-- The destination range is one of the touched ranges. -/
theorem writtenRanges_sublist (s : State) : ∀ r ∈ writtenRanges s, r ∈ touchedRanges s := by
  intro r hr
  unfold writtenRanges at hr
  unfold touchedRanges
  split at hr
  · simp at hr
  · split at hr
    · rw [if_pos ‹_›]; exact List.mem_append_right _ hr
    · simp at hr

end Sys2Proof.Machine
end

