-- ==== Sys2Proof/Laws/Exec.lean ====
section
/-! SUPPORT. What `exec` does with each command: an equation for a command without checks, and one equation for each
side of the checks of the others. A proof about a command rewrites with these and never unfolds `exec`. -/

namespace Sys2Proof.Machine

section Unchecked

variable (s : State)

theorem exec_nop : exec .nop s = .next (complete .ok s) := rfl
theorem exec_subBytes : exec .subBytes s = .next (complete .ok (transformEffect subBytes s)) := rfl
theorem exec_invSubBytes : exec .invSubBytes s = .next (complete .ok (transformEffect invSubBytes s)) := rfl
theorem exec_shiftRows : exec .shiftRows s = .next (complete .ok (transformEffect shiftRows s)) := rfl
theorem exec_invShiftRows : exec .invShiftRows s = .next (complete .ok (transformEffect invShiftRows s)) := rfl
theorem exec_mixColumns : exec .mixColumns s = .next (complete .ok (transformEffect mixColumns s)) := rfl
theorem exec_invMixColumns : exec .invMixColumns s = .next (complete .ok (transformEffect invMixColumns s)) := rfl
theorem exec_gfMul : exec .gfMul s = .next (complete .ok (gfMulEffect s)) := rfl
theorem exec_gfDouble : exec .gfDouble s = .next (complete .ok (gfDoubleEffect s)) := rfl
theorem exec_sbox : exec .sbox s = .next (complete .ok (sboxEffect s)) := rfl
theorem exec_invSbox : exec .invSbox s = .next (complete .ok (invSboxEffect s)) := rfl

end Unchecked

section Checked

variable {s : State}

theorem exec_keyExpand_ok (h : checkKeyExpand s = .ok) :
    exec .keyExpand s = .next (complete .ok (keyExpandEffect s)) := by
  simp only [exec, execKeyExpand, h]

theorem exec_keyExpand_error (h : checkKeyExpand s ≠ .ok) :
    exec .keyExpand s = .next (raiseKeyError (checkKeyExpand s) s) := by
  simp only [exec, execKeyExpand]

theorem exec_stateLoad_ok (h : checkStateLoad s = .ok) :
    exec .stateLoad s = .next (complete .ok (stateLoadEffect s)) := by
  simp only [exec, execStateLoad, h]

theorem exec_stateLoad_error (h : checkStateLoad s ≠ .ok) :
    exec .stateLoad s = .next (raiseError (checkStateLoad s) s) := by
  simp only [exec, execStateLoad]

theorem exec_stateStore_ok (h : checkStateStore s = .ok) :
    exec .stateStore s = .next (complete .ok (stateStoreEffect s)) := by
  simp only [exec, execStateStore, h]

theorem exec_stateStore_error (h : checkStateStore s ≠ .ok) :
    exec .stateStore s = .next (raiseError (checkStateStore s) s) := by
  simp only [exec, execStateStore]

theorem exec_addRoundKey_ok {round : Nat} (h : checkAddRoundKey round s = .ok) :
    exec (.addRoundKey round) s = .next (complete .ok (addRoundKeyEffect round s)) := by
  simp only [exec, execAddRoundKey, h]

theorem exec_addRoundKey_error {round : Nat} (h : checkAddRoundKey round s ≠ .ok) :
    exec (.addRoundKey round) s = .next (raiseError (checkAddRoundKey round s) s) := by
  simp only [exec, execAddRoundKey]

theorem exec_cipherBlock_ok (h : checkKeyLoaded s = .ok) :
    exec .cipherBlock s = .next (complete .ok (transformEffect (cipher s.w s.nr.toNat) s)) := by
  simp only [exec, execCipherBlock, h]

theorem exec_cipherBlock_error (h : checkKeyLoaded s ≠ .ok) :
    exec .cipherBlock s = .next (raiseError (checkKeyLoaded s) s) := by
  simp only [exec, execCipherBlock]

theorem exec_invCipherBlock_ok (h : checkKeyLoaded s = .ok) :
    exec .invCipherBlock s = .next (complete .ok (transformEffect (invCipher s.w s.nr.toNat) s)) := by
  simp only [exec, execInvCipherBlock, h]

theorem exec_invCipherBlock_error (h : checkKeyLoaded s ≠ .ok) :
    exec .invCipherBlock s = .next (raiseError (checkKeyLoaded s) s) := by
  simp only [exec, execInvCipherBlock]

theorem exec_ecbEnc_ok (h : checkEcbEnc s = .ok) : exec .ecbEnc s = .next (complete .ok (ecbEncEffect s)) := by
  simp only [exec, execEcbEnc, h]

theorem exec_ecbEnc_error (h : checkEcbEnc s ≠ .ok) :
    exec .ecbEnc s = .next (raiseModeError (checkEcbEnc s) s) := by
  simp only [exec, execEcbEnc]

theorem exec_cbcEnc_ok (h : checkCbcEnc s = .ok) : exec .cbcEnc s = .next (complete .ok (cbcEncEffect s)) := by
  simp only [exec, execCbcEnc, h]

theorem exec_cbcEnc_error (h : checkCbcEnc s ≠ .ok) :
    exec .cbcEnc s = .next (raiseModeError (checkCbcEnc s) s) := by
  simp only [exec, execCbcEnc]

theorem exec_ecbDec_ok (h : checkEcbDec s = .ok) (hp : padOK (ecbDecHold s) = true) :
    exec .ecbDec s = .next (complete .ok (ecbDecEffect s)) := by
  simp only [exec, execEcbDec, h, hp, if_true]

theorem exec_ecbDec_padding (h : checkEcbDec s = .ok) (hp : padOK (ecbDecHold s) = false) :
    exec .ecbDec s = .next (raiseModeError .badPadding (precheckEffect (ecbDecHold s) s)) := by
  simp [exec, execEcbDec, h, hp]

theorem exec_ecbDec_error (h : checkEcbDec s ≠ .ok) :
    exec .ecbDec s = .next (raiseModeError (checkEcbDec s) s) := by
  simp only [exec, execEcbDec]

theorem exec_cbcDec_ok (h : checkCbcDec s = .ok) (hp : padOK (cbcDecHold s) = true) :
    exec .cbcDec s = .next (complete .ok (cbcDecEffect s)) := by
  simp only [exec, execCbcDec, h, hp, if_true]

theorem exec_cbcDec_padding (h : checkCbcDec s = .ok) (hp : padOK (cbcDecHold s) = false) :
    exec .cbcDec s = .next (raiseModeError .badPadding (precheckEffect (cbcDecHold s) s)) := by
  simp [exec, execCbcDec, h, hp]

theorem exec_cbcDec_error (h : checkCbcDec s ≠ .ok) :
    exec .cbcDec s = .next (raiseModeError (checkCbcDec s) s) := by
  simp only [exec, execCbcDec]

end Checked

/-- The rule of R182 is what `padOK` tests. -/
theorem padOK_iff (b : Block) : padOK b = true ↔ goodPadding b := by
  unfold padOK goodPadding
  rw [Bool.and_eq_true, decide_eq_true_iff, List.all_eq_true, and_assoc]
  refine and_congr_right fun _ => and_congr_right fun _ => ⟨fun h j hj => ?_, fun h j hj => ?_⟩
  · have := h j.val (by simp)
    simpa [Nat.not_lt.mpr hj, Vector.getD] using this
  · by_cases hlt : j < 16 - b[15].toNat
    · simp [hlt]
    · have hj' : j < 16 := by simpa using hj
      have := h ⟨j, hj'⟩ (Nat.not_lt.mp hlt)
      simp only [Fin.getElem_fin] at this
      simp [Vector.getD, hj', this]

/-- The unpadded part of a final block has `16 - p` bytes (R182). -/
theorem unpadded_length (b : Block) : (unpadded b).length = 16 - b[15].toNat := by
  simp [unpadded]

end Sys2Proof.Machine
end

