-- ==== Sys2Proof/Laws/Step.lean ====
section
/-! SUPPORT. What one step does, move by move. A proof about a step rewrites with these and never unfolds `step`. -/

namespace Sys2Proof.Machine

theorem step_nil {s : State} (h : s.agenda = []) : step s = engineMove s := by
  simp only [step, nextMove, h]

theorem step_cons {s : State} {m : Move} {rest : List Move} (h : s.agenda = m :: rest) :
    step s = performMove m { s with agenda := rest } := by
  simp only [step, nextMove, h]

theorem step_regWrite {s : State} {width : Width} {off : Nat} {v : Word} {rest : List Move}
    (h : s.agenda = .regWrite width off v :: rest) :
    step s = regAccess width off fun r => writeReg r v { s with agenda := rest } := by
  rw [step_cons h]; rfl

theorem step_regRead {s : State} {width : Width} {off : Nat} {rest : List Move}
    (h : s.agenda = .regRead width off :: rest) :
    step s = regAccess width off fun r => readReg r { s with agenda := rest } := by
  rw [step_cons h]; rfl

theorem step_memWrite {s : State} {a : Nat} {b : Byte} {rest : List Move} (h : s.agenda = .memWrite a b :: rest) :
    step s = .next (hostMemWrite a b { s with agenda := rest }) := by
  rw [step_cons h]; rfl

theorem step_memRead {s : State} {a : Nat} {rest : List Move} (h : s.agenda = .memRead a :: rest) :
    step s = .next (hostMemRead a { s with agenda := rest }) := by
  rw [step_cons h]; rfl

theorem step_wait {s : State} {n : Nat} {rest : List Move} (h : s.agenda = .wait n :: rest) :
    step s = .next (waitRead n { s with agenda := rest }) := by
  rw [step_cons h]; rfl

theorem step_hardReset {s : State} {rest : List Move} (h : s.agenda = .hardReset :: rest) :
    step s = .next (hardReset { s with agenda := rest }) := by
  rw [step_cons h]; rfl

theorem step_powerCycle {s : State} {rest : List Move} (h : s.agenda = .powerCycle :: rest) :
    step s = .next (powerCycle { s with agenda := rest }) := by
  rw [step_cons h]; rfl

theorem step_engine {s : State} {rest : List Move} (h : s.agenda = .engine :: rest) :
    step s = engineMove { s with agenda := rest } := by
  rw [step_cons h]; rfl

theorem step_tick {s : State} {rest : List Move} (h : s.agenda = .tick :: rest) :
    step s = .next (settle (tick { s with agenda := rest })) := by
  rw [step_cons h]; rfl

theorem readReg_idle {s : State} (h : s.fsm = .idle) (r : RegName) :
    readReg r s = { s with regData := regValue r s } := by
  unfold readReg; rw [if_neg (by simp [State.busy, h])]

theorem readReg_busy {s : State} (h : s.fsm ≠ .idle) (r : RegName) :
    readReg r s = { s with regData := regValueBusy r s, draws := s.draws + 1 } := by
  unfold readReg; rw [if_pos (by simpa [State.busy] using h)]

theorem writeCmd_idle {s : State} (h : s.fsm = .idle) (v : Word) : writeCmd v s = accept v s := by
  unfold writeCmd; rw [if_neg (by simp [State.busy, h])]

theorem writeCmd_busy {s : State} (h : s.fsm ≠ .idle) (v : Word) : writeCmd v s = { s with ovr := true } := by
  unfold writeCmd; rw [if_pos (by simpa [State.busy] using h)]

theorem hostMemWrite_idle {s : State} (h : s.fsm = .idle) (a : Nat) (b : Byte) :
    hostMemWrite a b s = { s with mem := s.mem.store a b } := by
  unfold hostMemWrite; rw [if_neg (by simp [State.busy, h])]

theorem hostMemWrite_busy {s : State} {a : Nat} (h : s.fsm ≠ .idle) (ha : a < s.mem.size) (b : Byte) :
    hostMemWrite a b s = raiseHazard { s with mem := s.mem.store a b } := by
  unfold hostMemWrite; rw [if_pos (by simpa [State.busy, ha] using h)]

/-- At or above MEM_SIZE a host write has no effect, idle or busy (R43). -/
theorem hostMemWrite_above {s : State} {a : Nat} (ha : s.mem.size ≤ a) (b : Byte) : hostMemWrite a b s = s := by
  unfold hostMemWrite; rw [if_neg (by simp [Nat.not_lt.mpr ha]), Memory.store_above _ _ _ ha]

theorem hostMemRead_plain {s : State} {a : Nat} (h : s.fsm = .idle ∨ inRanges (touchedRanges s) a = false) :
    hostMemRead a s = { s with memData := s.mem.load a } := by
  unfold hostMemRead
  rw [if_neg (by rcases h with h | h <;> simp [State.busy, h])]

theorem hostMemRead_hazard {s : State} {a : Nat} (h : s.fsm ≠ .idle) (h' : inRanges (touchedRanges s) a = true) :
    hostMemRead a s = raiseHazard { s with memData := Config.freeByte s.draws, draws := s.draws + 1 } := by
  unfold hostMemRead
  rw [if_pos (by simpa [State.busy, h'] using h)]

/-- Every offset from 0x38 on is reserved (R33). -/
theorem regAt_reserved {off : Nat} (h : 0x38 ≤ off) : regAt off = .reserved := by
  unfold regAt; split <;> first | rfl | omega

/-- The number a STATUS word is (R24). -/
theorem packStatus_toNat (b d k o : Bool) (e : ErrCode) :
    (packStatus b d k o e).toNat = b.toNat + 2 * d.toNat + 4 * k.toNat + 8 * o.toNat + 256 * e.code := by
  cases b <;> cases d <;> cases k <;> cases o <;> cases e <;> decide

/-- The number KEYCFG is (R30). -/
theorem keycfgWord_toNat (s : State) : (keycfgWord s).toNat = s.nk.toNat + 256 * s.nr.toNat := by
  have := s.nk.isLt
  have := s.nr.isLt
  simp only [keycfgWord, BitVec.toNat_ofNat]
  omega

/-- BUSY and DONE of a STATUS word (R24). -/
theorem packStatus_busy_done (b d k o : Bool) (e : ErrCode) :
    (packStatus b d k o e).getLsbD 0 = b ∧ (packStatus b d k o e).getLsbD 1 = d := by
  cases b <;> cases d <;> cases k <;> cases o <;> cases e <;> decide

/-- A read of STATUS shows completion exactly when the engine is idle and DONE is 1 (R24, R66, R213). -/
theorem showsCompletion_readStatus (s : State) :
    showsCompletion (readReg .status s) = true ↔ s.fsm = .idle ∧ s.done = true := by
  by_cases h : s.fsm = .idle
  · rw [readReg_idle h]
    simp only [showsCompletion, regValue, statusWord, packStatus_busy_done, State.busy, h]
    simp
  · rw [readReg_busy h]
    simp only [showsCompletion, regValueBusy, statusWordBusy, packStatus_busy_done, h]
    simp

/-- The read that ends a `WAIT` (R66). -/
theorem waitRead_ends {s : State} (h : s.fsm = .idle) (hd : s.done = true) (n : Nat) :
    waitRead n s = { s with regData := statusWord s } := by
  unfold waitRead; rw [if_pos ((showsCompletion_readStatus s).mpr ⟨h, hd⟩), readReg_idle h]; rfl

/-- A read of a `WAIT` that does not end it: the loop goes on (R66). -/
theorem waitRead_repeats {s : State} (h : ¬(s.fsm = .idle ∧ s.done = true)) (n : Nat) :
    waitRead n s = { readReg .status s with agenda := waitAgain n ++ s.agenda } := by
  unfold waitRead; rw [if_neg (fun hc => h ((showsCompletion_readStatus s).mp hc))]

/-- A read of a `WAIT` changes nothing but the port, the count of draws and the moves to come. -/
theorem waitRead_frame (n : Nat) (s : State) :
    waitRead n s = { s with
      regData := (waitRead n s).regData, draws := (waitRead n s).draws, agenda := (waitRead n s).agenda } := by
  unfold waitRead readReg; split <;> split <;> rfl

theorem engineMove_idle {s : State} (h : s.fsm = .idle) : engineMove s = .next s := by
  simp only [engineMove, h]

theorem engineMove_check {s : State} (h : s.fsm = .check) : engineMove s = settleOutcome (runCommand s) := by
  simp only [engineMove, h]

theorem engineMove_running {s : State} (h : s.fsm ≠ .idle) (h' : s.fsm ≠ .check) :
    engineMove s = .next (settle (ticks (tickBound s) s)) := by
  unfold engineMove; split <;> simp_all

theorem runCommand_command {s : State} {i : Instr} (h : decode s.lat.cmd = .command i) :
    runCommand s = exec i s := by
  simp only [runCommand, h]

theorem runCommand_illegal {s : State} {y : Illegal} (h : decode s.lat.cmd = .illegal y) :
    runCommand s = .next (raiseError .illegalCommand s) := by
  simp only [runCommand, h]

/-- `withFetchWord` is acceptance of the word with no move to come (R201; log 7). -/
theorem withFetchWord_eq (s : State) (w : Nat) :
    s.withFetchWord 32 w = { accept (BitVec.ofNat 32 w) s with agenda := [] } := by
  rw [State.withFetchWord, loadCommand, show BitVec.ofNat 32 (w % 2 ^ 32) = BitVec.ofNat 32 w from
    BitVec.eq_of_toNat_eq (by simp)]

theorem settleOutcome_next (s : State) : settleOutcome (.next s) = .next (settle s) := rfl

theorem regAccess_ok {off : Nat} (h : off % 4 = 0) (h' : off ≤ 0xFC) (f : RegName → State) :
    regAccess .word off f = .next (f (regAt off)) := by
  simp [regAccess, legalOffset, h, h']

theorem regAccess_width {width : Width} (h : width ≠ .word) (off : Nat) (f : RegName → State) :
    regAccess width off f = .refused .registerWidth := by
  simp [regAccess, h]

theorem regAccess_offset {off : Nat} (h : off % 4 ≠ 0 ∨ 0xFC < off) (f : RegName → State) :
    regAccess .word off f = .refused .registerOffset := by
  have : legalOffset off = false := by simp only [legalOffset, decide_eq_false_iff_not]; omega
  simp [regAccess, this]

/-- An access that answers a next state was a whole word at a defined offset. -/
theorem regAccess_next {width : Width} {off : Nat} {f : RegName → State} {t : State}
    (h : regAccess width off f = .next t) :
    width = .word ∧ off % 4 = 0 ∧ off ≤ 0xFC ∧ t = f (regAt off) := by
  unfold regAccess at h
  split at h
  · cases h
  · split at h
    · next hw hl =>
      have hl' : off % 4 = 0 ∧ off ≤ 0xFC := by simpa [legalOffset] using hl
      cases h
      exact ⟨by simpa using hw, hl'.1, hl'.2, rfl⟩
    · cases h

end Sys2Proof.Machine
end

