-- ==== Sys2Proof/Laws/Frame.lean ====
section
/-! SUPPORT. What no command changes, said once for `exec`: the host's registers, the latched operands, the sequencer's
counters, the model's own fields; the memory keeps its size and its canonical form. -/

namespace Sys2Proof.Machine

/-- What every command keeps: `t` is `s` with result registers, the key, the datapath and the memory it may write, and
completed. -/
structure ExecFrame (s t : State) : Prop where
  frame : t = { s with
    outLen := t.outLen, res := t.res, done := true, err := t.err, keyValid := t.keyValid, nk := t.nk, nr := t.nr,
    sreg := t.sreg, w := t.w, prev := t.prev, hold := t.hold, fsm := .idle, mem := t.mem }
  size : t.mem.size = s.mem.size
  wf : s.mem.wf = true → t.mem.wf = true

section Derived

variable {s t : State}

theorem ExecFrame.fsm (h : ExecFrame s t) : t.fsm = .idle := by rw [h.frame]
theorem ExecFrame.done (h : ExecFrame s t) : t.done = true := by rw [h.frame]
theorem ExecFrame.cmd (h : ExecFrame s t) : t.cmd = s.cmd := by rw [h.frame]
theorem ExecFrame.lat (h : ExecFrame s t) : t.lat = s.lat := by rw [h.frame]
theorem ExecFrame.ovr (h : ExecFrame s t) : t.ovr = s.ovr := by rw [h.frame]
theorem ExecFrame.hazard (h : ExecFrame s t) : t.hazard = s.hazard := by rw [h.frame]
theorem ExecFrame.draws (h : ExecFrame s t) : t.draws = s.draws := by rw [h.frame]
theorem ExecFrame.agenda (h : ExecFrame s t) : t.agenda = s.agenda := by rw [h.frame]
theorem ExecFrame.rnd (h : ExecFrame s t) : t.rnd = s.rnd := by rw [h.frame]
theorem ExecFrame.blk (h : ExecFrame s t) : t.blk = s.blk := by rw [h.frame]
theorem ExecFrame.kidx (h : ExecFrame s t) : t.kidx = s.kidx := by rw [h.frame]

theorem ExecFrame.of_mem_eq (h : t = { s with
      outLen := t.outLen, res := t.res, done := true, err := t.err, keyValid := t.keyValid, nk := t.nk, nr := t.nr,
      sreg := t.sreg, w := t.w, prev := t.prev, hold := t.hold, fsm := .idle, mem := t.mem })
    (hm : t.mem = s.mem) : ExecFrame s t :=
  ⟨h, by rw [hm], fun hw => by rw [hm]; exact hw⟩

end Derived

/-- What each iteration keeps of the memory, the loop keeps. -/
theorem forBlocks_mem (body : Nat → Pass → Pass) (P : Memory → Prop) (h : ∀ i p, P p.mem → P (body i p).mem)
    (n i : Nat) (p : Pass) (hp : P p.mem) : P (forBlocks body n i p).mem := by
  induction n generalizing i p with
  | zero => exact hp
  | succ n ih => exact ih _ _ (h i p hp)

/-- A property of memories that block writes keep holds after each of the four loops. -/
theorem passes_keep (P : Memory → Prop) (hP : ∀ m a b, P m → P (m.storeBlock a b)) (s : State) (h : P s.mem) :
    P (ecbEncPass s).mem ∧ P (cbcEncPass s).mem ∧ P (ecbDecPass s).mem ∧ P (cbcDecPass s).mem :=
  ⟨forBlocks_mem _ P (fun _ _ hp => hP _ _ _ hp) _ _ _ h, forBlocks_mem _ P (fun _ _ hp => hP _ _ _ hp) _ _ _ h,
    forBlocks_mem _ P (fun _ _ hp => hP _ _ _ hp) _ _ _ h, forBlocks_mem _ P (fun _ _ hp => hP _ _ _ hp) _ _ _ h⟩

theorem passes_size (s : State) :
    (ecbEncPass s).mem.size = s.mem.size ∧ (cbcEncPass s).mem.size = s.mem.size ∧
    (ecbDecPass s).mem.size = s.mem.size ∧ (cbcDecPass s).mem.size = s.mem.size :=
  passes_keep (fun m => m.size = s.mem.size) (fun m a b h => by rw [Memory.storeBlock_size]; exact h) s rfl

theorem passes_wf (s : State) (h : s.mem.wf = true) :
    (ecbEncPass s).mem.wf = true ∧ (cbcEncPass s).mem.wf = true ∧
    (ecbDecPass s).mem.wf = true ∧ (cbcDecPass s).mem.wf = true :=
  passes_keep (fun m => m.wf = true) (fun m a b h => Memory.storeBlock_wf m a b h) s h

section PerCommand

variable {s : State}

theorem transform_frame (f : Block → Block) : ExecFrame s (complete .ok (transformEffect f s)) :=
  .of_mem_eq (by simp only [complete, transformEffect]) (by simp)

theorem byte_frame (b : Byte) : ExecFrame s (complete .ok { s with res := b }) :=
  .of_mem_eq (by simp only [complete]) (by simp)

theorem error_frame (e : ErrCode) : ExecFrame s (raiseError e s) :=
  .of_mem_eq (by simp only [complete, raiseError]) (by simp)

theorem keyError_frame (e : ErrCode) : ExecFrame s (raiseKeyError e s) :=
  .of_mem_eq (by simp only [complete, raiseError, raiseKeyError]) (by simp)

theorem modeError_frame (e : ErrCode) : ExecFrame s (raiseModeError e s) :=
  .of_mem_eq (by simp only [complete, raiseError, raiseModeError]) (by simp)

theorem padding_frame (h : Block) : ExecFrame s (raiseModeError .badPadding (precheckEffect h s)) :=
  .of_mem_eq (by simp only [complete, raiseError, raiseModeError, precheckEffect]) (by simp)

theorem keyExpand_frame : ExecFrame s (complete .ok (keyExpandEffect s)) :=
  .of_mem_eq (by simp only [complete, keyExpandEffect, setKeyParams]) (by simp)

theorem stateLoad_frame : ExecFrame s (complete .ok (stateLoadEffect s)) :=
  .of_mem_eq (by simp only [complete, stateLoadEffect]) (by simp)

theorem stateStore_frame : ExecFrame s (complete .ok (stateStoreEffect s)) :=
  ⟨by simp only [complete, stateStoreEffect], by simp, fun h => by simpa using Memory.storeBlock_wf _ _ _ h⟩

theorem ecbEnc_frame : ExecFrame s (complete .ok (ecbEncEffect s)) :=
  ⟨by simp only [complete, ecbEncEffect, setOutLen], by simpa using (passes_size s).1,
    fun h => by simpa using (passes_wf s h).1⟩

theorem cbcEnc_frame : ExecFrame s (complete .ok (cbcEncEffect s)) :=
  ⟨by simp only [complete, cbcEncEffect, setOutLen], by simpa using (passes_size s).2.1,
    fun h => by simpa using (passes_wf s h).2.1⟩

theorem ecbDec_frame : ExecFrame s (complete .ok (ecbDecEffect s)) :=
  ⟨by simp only [complete, ecbDecEffect, setOutLen, precheckEffect], by simpa using (passes_size s).2.2.1,
    fun h => by simpa using Memory.storeBytes_wf _ _ _ (passes_wf s h).2.2.1⟩

theorem cbcDec_frame : ExecFrame s (complete .ok (cbcDecEffect s)) :=
  ⟨by simp only [complete, cbcDecEffect, setOutLen, precheckEffect], by simpa using (passes_size s).2.2.2,
    fun h => by simpa using Memory.storeBytes_wf _ _ _ (passes_wf s h).2.2.2⟩

end PerCommand

/-- If a command answers `next t`, then `t` keeps all that `ExecFrame` says. -/
theorem exec_frame {i : Instr} {s t : State} (h : exec i s = .next t) : ExecFrame s t := by
  cases i with
  | nop => rw [exec_nop] at h; exact Host.Outcome.next.inj h ▸ error_frame .ok
  | subBytes => rw [exec_subBytes] at h; exact Host.Outcome.next.inj h ▸ transform_frame _
  | invSubBytes => rw [exec_invSubBytes] at h; exact Host.Outcome.next.inj h ▸ transform_frame _
  | shiftRows => rw [exec_shiftRows] at h; exact Host.Outcome.next.inj h ▸ transform_frame _
  | invShiftRows => rw [exec_invShiftRows] at h; exact Host.Outcome.next.inj h ▸ transform_frame _
  | mixColumns => rw [exec_mixColumns] at h; exact Host.Outcome.next.inj h ▸ transform_frame _
  | invMixColumns => rw [exec_invMixColumns] at h; exact Host.Outcome.next.inj h ▸ transform_frame _
  | gfMul => rw [exec_gfMul] at h; exact Host.Outcome.next.inj h ▸ byte_frame _
  | gfDouble => rw [exec_gfDouble] at h; exact Host.Outcome.next.inj h ▸ byte_frame _
  | sbox => rw [exec_sbox] at h; exact Host.Outcome.next.inj h ▸ byte_frame _
  | invSbox => rw [exec_invSbox] at h; exact Host.Outcome.next.inj h ▸ byte_frame _
  | keyExpand =>
    by_cases hc : checkKeyExpand s = .ok
    · rw [exec_keyExpand_ok hc] at h; exact Host.Outcome.next.inj h ▸ keyExpand_frame
    · rw [exec_keyExpand_error hc] at h; exact Host.Outcome.next.inj h ▸ keyError_frame _
  | stateLoad =>
    by_cases hc : checkStateLoad s = .ok
    · rw [exec_stateLoad_ok hc] at h; exact Host.Outcome.next.inj h ▸ stateLoad_frame
    · rw [exec_stateLoad_error hc] at h; exact Host.Outcome.next.inj h ▸ error_frame _
  | stateStore =>
    by_cases hc : checkStateStore s = .ok
    · rw [exec_stateStore_ok hc] at h; exact Host.Outcome.next.inj h ▸ stateStore_frame
    · rw [exec_stateStore_error hc] at h; exact Host.Outcome.next.inj h ▸ error_frame _
  | addRoundKey r =>
    by_cases hc : checkAddRoundKey r s = .ok
    · rw [exec_addRoundKey_ok hc] at h; exact Host.Outcome.next.inj h ▸ transform_frame _
    · rw [exec_addRoundKey_error hc] at h; exact Host.Outcome.next.inj h ▸ error_frame _
  | cipherBlock =>
    by_cases hc : checkKeyLoaded s = .ok
    · rw [exec_cipherBlock_ok hc] at h; exact Host.Outcome.next.inj h ▸ transform_frame _
    · rw [exec_cipherBlock_error hc] at h; exact Host.Outcome.next.inj h ▸ error_frame _
  | invCipherBlock =>
    by_cases hc : checkKeyLoaded s = .ok
    · rw [exec_invCipherBlock_ok hc] at h; exact Host.Outcome.next.inj h ▸ transform_frame _
    · rw [exec_invCipherBlock_error hc] at h; exact Host.Outcome.next.inj h ▸ error_frame _
  | ecbEnc =>
    by_cases hc : checkEcbEnc s = .ok
    · rw [exec_ecbEnc_ok hc] at h; exact Host.Outcome.next.inj h ▸ ecbEnc_frame
    · rw [exec_ecbEnc_error hc] at h; exact Host.Outcome.next.inj h ▸ modeError_frame _
  | cbcEnc =>
    by_cases hc : checkCbcEnc s = .ok
    · rw [exec_cbcEnc_ok hc] at h; exact Host.Outcome.next.inj h ▸ cbcEnc_frame
    · rw [exec_cbcEnc_error hc] at h; exact Host.Outcome.next.inj h ▸ modeError_frame _
  | ecbDec =>
    by_cases hc : checkEcbDec s = .ok
    · cases hp : padOK (ecbDecHold s)
      · rw [exec_ecbDec_padding hc hp] at h; exact Host.Outcome.next.inj h ▸ padding_frame _
      · rw [exec_ecbDec_ok hc hp] at h; exact Host.Outcome.next.inj h ▸ ecbDec_frame
    · rw [exec_ecbDec_error hc] at h; exact Host.Outcome.next.inj h ▸ modeError_frame _
  | cbcDec =>
    by_cases hc : checkCbcDec s = .ok
    · cases hp : padOK (cbcDecHold s)
      · rw [exec_cbcDec_padding hc hp] at h; exact Host.Outcome.next.inj h ▸ padding_frame _
      · rw [exec_cbcDec_ok hc hp] at h; exact Host.Outcome.next.inj h ▸ cbcDec_frame
    · rw [exec_cbcDec_error hc] at h; exact Host.Outcome.next.inj h ▸ modeError_frame _

end Sys2Proof.Machine
end

