-- ==== Sys2Proof/Laws/PerInstr.lean ====
section
/-! SUPPORT. One lemma per command for each family of statements about the commands as syntax. -/

namespace Sys2Proof.Laws.OpcodeRow

/-- A well-formed command's word has its row's OP in bits 7:0, its ARG in bits 11:8 and RSV zero (R60, R62). -/
def Statement (i : Instr) : Prop :=
  i.wf = true →
    (encode i).toNat % 256 = opcodeOf i ∧ (encode i).toNat / 256 % 16 = argOf i ∧ (encode i).toNat / 4096 = 0

theorem nop : Statement .nop := fun _ => by decide
theorem keyExpand : Statement .keyExpand := fun _ => by decide
theorem stateLoad : Statement .stateLoad := fun _ => by decide
theorem stateStore : Statement .stateStore := fun _ => by decide
theorem subBytes : Statement .subBytes := fun _ => by decide
theorem invSubBytes : Statement .invSubBytes := fun _ => by decide
theorem shiftRows : Statement .shiftRows := fun _ => by decide
theorem invShiftRows : Statement .invShiftRows := fun _ => by decide
theorem mixColumns : Statement .mixColumns := fun _ => by decide
theorem invMixColumns : Statement .invMixColumns := fun _ => by decide

theorem addRoundKey (round : Nat) : Statement (.addRoundKey round) := by
  intro h
  have hr : round < 16 := by simpa [Instr.wf] using h
  simp only [encode, opcodeOf, argOf, BitVec.toNat_ofNat]
  omega

theorem cipherBlock : Statement .cipherBlock := fun _ => by decide
theorem invCipherBlock : Statement .invCipherBlock := fun _ => by decide
theorem ecbEnc : Statement .ecbEnc := fun _ => by decide
theorem ecbDec : Statement .ecbDec := fun _ => by decide
theorem cbcEnc : Statement .cbcEnc := fun _ => by decide
theorem cbcDec : Statement .cbcDec := fun _ => by decide
theorem gfMul : Statement .gfMul := fun _ => by decide
theorem gfDouble : Statement .gfDouble := fun _ => by decide
theorem sbox : Statement .sbox := fun _ => by decide
theorem invSbox : Statement .invSbox := fun _ => by decide

end Sys2Proof.Laws.OpcodeRow
end

