-- ==== Sys2Proof/Machine/HostProgram.lean ====
section
/-! DEFINITION. Host programs: the operations of 30_encoding.md R65, the pseudo-operations of R66 with their expansions
into moves of the agenda, the end of a run and its result (70_reset_and_hazards.md R274). -/

namespace Sys2Proof.Machine

/-- One line of a host program (R65, R66). -/
inductive HostOp where
  /-- `WR <reg>, <v32>`. -/
  | wr (r : RegName) (v : Word)
  /-- `RD <reg>`. -/
  | rd (r : RegName)
  /-- `MWR <addr>, <hex bytes>`. -/
  | mwr (addr : Nat) (bytes : List Byte)
  /-- `MRD <addr>, <n>`. -/
  | mrd (addr n : Nat)
  /-- `CMD <MNEMONIC>`, with the round of `ADD_ROUND_KEY`. -/
  | cmd (i : Instr)
  /-- `WAIT`, the host reading STATUS `polls` times before the command completes (R275 leaves the number open). -/
  | wait (polls : Nat)
  /-- `RUN <MNEMONIC> [r]`. -/
  | run (i : Instr) (polls : Nat)
  /-- `ACK`. -/
  | ack
  /-- `EXPECT_ERR <code>`. -/
  | expectErr (code : Nat)
deriving DecidableEq, Repr

/-- The offset of a register's name (R22); the first reserved offset for the reserved space. -/
def offsetOf (r : RegName) : Nat :=
  match r with
  | .cmd => 0x00
  | .status => 0x04
  | .keyAddr => 0x08
  | .keyLen => 0x0C
  | .ivAddr => 0x10
  | .ivLen => 0x14
  | .srcAddr => 0x18
  | .srcLen => 0x1C
  | .dstAddr => 0x20
  | .outLen => 0x24
  | .keycfg => 0x28
  | .opA => 0x2C
  | .opB => 0x30
  | .res => 0x34
  | .reserved => 0x38

/-- `RD STATUS`. -/
def readStatus : Move := .regRead .word (offsetOf .status)

/-- The `CMD` write of a command: `WR CMD, <word of R62>` (R65). -/
def commandMoves (i : Instr) : List Move := [.regWrite .word (offsetOf .cmd) (encode i)]

/-- `WAIT` (R66), whose first `polls` reads of STATUS come before the engine completes the command. -/
def waitMoves (polls : Nat) : List Move :=
  match polls with
  | 0 => [.engine, .wait 0]
  | n + 1 => [.wait n]

/-- The moves of one line, in order (R65, R66). The sums `addr + j` are natural numbers, never wrapped (R10). -/
def HostOp.moves (op : HostOp) : List Move :=
  match op with
  | .wr r v => [.regWrite .word (offsetOf r) v]
  | .rd r => [.regRead .word (offsetOf r)]
  | .mwr addr bytes => bytes.zipIdx.map fun x => .memWrite (addr + x.2) x.1
  | .mrd addr n => (List.range n).map fun j => .memRead (addr + j)
  | .cmd i => commandMoves i
  | .wait polls => waitMoves polls
  | .run i polls => commandMoves i ++ waitMoves polls
  | .ack => [.regWrite .word (offsetOf .status) 0x0000000A]
  | .expectErr _ => [readStatus]

/-- The claim of `EXPECT_ERR <code>` on the last read of STATUS: bits 11:8 are the code (R66). -/
def showsError (code : Nat) (s : State) : Bool := (s.regData.extractLsb' 8 4).toNat == code

/-- `s` with a host program to run: its moves, in order (log 7). -/
def State.withProgram (s : State) (ops : List HostOp) : State := { s with agenda := ops.flatMap HostOp.moves }

/-- A run of a host program: the machine, and what R274 asks the host to have seen, which is no state of the block. -/
structure HostRun where
  machine : State
  /-- The host's last action was a `CMD` write, and it has not read STATUS with BUSY 0 and DONE 1 since (R274). -/
  unseen : Bool
deriving DecidableEq, Repr

/-- `unseen` after the move `m` has led to `t`: a `CMD` write sets it, a read of STATUS that shows completion clears it,
and any other action of the host makes the `CMD` write no longer the last one. A read of STATUS that shows no
completion is the observing itself and leaves it (DEDUCED, log 20). -/
def unseenAfter (m : Move) (t : State) (unseen : Bool) : Bool :=
  match m with
  | .regWrite _ off _ => off == offsetOf .cmd
  | .regRead _ off => off == offsetOf .status && unseen && !showsCompletion t
  | .wait _ => unseen && !showsCompletion t
  | .memWrite _ _ | .memRead _ | .hardReset | .powerCycle => false
  | .engine | .tick => unseen

/-- The run of a program from a state (log 7). -/
def HostRun.start (s : State) (ops : List HostOp) : HostRun := ⟨s.withProgram ops, false⟩

/-- One step of a run: a step of the machine, and what the host has seen by it. -/
def HostRun.next (r : HostRun) : Host.Outcome HostRun Fault Refusal :=
  match step r.machine with
  | .next t => .next ⟨t, match r.machine.agenda with
    | [] => r.unseen
    | m :: _ => unseenAfter m t r.unseen⟩
  | .fault e => .fault e
  | .refused e => .refused e

/-- A run is over when the program has performed its last action and, if that was a `CMD` write, the host has observed
BUSY 0 and DONE 1 afterwards; "a run that ends with `BUSY = 1` is not over" (R274). -/
def HostRun.over (r : HostRun) : Bool := r.machine.agenda.isEmpty && !r.unseen && !r.machine.busy

/-- The registers of the map, in order of offset (R22). -/
def registerNames : List RegName :=
  [.cmd, .status, .keyAddr, .keyLen, .ivAddr, .ivLen, .srcAddr, .srcLen, .dstAddr, .outLen, .keycfg, .opA, .opB, .res]

/-- "The run's result is the host registers, the value of `S` (as a later `STATE_STORE` would write it) and the buffer
memory at that point" (R274). -/
structure RunResult where
  regs : List Word
  sreg : Block
  mem : Memory
deriving DecidableEq, Repr

/-- The result of a run that is over (R274). -/
def HostRun.result (r : HostRun) : Option RunResult :=
  if r.over then
    some ⟨registerNames.map fun n => regValue n r.machine, r.machine.sreg, r.machine.mem⟩
  else none

end Sys2Proof.Machine
end

