-- ==== Sys2Proof/Tests/Slice0.lean ====
section
/-! SUPPORT. Tests of the model, with expected results from the spec's own examples and vectors (95_test_vectors.md, the
examples of the command rules), and for each statement with hypotheses a theorem that meets them. -/

namespace Sys2Proof.Machine

/-! ## Helpers -/

/-- A byte string written as one hexadecimal number of `n` bytes. -/
def bytesOf (n v : Nat) : List Byte := (List.range n).map fun j => BitVec.ofNat 8 (v / 256 ^ (n - 1 - j))

/-- A block written as one hexadecimal number, byte 0 first. -/
def blockOf (v : Nat) : Block := Vector.ofFn fun i => BitVec.ofNat 8 (v / 256 ^ (15 - i.val))

/-- A memory of 4096 bytes holding byte strings at addresses. -/
def memWith (l : List (Nat × List Byte)) : Memory := l.foldl (fun m x => m.storeBytes x.1 x.2) ⟨4096, []⟩

/-- The state an outcome gives, or reset. -/
def after : Host.Outcome State Fault Refusal → State
  | .next s => s
  | .fault _ => State.reset
  | .refused _ => State.reset

/-- K1 and K2 of 95_test_vectors.md, and its common State. -/
def key1 : Nat := 0x000102030405060708090A0B0C0D0E0F
def key2 : Nat := 0x2B7E151628AED2A6ABF7158809CF4F3C
def stateBytes : Nat := 0x00112233445566778899AABBCCDDEEFF

/-- Reset with latched operands. -/
def latched (l : Latched) (m : Memory) : State := { State.reset with lat := l, mem := m }

/-- A state with the 16-byte key `k` loaded. -/
def keyed (k : Nat) (l : Latched) (m : Memory) : State :=
  { State.reset with
    lat := l, mem := m, keyValid := true, nk := 4, nr := 10,
    w := expandKey (memWith [(0, bytesOf 16 k)]) 0 16 State.reset.w }

/-- A state of 64 bytes of memory with the zero schedule loaded as a 16-byte key's. -/
def small (l : Latched) : State :=
  { State.reset with lat := l, mem := ⟨64, [(1, 5)]⟩, keyValid := true, nk := 4, nr := 10 }

/-- A state whose latched command word `v` waits for its checks. -/
def waiting (v : Word) : State := { small { Latched.reset with cmd := v } with fsm := .check }

/-- A byte `v` in `S` positions `0 .. 15` counting up. -/
def counting : Block := blockOf key1

/-! ## Well-formedness and decoding -/

theorem test_wf_refuses_round_16 : (Instr.addRoundKey 16).wf = false ∧ (Instr.addRoundKey 15).wf = true := by decide

/-- The words of R62 bit by bit: twenty bits RSV, four ARG, eight OP (R60). -/
theorem test_decode_control : decode 0b00000000000000000000000000000000#32 = .command .nop ∧
    decode 0b00000000000000000000000000000001#32 = .command .keyExpand := by decide

theorem test_decode_state : decode 0b00000000000000000000000000010000#32 = .command .stateLoad ∧
    decode 0b00000000000000000000000000010001#32 = .command .stateStore := by decide

theorem test_decode_transforms : decode 0b00000000000000000000000000010010#32 = .command .subBytes ∧
    decode 0b00000000000000000000000000010011#32 = .command .invSubBytes ∧
    decode 0b00000000000000000000000000010100#32 = .command .shiftRows ∧
    decode 0b00000000000000000000000000010101#32 = .command .invShiftRows ∧
    decode 0b00000000000000000000000000010110#32 = .command .mixColumns ∧
    decode 0b00000000000000000000000000010111#32 = .command .invMixColumns := by decide

theorem test_decode_addRoundKey : decode 0b00000000000000000000101000011000#32 = .command (.addRoundKey 10) ∧
    decode 0b00000000000000000000111100011000#32 = .command (.addRoundKey 15) := by decide

theorem test_decode_block : decode 0b00000000000000000000000000100000#32 = .command .cipherBlock ∧
    decode 0b00000000000000000000000000100001#32 = .command .invCipherBlock := by decide

theorem test_decode_modes : decode 0b00000000000000000000000000110000#32 = .command .ecbEnc ∧
    decode 0b00000000000000000000000000110001#32 = .command .ecbDec ∧
    decode 0b00000000000000000000000000110010#32 = .command .cbcEnc ∧
    decode 0b00000000000000000000000000110011#32 = .command .cbcDec := by decide

theorem test_decode_bytes : decode 0b00000000000000000000000001000000#32 = .command .gfMul ∧
    decode 0b00000000000000000000000001000001#32 = .command .gfDouble ∧
    decode 0b00000000000000000000000001000010#32 = .command .sbox ∧
    decode 0b00000000000000000000000001000011#32 = .command .invSbox := by decide

/-- Each test of R63 refuses by name: RSV, an unassigned OP, ARG with OP other than 0x18 (R205's example). -/
theorem test_decode_illegal : decode 0x00001000#32 = .illegal .reservedBits ∧
    decode 0x00000002#32 = .illegal .opcodeUnassigned ∧ decode 0x00000044#32 = .illegal .opcodeUnassigned ∧
    decode 0x00000100#32 = .illegal .argNotZero := by decide

theorem test_decodeTableWord : decodeTableWord 32 0x00000A18 = some (.addRoundKey 10) ∧
    decodeTableWord 32 0x00000100 = none := by decide

/-- R65 and R66: the expansions of `CMD ADD_ROUND_KEY 10`, `ACK` and `MWR`. -/
theorem test_hostOps : HostOp.moves (.cmd (.addRoundKey 10)) = [.regWrite .word 0x00 0x00000A18] ∧
    HostOp.moves .ack = [.regWrite .word 0x04 0x0000000A] ∧
    HostOp.moves (.mwr 0x10 [1, 2]) = [.memWrite 0x10 1, .memWrite 0x11 2] := by decide

/-- R10 and R43: `MWR 0xFFFFFFFF` of two bytes does not wrap to address 0, where memory keeps its byte. -/
theorem test_mwr_does_not_wrap : HostOp.moves (.mwr 0xFFFFFFFF [1, 2]) = [.memWrite 0xFFFFFFFF 1, .memWrite 0x100000000 2] ∧
    (hostMemWrite 0x100000000 2 State.reset).mem.load 0 = State.reset.mem.load 0 := by decide

/-- R43: a write at MEM_SIZE has no effect, while a command runs too; the last byte below it is a forbidden write. -/
theorem test_write_above_memory_while_busy :
    hostMemWrite 64 7 (waiting 0x10) = waiting 0x10 ∧ (hostMemWrite 63 7 (waiting 0x10)).hazard = true := by decide

/-- R66: idle with DONE 1 one read ends `WAIT`; idle with DONE 0 it repeats. -/
theorem test_wait :
    (after (step { State.reset with done := true, agenda := [.wait 0, .tick] })).agenda = [.tick] ∧
    (after (step { State.reset with agenda := [.wait 0] })).agenda = [.engine, .wait 0] := by decide

/-- R66: while busy a read does not end `WAIT`. -/
theorem test_wait_busy : (waitRead 2 (waiting 0)).agenda = [.wait 1] := by
  rw [waitRead_repeats (by decide)]; decide

/-- R274: a program that ends in a `CMD` write is not over when the engine idles, only when the host has then read STATUS
with BUSY 0 and DONE 1; its result shows R205's STATUS 0x00000002. -/
theorem test_run_is_over :
    (HostRun.mk { State.reset with done := true } true).over = false ∧
    unseenAfter (.regRead .word 0x04) { State.reset with regData := 1 } true = true ∧
    unseenAfter (.regRead .word 0x04) { State.reset with regData := 2 } true = false ∧
    ((HostRun.mk { State.reset with done := true } false).result.map fun x => x.regs.getD 1 0) = some 0x00000002#32 := by
  decide

/-! ## One or two vectors a command -/

/-- R205's example: after reset, `NOP` leaves STATUS 0x00000002. -/
theorem test_nop : statusWord (after (step (State.reset.withFetchWord 32 0))) = 0x00000002#32 := by decide

/-- 95_test_vectors.md L2-4, first row. -/
theorem test_keyExpand :
    (fun t : State => (keyWord t.w 4, keyWord t.w 43, keycfgWord t, t.err))
      (after (exec .keyExpand (latched { Latched.reset with keyLen := 16 } (memWith [(0, bytesOf 16 key2)])))) =
    (#v[0xA0, 0xFA, 0xFE, 0x17], #v[0xB6, 0x63, 0x0C, 0xA6], 0x00000A04#32, .ok) := by decide +kernel

/-- 95_test_vectors.md L2-4, third row: a 32-byte key, with the `Nk > 6` branch. -/
theorem test_keyExpand_256 :
    (fun t : State => (keyWord t.w 8, keyWord t.w 59, keycfgWord t))
      (after (exec .keyExpand (latched { Latched.reset with keyLen := 32 }
        (memWith [(0, bytesOf 32 0x603DEB1015CA71BE2B73AEF0857D77811F352C073B6108D72D9810A30914DFF4)])))) =
    (#v[0x9B, 0xA3, 0x54, 0x11], #v[0x70, 0x6C, 0x63, 0x1E], 0x00000E08#32) := by decide +kernel

/-- R151's example. -/
theorem test_stateLoad :
    (after (exec .stateLoad (latched { Latched.reset with srcAddr := 4080 }
      (memWith [(4080, bytesOf 16 stateBytes)])))).sreg = blockOf stateBytes := by decide +kernel

theorem test_stateLoad_beyond : (after (exec .stateLoad (latched { Latched.reset with srcAddr := 4081 } (memWith [])))).err =
    .badAddress := by decide +kernel

/-- R152's example, and the byte after it. -/
theorem test_stateStore :
    (fun t : State => (t.mem.loadBlock 0x100, t.mem.load 0x110))
      (after (exec .stateStore { latched { Latched.reset with dstAddr := 0x100 } (memWith [(0x110, [0xEE])]) with
        sreg := blockOf stateBytes })) = (blockOf stateBytes, 0xEE) := by decide +kernel

/-- 95_test_vectors.md L2-5. -/
theorem test_subBytes : (after (exec .subBytes { State.reset with sreg := counting })).sreg =
    blockOf 0x637C777BF26B6FC53001672BFED7AB76 := by decide +kernel

theorem test_invSubBytes : (after (exec .invSubBytes { State.reset with sreg := counting })).sreg =
    blockOf 0x52096AD53036A538BF40A39E81F3D7FB := by decide +kernel

theorem test_shiftRows : (after (exec .shiftRows { State.reset with sreg := counting })).sreg =
    blockOf 0x00050A0F04090E03080D02070C01060B := by decide +kernel

theorem test_invShiftRows : (after (exec .invShiftRows { State.reset with sreg := counting })).sreg =
    blockOf 0x000D0A0704010E0B0805020F0C090603 := by decide +kernel

theorem test_mixColumns : (after (exec .mixColumns { State.reset with sreg := counting })).sreg =
    blockOf 0x02070005060304010A0F080D0E0B0C09 := by decide +kernel

theorem test_mixColumns_distinct :
    (after (exec .mixColumns { State.reset with sreg := blockOf 0xDB135345F20A225C01010101C6C6C6C6 })).sreg =
    blockOf 0x8E4DA1BC9FDC589D01010101C6C6C6C6 := by decide +kernel

theorem test_invMixColumns : (after (exec .invMixColumns { State.reset with sreg := counting })).sreg =
    blockOf 0x0A0F080D0E0B0C090207000506030401 := by decide +kernel

/-- 95_test_vectors.md L2-6, round 10 of K1 over a zero State. -/
theorem test_addRoundKey : (after (exec (.addRoundKey 10) (keyed key1 Latched.reset (memWith [])))).sreg =
    blockOf 0x13111D7FE3944A17F307A78B4D2B30C5 := by decide +kernel

/-- 95_test_vectors.md L2-6: round 11 above NR, and without a key `KeyNotLoaded` first. -/
theorem test_addRoundKey_errors :
    statusWord (after (exec (.addRoundKey 11) (small Latched.reset))) = 0x00000606#32 ∧
    statusWord (after (exec (.addRoundKey 11) State.reset)) = 0x00000502#32 := by decide

/-- The source's known answer, 95_test_vectors.md L1-1. -/
theorem test_cipherBlock :
    (after (exec .cipherBlock { keyed key1 Latched.reset (memWith []) with sreg := blockOf stateBytes })).sreg =
    blockOf 0x69C4E0D86A7B0430D8CDB78070B4C55A := by decide +kernel

/-- 95_test_vectors.md L2-8, first row. -/
theorem test_invCipherBlock :
    (after (exec .invCipherBlock { keyed key1 Latched.reset (memWith []) with
      sreg := blockOf 0x69C4E0D86A7B0430D8CDB78070B4C55A })).sreg = blockOf stateBytes := by decide +kernel

/-- 95_test_vectors.md L2-10, n = 15. -/
theorem test_ecbEnc :
    (fun t : State => (t.mem.loadBlock 0x200, t.outLen, t.err))
      (after (exec .ecbEnc (keyed key1 { Latched.reset with srcAddr := 0x100, srcLen := 15, dstAddr := 0x200 }
        (memWith [(0x100, bytesOf 16 stateBytes)])))) =
    (blockOf 0x77A0785A36A150ED8831CE8AEF66DED4, 16#32, .ok) := by decide +kernel

/-- The latched operands of 95_test_vectors.md L2-13. -/
def decOperands : Latched := { Latched.reset with srcAddr := 0x100, srcLen := 16, dstAddr := 0x200 }

/-- 95_test_vectors.md L2-13, row 6: padding 03 03 03, thirteen bytes written, the rest untouched. -/
theorem test_ecbDec :
    (fun t : State => (t.mem.loadBlock 0x200, t.outLen, t.err))
      (after (exec .ecbDec (keyed key1 decOperands
        (memWith [(0x100, bytesOf 16 0x36D93712B1EDC49669677665E355EF62), (0x200, List.replicate 16 0xEE)])))) =
    (blockOf 0x00112233445566778899AABBCCEEEEEE, 13#32, .ok) := by decide +kernel

/-- 95_test_vectors.md L2-13, row 3: byte 14 is 01, not 02. -/
theorem test_ecbDec_padding :
    (fun t : State => (t.mem.loadBlock 0x200, t.sreg, t.outLen, t.err))
      (after (exec .ecbDec (keyed key1 decOperands
        (memWith [(0x100, bytesOf 16 0xE3C085A676DE8ABD61D101695E6A4291), (0x200, List.replicate 16 0xEE)])))) =
    (Vector.replicate 16 0xEE, blockOf 0x00112233445566778899AABBCCDD0102, 0#32, .badPadding) := by decide +kernel

/-- The latched operands of 95_test_vectors.md L2-11, in place at 0x100 with the IV at 0x080. -/
def cbcOperands (n : Word) : Latched :=
  { Latched.reset with ivAddr := 0x080, ivLen := 16, srcAddr := 0x100, srcLen := n, dstAddr := 0x100 }

/-- 95_test_vectors.md L2-11, n = 0. -/
theorem test_cbcEnc :
    (fun t : State => (t.mem.loadBlock 0x100, t.prev, t.outLen, t.err))
      (after (exec .cbcEnc (keyed key2 (cbcOperands 0) (memWith [(0x080, bytesOf 16 key1)])))) =
    (blockOf 0xC84AF0B613435D5D9182801A9BD9320B, blockOf 0xC84AF0B613435D5D9182801A9BD9320B, 16#32, .ok) := by
  decide +kernel

/-- 95_test_vectors.md L2-11, n = 16, decrypted in place: two blocks, the chain taken from the ciphertext. -/
theorem test_cbcDec :
    (fun t : State => (t.mem.loadBlock 0x100, t.sreg, t.prev, t.outLen))
      (after (exec .cbcDec (keyed key2 (cbcOperands 32) (memWith [(0x080, bytesOf 16 key1),
        (0x100, bytesOf 16 0x7649ABAC8119B246CEE98E9B12E9197D),
        (0x110, bytesOf 16 0x8964E0B149C10B7B682E6E39AAEB731C)])))) =
    (blockOf 0x6BC1BEE22E409F96E93D7E117393172A, Vector.replicate 16 0x10,
      blockOf 0x8964E0B149C10B7B682E6E39AAEB731C, 16#32) := by decide +kernel

/-- 95_test_vectors.md L2-1: bits 4 to 7 of the multiplier. -/
theorem test_gfMul :
    (after (exec .gfMul (latched { Latched.reset with opA := 0x57, opB := 0xF0 } (memWith [])))).res = 0x2D := by decide

/-- 95_test_vectors.md L2-2. -/
theorem test_gfDouble :
    (after (exec .gfDouble (latched { Latched.reset with opA := 0x8E, opB := 0xFF } (memWith [])))).res = 0x07 := by
  decide

/-- 95_test_vectors.md L2-3: an entry whose row and column differ. -/
theorem test_sbox :
    (after (exec .sbox (latched { Latched.reset with opA := 0x10, opB := 0xFF } (memWith [])))).res = 0xCA := by decide

theorem test_invSbox :
    (after (exec .invSbox (latched { Latched.reset with opA := 0x16, opB := 0xFF } (memWith [])))).res = 0xFF := by
  decide

/-! ## Every hypothesis is met

One theorem for each statement that has hypotheses: a state and operands that meet them, for each clause, at a boundary
of its range. -/

theorem witness_DecodeUndoesEncode : (Instr.addRoundKey 15).wf = true ∧ Instr.invSbox.wf = true := by decide

theorem witness_DecodeFollowsTheOpcodeMap :
    decode 0x00000F18#32 = .command (.addRoundKey 15) ∧
    ((0x00000B18#32).toNat / 4096 = 0 ∧ (0x00000B18#32).toNat % 256 = 0x18 ∧
      (small Latched.reset).keyValid = true ∧ (small Latched.reset).nr.toNat < (0x00000B18#32).toNat / 256 % 16) := by
  decide

theorem witness_OpcodeMapWords : (15 : Nat) < 16 := by decide

/-- The last clause from an idle state. -/
theorem witness_StepRunsTheDecodedCommand_idle :
    decode (BitVec.ofNat 32 0x43) = .command .invSbox ∧ State.reset.fsm = .idle ∧
    { State.reset with agenda := [.regWrite .word 0x00 0x43] }.agenda =
      [.regWrite .word 0x00 (BitVec.ofNat 32 0x43)] := by decide

theorem witness_StepRunsTheDecodedCommand :
    ((waiting 0x43).fsm = .check ∧ decode (waiting 0x43).lat.cmd = .command .invSbox ∧ (waiting 0x43).agenda = [] ∧
      (waiting 0x43).hazard = false) ∧
    { waiting 0x43 with agenda := [.engine, .tick] }.agenda = .engine :: [.tick] ∧
    decode (BitVec.ofNat 32 0x43) = .command .invSbox := by decide

theorem witness_IllegalWordsTouchOnlyStatus :
    State.reset.fsm = .idle ∧
    ((waiting 0xFFFFFFFF).agenda = [] ∧ (waiting 0xFFFFFFFF).fsm = .check ∧ (waiting 0xFFFFFFFF).hazard = false ∧
      decode (waiting 0xFFFFFFFF).lat.cmd = .illegal .reservedBits) := by decide

theorem witness_AcceptanceLatchesEveryOperand :
    ({ State.reset with agenda := [.regWrite .word 0x00 0x44] }.fsm = .idle ∧
      { State.reset with agenda := [.regWrite .word 0x00 0x44] }.agenda = .regWrite .word 0x00 0x44 :: []) ∧
    decode 0x44#32 = .illegal .opcodeUnassigned := by decide

theorem witness_CommandWriteWhileBusyIsDropped :
    (waiting 0).fsm ≠ .idle ∧
    { waiting 0 with agenda := [.regWrite .word 0x00 1] }.agenda = .regWrite .word 0x00 1 :: [] := by decide

theorem witness_OperandWritesWhileBusyWaitForTheNextCommand :
    (waiting 0).fsm ≠ .idle ∧ (waiting 0).fsm = .check ∧
    RegName.opB ∈ [RegName.keyAddr, .keyLen, .ivAddr, .ivLen, .srcAddr, .srcLen, .dstAddr, .opA, .opB] ∧
    RegName.keyAddr ∈ [RegName.keyAddr, .keyLen, .ivAddr, .ivLen, .srcAddr, .srcLen, .dstAddr, .opA, .opB] := by
  decide

theorem witness_RegisterReadsGiveTheRegisterMap :
    (∀ off ∈ [0x00, 0x04, 0x08, 0x0C, 0x10, 0x14, 0x18, 0x1C, 0x20, 0x24, 0x28, 0x2C, 0x30, 0x34, 0x38, 0xFC],
      off % 4 = 0 ∧ off ≤ 0xFC ∧
      { State.reset with agenda := [.regRead .word off] }.agenda = .regRead .word off :: [] ∧
      { waiting 0 with agenda := [.regRead .word off] }.agenda = .regRead .word off :: []) ∧
    State.reset.fsm = .idle ∧ (waiting 0).fsm ≠ .idle := by decide

theorem witness_OperandRegistersReadBack :
    0x30 ∈ [0x08, 0x0C, 0x10, 0x14, 0x18, 0x1C, 0x20, 0x2C, 0x30] ∧
    { State.reset with agenda := [.regWrite .word 0x30 0x1234, .regRead .word 0x30] }.agenda =
      .regWrite .word 0x30 0x1234 :: .regRead .word 0x30 :: [] := by decide

theorem witness_ReservedSpaceReadsZeroAndIgnoresWrites :
    (0x38 % 4 = 0 ∧ 0x38 ≤ 0x38 ∧ 0x38 ≤ 0xFC) ∧ (0xFC % 4 = 0 ∧ 0x38 ≤ 0xFC) ∧
    { waiting 0 with agenda := [.regWrite .word 0xFC 1] }.agenda = .regWrite .word 0xFC 1 :: [] ∧
    (∀ off ∈ [0x24, 0x28, 0x34, 0x38], off % 4 = 0 ∧ off ≤ 0xFC ∧
      (0x38 ≤ off ∨ off = 0x24 ∨ off = 0x28 ∨ off = 0x34) ∧
      { waiting 0 with agenda := [.regWrite .word off 1] }.agenda = .regWrite .word off 1 :: []) := by decide

theorem witness_StatusFieldsAndWriteOneToClear :
    State.reset.fsm = .idle ∧
    { State.reset with agenda := [.regWrite .word 0x04 0xA] }.agenda = .regWrite .word 0x04 0xA :: [] := by decide

theorem witness_RegisterAccessOutsideTheMapIsRefused :
    { State.reset with agenda := [.regWrite .half 0x00 1] }.agenda = .regWrite .half 0x00 1 :: [] ∧
    Width.half ≠ .word ∧
    { State.reset with agenda := [.regRead .word 0xFD] }.agenda = .regRead .word 0xFD :: [] ∧
    (0xFD % 4 ≠ 0 ∨ 0xFC < 0xFD) ∧ (0xFC < 0x100 ∧ 0x100 % 4 = 0) ∧
    { State.reset with agenda := [.regRead .word 0xFC] }.agenda = .regRead .word 0xFC :: [] ∧
    (0xFC % 4 = 0 ∧ 0xFC ≤ 0xFC) := by decide

/-- Memory of 64 bytes: a write at the last address and at the first one above, idle and busy. -/
theorem witness_BufferPortReadsAndWritesOneByte :
    (small Latched.reset).mem.wf = true ∧ (small Latched.reset).fsm = .idle ∧
    { small Latched.reset with agenda := [.memWrite 63 1] }.agenda = .memWrite 63 1 :: [] ∧
    { small Latched.reset with agenda := [.memRead 64] }.agenda = .memRead 64 :: [] ∧
    (small Latched.reset).mem.size ≤ 64 ∧
    { waiting 0x10 with agenda := [.memWrite 64 1] }.agenda = .memWrite 64 1 :: [] ∧
    (waiting 0x10).fsm ≠ .idle ∧ inRanges (touchedRanges (waiting 0x10)) 16 = false ∧
    inRanges (touchedRanges (waiting 0x10)) 15 = true := by decide

theorem witness_HostWriteWhileBusySparesOtherBytes :
    (waiting 0x10).mem.wf = true ∧ (waiting 0x10).fsm = .check ∧
    { waiting 0x10 with agenda := [.memWrite 16 7] }.agenda = .memWrite 16 7 :: [] ∧ 16 < (waiting 0x10).mem.size ∧
    { waiting 0x10 with agenda := [.memWrite 64 7] }.agenda = .memWrite 64 7 :: [] ∧ (waiting 0x10).mem.size ≤ 64 ∧
    inRanges (touchedRanges (waiting 0x10)) 16 = false := by decide

theorem witness_ResetMoveGivesTheResetValues :
    { waiting 0x11 with agenda := [.hardReset] }.agenda = .hardReset :: [] ∧
    { waiting 0x11 with agenda := [.powerCycle] }.agenda = .powerCycle :: [] := by decide

theorem witness_ResetAbandonsARunningCommand :
    { waiting 0x11 with agenda := [.hardReset] }.agenda = .hardReset :: [] ∧ (waiting 0x11).hazard = false ∧
    inRanges (writtenRanges (waiting 0x11)) 15 = true ∧ inRanges (writtenRanges (waiting 0x11)) 16 = false ∧
    State.reset.fsm = .idle := by decide

theorem witness_CanonicalMemoryIsDeterminedByItsBytes :
    (⟨64, [(0, 5), (63, 1)]⟩ : Memory).wf = true ∧
    (∀ x, (⟨64, [(0, 5), (63, 1)]⟩ : Memory).load x = (⟨64, [(0, 5), (63, 1)]⟩ : Memory).load x) :=
  ⟨by decide, fun _ => rfl⟩

/-- A busy state of the least legal memory size meets the invariant, and its step answers a next state. -/
theorem witness_EveryStepKeepsTheInvariant :
    { waiting 0x10 with mem := ⟨16, [(15, 1)]⟩ }.Inv ∧
    ∃ t, step { waiting 0x10 with mem := ⟨16, [(15, 1)]⟩ } = .next t :=
  ⟨⟨by decide, by decide, by decide, by decide, fun h => absurd rfl h.2.1, by decide⟩, _, rfl⟩

theorem witness_NopOnlyCompletes : (0x00000100#32).toNat % 256 = 0 ∧ (0x00000100#32) ≠ 0 := by decide

theorem witness_FieldLaws : (0x01 : Byte) ≠ 0 ∧ gfMult 0x01 0x01 = 0x01 := by decide

theorem witness_FullMultiplierAgreesWithFiveBits : (0x1F : Byte).toNat < 0x20 ∧ [3, 1, 1, 2] ∈ mixMatrix ++ invMixMatrix := by
  decide

/-- 95_test_vectors.md L2-1's inverse pair. -/
theorem witness_SboxIsTheAffineMapOfTheInverse : gfMult 0x53 0xCA = 1 := by decide

theorem witness_RoundConstants : 1 ≤ 1 := by decide

/-- KEY_LEN 17; a key that ends one byte above memory; one that ends at its last byte. -/
theorem witness_KeyExpandOutcomes :
    ({ Latched.reset with keyLen := 17 }.keyLen.toNat ∉ [16, 24, 32]) ∧
    ((16 : Word).toNat ∈ [16, 24, 32] ∧ (small Latched.reset).mem.size < (49 : Word).toNat + (16 : Word).toNat) ∧
    ((32 : Word).toNat ∈ [16, 24, 32] ∧ (32 : Word).toNat + (32 : Word).toNat ≤ (small Latched.reset).mem.size) := by
  decide

theorem witness_KeyExpandScheduleRecurrence :
    (8, 14) ∈ [(4, 10), (6, 12), (8, 14)] ∧
    (small { Latched.reset with keyAddr := 32, keyLen := 32 }).lat.keyLen.toNat = 4 * 8 ∧
    (small { Latched.reset with keyAddr := 32, keyLen := 32 }).lat.keyAddr.toNat + 4 * 8 ≤
      (small { Latched.reset with keyAddr := 32, keyLen := 32 }).mem.size := by decide

theorem witness_OnlyKeyExpandWritesTheSchedule :
    (Instr.nop ≠ .keyExpand ∧ ∃ t, exec .nop (waiting 0) = .next t) ∧
    ((∃ t, step (waiting 0) = .next t) ∧ decode (waiting 0).lat.cmd ≠ .command .keyExpand ∧
      (waiting 0).agenda.head? ≠ some .hardReset ∧ (waiting 0).agenda.head? ≠ some .powerCycle) :=
  ⟨⟨by decide, _, rfl⟩, ⟨_, rfl⟩, by decide, by decide, by decide⟩

/-- A host access after a `KEY_EXPAND`, whose word stays latched, and one while it runs. -/
theorem witness_OnlyKeyExpandWritesTheSchedule_host :
    (∃ t, step { waiting 1 with fsm := .idle, agenda := [.memWrite 63 1] } = .next t) ∧
    { waiting 1 with fsm := .idle, agenda := [.memWrite 63 1] }.fsm = .idle ∧
    (∃ t, step { waiting 1 with agenda := [.regWrite .word 0x08 5] } = .next t) ∧
    { waiting 1 with agenda := [.regWrite .word 0x08 5] }.agenda.head?.any isHostAccess = true ∧
    { waiting 1 with agenda := [.regWrite .word 0x08 5] }.agenda.head? ≠ some .hardReset ∧
    { waiting 1 with agenda := [.regWrite .word 0x08 5] }.agenda.head? ≠ some .powerCycle :=
  ⟨⟨_, rfl⟩, rfl, ⟨_, rfl⟩, rfl, by decide, by decide⟩

theorem witness_StateLoadReadsSixteenBytes :
    (small Latched.reset).mem.size < (49 : Word).toNat + 16 ∧ (48 : Word).toNat + 16 ≤ (small Latched.reset).mem.size := by
  decide

theorem witness_StateStoreWritesSixteenBytes :
    (small Latched.reset).mem.size < (49 : Word).toNat + 16 ∧
    ((48 : Word).toNat + 16 ≤ (small Latched.reset).mem.size ∧ (small Latched.reset).mem.wf = true) := by decide

theorem witness_AddRoundKeyXorsOneSlice :
    State.reset.keyValid = false ∧ ((small Latched.reset).keyValid = true ∧ (small Latched.reset).nr.toNat < 11) ∧
    10 ≤ (small Latched.reset).nr.toNat ∧ (15 : Nat) < 16 := by decide

theorem witness_CipherAppliesItsRoundsInOrder : 1 ≤ 1 := by decide

theorem witness_CipherBlockCommands : State.reset.keyValid = false ∧ (small Latched.reset).keyValid = true := by decide

/-- Fifteen bytes of message that end at the last byte of memory, encrypted in place into one block, and the same
message one byte too far. -/
def encOperands (a : Word) : Latched :=
  { Latched.reset with ivAddr := 48, ivLen := 16, srcAddr := a, srcLen := 15, dstAddr := 48 }

theorem witness_EcbEncRuns :
    State.reset.keyValid = false ∧
    ((small (encOperands 50)).keyValid = true ∧
      ¬(rangeFits (small (encOperands 50)) 50 15 ∧ rangeFits (small (encOperands 50)) 48 (16 * (15 / 16 + 1)))) ∧
    (rangeFits (small (encOperands 49)) 49 15 ∧ rangeFits (small (encOperands 49)) 48 (16 * (15 / 16 + 1)) ∧
      (small (encOperands 49)).mem.wf = true ∧ (small (encOperands 49)).mem.size ≤ Config.maxMemSize) := by decide

theorem witness_CbcEncRuns :
    State.reset.keyValid = false ∧
    ((small decOperands).keyValid = true ∧ (small decOperands).lat.ivLen.toNat ≠ 16) ∧
    ((small (encOperands 50)).lat.ivLen.toNat = 16 ∧
      ¬(rangeFits (small (encOperands 50)) 48 16 ∧ rangeFits (small (encOperands 50)) 50 15 ∧
        rangeFits (small (encOperands 50)) 48 (16 * (15 / 16 + 1)))) ∧
    (rangeFits (small (encOperands 49)) 48 16 ∧ rangeFits (small (encOperands 49)) 49 15 ∧
      rangeFits (small (encOperands 49)) 48 (16 * (15 / 16 + 1)) ∧ (small (encOperands 49)).mem.wf = true) := by decide

/-- Errors of a decryption: no key; a length of 17; a range one byte too far. -/
theorem witness_EcbDecRuns_errors :
    State.reset.keyValid = false ∧
    ((small Latched.reset).keyValid = true ∧ (17 = 0 ∨ 17 % 16 ≠ 0)) ∧
    (16 ≠ 0 ∧ 16 % 16 = 0 ∧ ¬(rangeFits (small Latched.reset) 49 16 ∧ rangeFits (small Latched.reset) 0 16)) := by
  decide

/-- A one-block message whose padding is good, and one whose padding is bad: 95_test_vectors.md L2-13, rows 7 and 4. -/
def goodCipherBlock : Nat := 0x954F64F2E4E86E9EEE82D20216684899
def badCipherBlock : Nat := 0xA50794204ED786A64B79E1933A5A5D5A

theorem good_hold : padOK (ecbDecHold (keyed key1 decOperands (memWith [(0x100, bytesOf 16 goodCipherBlock)]))) = true := by
  decide +kernel

theorem bad_hold : padOK (ecbDecHold (keyed key1 decOperands (memWith [(0x100, bytesOf 16 badCipherBlock)]))) = false := by
  decide +kernel

theorem witness_EcbDecRuns :
    (∃ s : State, s.keyValid = true ∧ s.lat.srcLen.toNat = 16 ∧ rangeFits s 0x100 16 ∧ rangeFits s 0x200 16 ∧
      goodPadding (ecbDecHold s) ∧ s.mem.wf = true) ∧
    (∃ s : State, s.keyValid = true ∧ s.lat.srcLen.toNat = 16 ∧ rangeFits s 0x100 16 ∧ rangeFits s 0x200 16 ∧
      ¬goodPadding (ecbDecHold s)) :=
  ⟨⟨keyed key1 decOperands (memWith [(0x100, bytesOf 16 goodCipherBlock)]), rfl, rfl, by decide +kernel,
      by decide +kernel, (padOK_iff _).mp good_hold, by decide +kernel⟩,
    ⟨keyed key1 decOperands (memWith [(0x100, bytesOf 16 badCipherBlock)]), rfl, rfl, by decide +kernel,
      by decide +kernel, fun h => by simpa [bad_hold] using (padOK_iff _).mpr h⟩⟩

theorem witness_CbcDecRuns_errors :
    State.reset.keyValid = false ∧ (15 = 0 ∨ 15 % 16 ≠ 0) ∧
    ((small decOperands).keyValid = true ∧ (small decOperands).lat.srcLen.toNat ≠ 0 ∧
      (small decOperands).lat.srcLen.toNat % 16 = 0 ∧ (small decOperands).lat.ivLen.toNat ≠ 16) ∧
    ((small (cbcOperands 16)).lat.ivLen.toNat = 16 ∧
      ¬(rangeFits (small (cbcOperands 16)) 0x80 16 ∧ rangeFits (small (cbcOperands 16)) 0x100 16 ∧
        rangeFits (small (cbcOperands 16)) 0x100 16)) := by decide

/-- The one-block CBC message of 95_test_vectors.md L2-11, n = 0, under its IV, and under a zero IV, where the padding
byte is not 0x10. -/
def cbcMessage (iv : Nat) : State :=
  keyed key2 (cbcOperands 16)
    (memWith [(0x080, bytesOf 16 iv), (0x100, bytesOf 16 0xC84AF0B613435D5D9182801A9BD9320B)])

theorem good_cbc_hold : padOK (cbcDecHold (cbcMessage key1)) = true := by decide +kernel

theorem bad_cbc_hold : padOK (cbcDecHold (cbcMessage 0)) = false := by decide +kernel

theorem witness_CbcDecRuns :
    (∃ s : State, s.keyValid = true ∧ s.lat.srcLen.toNat = 16 ∧ s.lat.ivLen.toNat = 16 ∧ rangeFits s 0x80 16 ∧
      rangeFits s 0x100 16 ∧ goodPadding (cbcDecHold s) ∧ s.mem.wf = true) ∧
    (∃ s : State, s.keyValid = true ∧ s.lat.srcLen.toNat = 16 ∧ s.lat.ivLen.toNat = 16 ∧ rangeFits s 0x80 16 ∧
      rangeFits s 0x100 16 ∧ ¬goodPadding (cbcDecHold s)) :=
  ⟨⟨cbcMessage key1, rfl, rfl, rfl, by decide +kernel, by decide +kernel, (padOK_iff _).mp good_cbc_hold,
      by decide +kernel⟩,
    ⟨cbcMessage 0, rfl, rfl, rfl, by decide +kernel, by decide +kernel,
      fun h => by simpa [bad_cbc_hold] using (padOK_iff _).mpr h⟩⟩

/-- In place at the end of a memory of 64 bytes: source 48, fifteen bytes, destination 48. -/
theorem witness_CiphertextIsTheCipherOfThePaddedMessage :
    (small (encOperands 48)).mem.wf = true ∧ noOverrun 48 15 48 ∧ checkEcbEnc (small (encOperands 48)) = .ok ∧
    checkCbcEnc (small (encOperands 48)) = .ok ∧ 0 < 15 / 16 + 1 := by decide

theorem witness_EcbRoundTrip :
    (small (encOperands 48)).mem.wf = true ∧ (small (encOperands 48)).mem.size ≤ Config.maxMemSize ∧
    checkEcbEnc (small (encOperands 48)) = .ok ∧ noOverrun 48 15 48 ∧ noOverrun 48 (16 * (15 / 16 + 1)) 48 ∧
    48 + 16 * (15 / 16 + 1) ≤ (small (encOperands 48)).mem.size := by decide

/-- The IV just below the destination. -/
def cbcTripOperands : Latched :=
  { Latched.reset with ivAddr := 32, ivLen := 16, srcAddr := 48, srcLen := 15, dstAddr := 48 }

theorem witness_CbcRoundTrip :
    (small cbcTripOperands).mem.wf = true ∧ (small cbcTripOperands).mem.size ≤ Config.maxMemSize ∧
    checkCbcEnc (small cbcTripOperands) = .ok ∧ noOverrun 48 15 48 ∧ noOverrun 48 (16 * (15 / 16 + 1)) 0 ∧
    0 + 16 * (15 / 16 + 1) ≤ (small cbcTripOperands).mem.size ∧ (32 + 16 ≤ 48 ∨ 48 + 16 * (15 / 16 + 1) ≤ 32) := by
  decide

/-- A 64-byte memory of zeros with a 32-byte message at 0, encrypted to 16 and up. -/
def twoBlocks (b : Byte) : State :=
  { small { Latched.reset with ivAddr := 0, ivLen := 16, srcAddr := 0, srcLen := 32, dstAddr := 0 } with
    mem := (⟨64, []⟩ : Memory).store 31 b }

theorem witness_EcbEqualBlocksGiveEqualCiphertext :
    ((twoBlocks 0).mem.wf = true ∧ checkEcbEnc (twoBlocks 0) = .ok ∧
      noOverrun (twoBlocks 0).srcBase (twoBlocks 0).srcBytes (twoBlocks 0).dstBase) ∧
    0 < encBlocks (twoBlocks 0).srcBytes ∧ 1 < encBlocks (twoBlocks 0).srcBytes ∧
    paddedBlock (twoBlocks 0).mem (twoBlocks 0).srcBase (twoBlocks 0).srcBytes 0 =
      paddedBlock (twoBlocks 0).mem (twoBlocks 0).srcBase (twoBlocks 0).srcBytes 1 := by decide +kernel

theorem witness_CbcDiffusion :
    (twoBlocks 0).srcBytes = 32 ∧ (twoBlocks 7).srcBytes = 32 ∧ (twoBlocks 0).w = (twoBlocks 7).w ∧
    (twoBlocks 0).nr = (twoBlocks 7).nr ∧
    (twoBlocks 0).mem.loadBlock (twoBlocks 0).ivBase = (twoBlocks 7).mem.loadBlock (twoBlocks 7).ivBase ∧
    (∀ x ∈ [twoBlocks 0, twoBlocks 7],
      x.mem.wf = true ∧ checkCbcEnc x = .ok ∧ noOverrun x.srcBase x.srcBytes x.dstBase) ∧
    (∀ k, k < 32 → k / 16 ≠ 1 →
      (twoBlocks 0).mem.load ((twoBlocks 0).srcBase + k) = (twoBlocks 7).mem.load ((twoBlocks 7).srcBase + k)) ∧
    (31 < 32 ∧ 31 / 16 = 1 ∧
      (twoBlocks 0).mem.load ((twoBlocks 0).srcBase + 31) ≠ (twoBlocks 7).mem.load ((twoBlocks 7).srcBase + 31)) := by
  decide +kernel

theorem witness_ErrorsAreReportedInPriorityOrder :
    (waiting 0x44).agenda = [] ∧ (waiting 0x44).fsm = .check ∧
    decode (waiting 0x44).lat.cmd = .illegal .opcodeUnassigned := by decide

theorem witness_ErrorsLeaveNoPartialOutput :
    (decode (waiting 0x44).lat.cmd = .illegal .opcodeUnassigned ∧ ∃ t, runCommand (waiting 0x44) = .next t) ∧
    (∃ t, exec .keyExpand State.reset = .next t ∧ t.err ≠ .ok) ∧
    (∃ t, exec .ecbEnc State.reset = .next t ∧ t.err ≠ .ok) :=
  ⟨⟨by decide, _, rfl⟩, ⟨_, rfl, by decide⟩, ⟨_, rfl, by decide⟩⟩

/-- The `BadPadding` clause: the bad one-block message of `bad_hold`. -/
theorem witness_ErrorsLeaveNoPartialOutput_padding :
    ∃ s t, exec .ecbDec s = .next t ∧ t.err = .badPadding :=
  ⟨keyed key1 decOperands (memWith [(0x100, bytesOf 16 badCipherBlock)]), _,
    exec_ecbDec_padding (by decide +kernel) bad_hold, rfl⟩

theorem witness_EveryCommandCompletes :
    (∀ width off v, (waiting 0x10).agenda.head? ≠ some (.regWrite width off v)) ∧
    (∀ width off, (waiting 0x10).agenda.head? ≠ some (.regRead width off)) := by
  constructor <;> intros <;> exact nofun

/-- The clauses on `WAIT`: a read that ends it, two that do not, and one while a command waits for its checks. -/
theorem witness_EveryCommandCompletes_wait :
    ({ State.reset with done := true, agenda := [.wait 0] }.agenda = .wait 0 :: [] ∧
      { State.reset with done := true }.fsm = .idle ∧ { State.reset with done := true }.done = true) ∧
    State.reset.done = false ∧ (waiting 0x10).fsm ≠ .idle ∧ (waiting 0x10).fsm = .check ∧
    { waiting 0x10 with agenda := [.wait 0, .tick] }.agenda = .wait 0 :: [.tick] := by decide

theorem witness_ResultRegistersKeepTheirOwners :
    (∃ t, exec .gfMul State.reset = .next t ∧ isMode .gfMul = false) ∧
    (∃ t, exec .cbcDec State.reset = .next t ∧ isMode .cbcDec = true ∧ t.err ≠ .ok) ∧
    (∃ s t, exec .ecbEnc s = .next t ∧ t.err = .ok ∧ s.mem.size ≤ Config.maxMemSize) ∧
    (∃ s t, exec .ecbDec s = .next t ∧ t.err = .ok) :=
  ⟨⟨_, rfl, rfl⟩, ⟨_, rfl, rfl, by decide⟩,
    ⟨small (encOperands 48), _, exec_ecbEnc_ok (by decide), rfl, by decide⟩,
    ⟨keyed key1 decOperands (memWith [(0x100, bytesOf 16 goodCipherBlock)]), _,
      exec_ecbDec_ok (by decide +kernel) good_hold, rfl⟩⟩

theorem witness_OvrIsSticky :
    { waiting 0x10 with ovr := true }.ovr = true ∧ (∃ t, step { waiting 0x10 with ovr := true } = .next t) ∧
    ∃ t, exec .nop (waiting 0) = .next t :=
  ⟨rfl, ⟨_, rfl⟩, _, rfl⟩

theorem witness_StateMachineRefinesTheAtomicCommand :
    (waiting 0x20).fsm = .check ∧ (waiting 0x20).keyInv ∧ ∃ t, runCommand (waiting 0x20) = .next t :=
  ⟨rfl, by decide, _, rfl⟩

theorem witness_StateMachineTerminates : (waiting 0x33).fsm = .check := by decide

theorem witness_StateMachineStepCounts :
    ((8, 14, 52) ∈ [(4, 10, 40), (6, 12, 46), (8, 14, 52)] ∧
      { small { Latched.reset with cmd := 1, keyAddr := 32, keyLen := 32 } with fsm := .check }.fsm = .check ∧
      decode (1 : Word) = .command .keyExpand ∧ (32 : Word).toNat = 4 * 8 ∧ (32 : Word).toNat + 4 * 8 ≤ 64) ∧
    ((waiting 0x20).fsm = .check ∧ (waiting 0x20).keyValid = true ∧
      decode (waiting 0x20).lat.cmd = .command .cipherBlock ∧
      decode (waiting 0x21).lat.cmd = .command .invCipherBlock) := by decide

end Sys2Proof.Machine
end

section
/-! What a command's completion can be, said once for `exec`: its effect, the error of its checks, or a bad padding. -/

namespace Sys2Proof.Machine

/-- What a command whose checks have passed does before it completes, one arm per command (R203). -/
def commandEffect (i : Instr) (s : State) : State :=
  match i with
  | .nop => s
  | .keyExpand => keyExpandEffect s
  | .stateLoad => stateLoadEffect s
  | .stateStore => stateStoreEffect s
  | .subBytes => transformEffect subBytes s
  | .invSubBytes => transformEffect invSubBytes s
  | .shiftRows => transformEffect shiftRows s
  | .invShiftRows => transformEffect invShiftRows s
  | .mixColumns => transformEffect mixColumns s
  | .invMixColumns => transformEffect invMixColumns s
  | .addRoundKey round => addRoundKeyEffect round s
  | .cipherBlock => transformEffect (cipher s.w s.nr.toNat) s
  | .invCipherBlock => transformEffect (invCipher s.w s.nr.toNat) s
  | .ecbEnc => ecbEncEffect s
  | .ecbDec => ecbDecEffect s
  | .cbcEnc => cbcEncEffect s
  | .cbcDec => cbcDecEffect s
  | .gfMul => gfMulEffect s
  | .gfDouble => gfDoubleEffect s
  | .sbox => sboxEffect s
  | .invSbox => invSboxEffect s

/-- How a command reports an error of its checks: `KEY_EXPAND` unloads the key, a mode command clears `OUT_LEN`
(R238 items 4 and 5). -/
def commandError (i : Instr) (e : ErrCode) (s : State) : State :=
  if i = .keyExpand then raiseKeyError e s else if isMode i then raiseModeError e s else raiseError e s

/-- The final block a decryption's padding pre-check decrypts; no other command has one (R185, R187). -/
def finalBlock (i : Instr) (s : State) : Option Block :=
  if i = .ecbDec then some (ecbDecHold s) else if i = .cbcDec then some (cbcDecHold s) else none

/-- The three ways a command completes. -/
inductive Completes (i : Instr) (s : State) : State → Prop where
  /-- The checks passed, and so did the padding of a decryption. -/
  | success (hc : commandCheck i s = .ok) (hp : ∀ b ∈ finalBlock i s, padOK b = true) :
      Completes i s (complete .ok (commandEffect i s))
  /-- A check failed (R240 items 2 to 6). -/
  | checkFailed (hc : commandCheck i s ≠ .ok) : Completes i s (commandError i (commandCheck i s) s)
  /-- The padding of a decryption's final block is bad (R240 item 7). -/
  | badPadding (hc : commandCheck i s = .ok) (b : Block) (hb : b ∈ finalBlock i s) (hp : padOK b = false) :
      Completes i s (raiseModeError .badPadding (precheckEffect b s))

/-- `exec` answers the one state that its command completes with. -/
theorem exec_completes (i : Instr) (s : State) : ∃ t, exec i s = .next t ∧ Completes i s t := by
  by_cases hc : commandCheck i s = .ok
  · by_cases hp : ∀ b ∈ finalBlock i s, padOK b = true
    · refine ⟨_, ?_, .success hc hp⟩
      cases i with
      | ecbDec => exact exec_ecbDec_ok hc (hp _ rfl)
      | cbcDec => exact exec_cbcDec_ok hc (hp _ rfl)
      | keyExpand => exact exec_keyExpand_ok hc
      | stateLoad => exact exec_stateLoad_ok hc
      | stateStore => exact exec_stateStore_ok hc
      | addRoundKey r => exact exec_addRoundKey_ok hc
      | cipherBlock => exact exec_cipherBlock_ok hc
      | invCipherBlock => exact exec_invCipherBlock_ok hc
      | ecbEnc => exact exec_ecbEnc_ok hc
      | cbcEnc => exact exec_cbcEnc_ok hc
      | _ => rfl
    · push Not at hp
      obtain ⟨b, hb, hp⟩ := hp
      have hp := Bool.eq_false_of_not_eq_true hp
      refine ⟨_, ?_, .badPadding hc b hb hp⟩
      cases i with
      | ecbDec => cases hb; exact exec_ecbDec_padding hc hp
      | cbcDec => cases hb; exact exec_cbcDec_padding hc hp
      | _ => cases hb
  · refine ⟨_, ?_, .checkFailed hc⟩
    cases i with
    | ecbDec => exact exec_ecbDec_error hc
    | cbcDec => exact exec_cbcDec_error hc
    | keyExpand => exact exec_keyExpand_error hc
    | stateLoad => exact exec_stateLoad_error hc
    | stateStore => exact exec_stateStore_error hc
    | addRoundKey r => exact exec_addRoundKey_error hc
    | cipherBlock => exact exec_cipherBlock_error hc
    | invCipherBlock => exact exec_invCipherBlock_error hc
    | ecbEnc => exact exec_ecbEnc_error hc
    | cbcEnc => exact exec_cbcEnc_error hc
    | _ => exact absurd rfl hc

/-- If a command answers `next t`, then `t` is one of its three completions. -/
theorem completes_of_exec {i : Instr} {s t : State} (h : exec i s = .next t) : Completes i s t := by
  obtain ⟨u, hu, hc⟩ := exec_completes i s
  rw [h] at hu
  cases hu
  exact hc

/-- Only `KEY_EXPAND` changes NK, NR and KEY_VALID (R17, R18). -/
theorem exec_keeps_key {i : Instr} {s t : State} (hi : i ≠ .keyExpand) (h : exec i s = .next t) :
    t.keyValid = s.keyValid ∧ t.nk = s.nk ∧ t.nr = s.nr := by
  cases completes_of_exec h with
  | success hc hp => cases i <;> simp [commandEffect] at hi ⊢
  | checkFailed hc => unfold commandError; rw [if_neg hi]; split <;> simp
  | badPadding hc b hb hp => simp

end Sys2Proof.Machine
end

section
/-! Who owns the result registers: the mode commands OUT_LEN, the byte commands RES (R29, R32). -/

namespace Sys2Proof.Machine

theorem commandEffect_outLen {i : Instr} (hi : isMode i = false) (s : State) :
    (commandEffect i s).outLen = s.outLen := by
  cases i <;> simp [commandEffect, isMode] at hi ⊢

theorem commandEffect_res {i : Instr} (hi : i ∉ [Instr.gfMul, .gfDouble, .sbox, .invSbox]) (s : State) :
    (commandEffect i s).res = s.res := by
  cases i <;> simp [commandEffect] at hi ⊢

theorem commandError_res (i : Instr) (e : ErrCode) (s : State) : (commandError i e s).res = s.res := by
  unfold commandError; split
  · rfl
  · split <;> rfl

theorem commandError_err (i : Instr) (e : ErrCode) (s : State) : (commandError i e s).err = e := by
  unfold commandError; split
  · rfl
  · split <;> rfl

theorem commandError_outLen (i : Instr) (e : ErrCode) (s : State) :
    (commandError i e s).outLen = if isMode i then 0 else s.outLen := by
  unfold commandError
  by_cases hk : i = .keyExpand
  · subst hk; rfl
  · rw [if_neg hk]; split <;> rfl

/-- Only a mode command has a final block. -/
theorem isMode_of_finalBlock {i : Instr} {s : State} {b : Block} (h : b ∈ finalBlock i s) : isMode i = true := by
  cases i <;> simp [finalBlock, isMode] at h ⊢

/-- A command other than the four mode commands leaves OUT_LEN as it was (R29). -/
theorem exec_keeps_outLen {i : Instr} {s t : State} (hi : isMode i = false) (h : exec i s = .next t) :
    t.outLen = s.outLen := by
  cases completes_of_exec h with
  | success hc hp => exact commandEffect_outLen hi s
  | checkFailed hc => simp [commandError_outLen, hi]
  | badPadding hc b hb hp => simp [isMode_of_finalBlock hb] at hi

/-- An error of a mode command leaves OUT_LEN 0 (R29, R238 item 5). -/
theorem exec_mode_error_outLen {i : Instr} {s t : State} (hi : isMode i = true) (he : t.err ≠ .ok)
    (h : exec i s = .next t) : t.outLen = 0 := by
  cases completes_of_exec h with
  | success hc hp => exact absurd rfl he
  | checkFailed hc => simp [commandError_outLen, hi]
  | badPadding hc b hb hp => rfl

/-- A command that completes with code 0 passed its checks and made its effect. -/
theorem exec_ok_effect {i : Instr} {s t : State} (he : t.err = .ok) (h : exec i s = .next t) :
    commandCheck i s = .ok ∧ t = complete .ok (commandEffect i s) := by
  cases completes_of_exec h with
  | success hc hp => exact ⟨hc, rfl⟩
  | checkFailed hc => exact absurd ((commandError_err i _ s).symm.trans he) hc
  | badPadding hc b hb hp => cases he

/-- Only the four byte commands write RES (R32). -/
theorem exec_keeps_res {i : Instr} {s t : State} (hi : i ∉ [Instr.gfMul, .gfDouble, .sbox, .invSbox])
    (h : exec i s = .next t) : t.res = s.res := by
  cases completes_of_exec h with
  | success hc hp => exact commandEffect_res hi s
  | checkFailed hc => exact commandError_res i _ s
  | badPadding hc b hb hp => rfl

/-- The output of an encryption whose destination fits is no longer than the memory. -/
theorem encBytes_le_size {i : Instr} {s : State} (hi : i = .ecbEnc ∨ i = .cbcEnc) (hc : commandCheck i s = .ok) :
    encBytes s.srcBytes ≤ s.mem.size := by
  have hd : rangeFits s s.dstBase (encBytes s.srcBytes) := by
    rcases hi with rfl | rfl
    · obtain ⟨-, -, hd⟩ := (checkEcbEnc_ok_iff s).mp hc
      exact hd
    · obtain ⟨-, -, -, -, hd⟩ := (checkCbcEnc_ok_iff s).mp hc
      exact hd
  unfold rangeFits at hd
  omega

/-- A successful encryption reports its padded length (R29, R183). -/
theorem exec_enc_outLen {i : Instr} {s t : State} (hi : i = .ecbEnc ∨ i = .cbcEnc) (he : t.err = .ok)
    (hs : s.mem.size ≤ Config.maxMemSize) (h : exec i s = .next t) :
    t.outLen.toNat = 16 * (s.lat.srcLen.toNat / 16 + 1) := by
  obtain ⟨hc, rfl⟩ := exec_ok_effect he h
  have hle : encBytes s.srcBytes < 2 ^ 32 :=
    lt_of_le_of_lt ((encBytes_le_size hi hc).trans hs) (by decide)
  have hout : (commandEffect i s).outLen = BitVec.ofNat 32 (encBytes s.srcBytes) := by
    rcases hi with rfl | rfl
    · exact ecbEncEffect_outLen s
    · exact cbcEncEffect_outLen s
  rw [complete_outLen, hout, BitVec.toNat_ofNat, Nat.mod_eq_of_lt hle]
  rfl

/-- The length a decryption reports fits OUT_LEN, as its message's length does (R183, R185). -/
theorem toNat_decLength (s : State) (b : Block) :
    (BitVec.ofNat 32 (decLength s.srcBytes b)).toNat = s.lat.srcLen.toNat - b[15].toNat := by
  have hn : s.lat.srcLen.toNat < 2 ^ 32 := s.lat.srcLen.isLt
  simp only [decLength, State.srcBytes, BitVec.toNat_ofNat]
  omega

/-- A successful decryption reports its length without the padding (R29, R183, R185). -/
theorem exec_dec_outLen {i : Instr} {s t : State} (hi : i = .ecbDec ∨ i = .cbcDec) (he : t.err = .ok)
    (h : exec i s = .next t) : t.outLen.toNat = s.lat.srcLen.toNat - t.hold[15].toNat := by
  obtain ⟨-, rfl⟩ := exec_ok_effect he h
  rcases hi with rfl | rfl
  · simp only [commandEffect, complete_outLen, ecbDecEffect_outLen, complete_hold, ecbDecEffect_hold, toNat_decLength]
  · simp only [commandEffect, complete_outLen, cbcDecEffect_outLen, complete_hold, cbcDecEffect_hold, toNat_decLength]

/-- No host write of a register changes a result register (R29, R32). -/
theorem writeReg_keeps_results (r : RegName) (v : Word) (s : State) :
    (writeReg r v s).outLen = s.outLen ∧ (writeReg r v s).res = s.res := by
  cases r with
  | cmd => simp only [writeReg, writeCmd]; split <;> exact ⟨rfl, rfl⟩
  | _ => exact ⟨rfl, rfl⟩

/-- A read of RES while idle gives the byte, bits 31:8 being 0 (R32). -/
theorem regValue_res_toNat (s : State) : (regValue .res s).toNat = s.res.toNat := by
  simp only [regValue, BitVec.toNat_setWidth]
  have := s.res.isLt
  omega

/-- Settles O56: the mode commands own OUT_LEN, the byte commands own RES, and no host write reaches either. -/
theorem resultRegistersKeepTheirOwners : Obligations.ResultRegistersKeepTheirOwners := by
  unfold Obligations.ResultRegistersKeepTheirOwners
  refine ⟨fun i s t h => ⟨fun hi => exec_keeps_outLen hi h, fun hi he => exec_mode_error_outLen hi he h,
    fun hi he hs => exec_enc_outLen hi he hs h, fun hi he => exec_dec_outLen hi he h, ?_, ?_, ?_, ?_,
    fun hi => exec_keeps_res hi h⟩, fun s r v => writeReg_keeps_results r v s, fun s => ?_, rfl, rfl⟩
  · rintro rfl; cases h; rfl
  · rintro rfl; cases h; rfl
  · rintro rfl; cases h; rfl
  · rintro rfl; cases h; rfl
  · exact regValue_res_toNat s

end Sys2Proof.Machine
end

section
/-! What one step of the control state machine keeps (R207), said once for every state but FINISH. -/

namespace Sys2Proof.Machine

/-- What a step of the state machine keeps until FINISH: `t` is `s` but for the datapath, the memory the command may
write, the byte result, the state and its counters and locals. -/
structure TickFrame (s t : State) : Prop where
  frame : t = { s with
    res := t.res, sreg := t.sreg, w := t.w, prev := t.prev, hold := t.hold, fsm := t.fsm, rnd := t.rnd, blk := t.blk,
    kidx := t.kidx, mem := t.mem, scratch := t.scratch }
  size : t.mem.size = s.mem.size
  wf : s.mem.wf = true → t.mem.wf = true

namespace TickFrame

variable {s t u : State}

theorem lat (h : TickFrame s t) : t.lat = s.lat := by rw [h.frame]
theorem done (h : TickFrame s t) : t.done = s.done := by rw [h.frame]
theorem err (h : TickFrame s t) : t.err = s.err := by rw [h.frame]
theorem keyValid (h : TickFrame s t) : t.keyValid = s.keyValid := by rw [h.frame]
theorem nk (h : TickFrame s t) : t.nk = s.nk := by rw [h.frame]
theorem nr (h : TickFrame s t) : t.nr = s.nr := by rw [h.frame]

theorem of_mem_eq (h : t = { s with
      res := t.res, sreg := t.sreg, w := t.w, prev := t.prev, hold := t.hold, fsm := t.fsm, rnd := t.rnd,
      blk := t.blk, kidx := t.kidx, mem := t.mem, scratch := t.scratch })
    (hm : t.mem = s.mem) : TickFrame s t :=
  ⟨h, by rw [hm], fun hw => by rw [hm]; exact hw⟩

theorem refl (s : State) : TickFrame s s := .of_mem_eq rfl rfl

theorem trans (h : TickFrame s t) (h' : TickFrame t u) : TickFrame s u :=
  ⟨by rw [h'.frame, h.frame], h'.size.trans h.size, fun hw => h'.wf (h.wf hw)⟩

end TickFrame

section PerState

variable (s : State)

theorem toFinish_frame (e : ErrCode) : TickFrame s (toFinish e s) := .of_mem_eq (by simp only [toFinish]) rfl

theorem toBlockIn_frame (i : Nat) (pre : Bool) : TickFrame s (toBlockIn i pre s) :=
  .of_mem_eq (by simp only [toBlockIn]) rfl

theorem fsm_frame (f : Fsm) : TickFrame s { s with fsm := f } := .of_mem_eq rfl rfl

theorem sreg_frame (b : Block) : TickFrame s { s with sreg := b } := .of_mem_eq rfl rfl

theorem startCommand_frame (i : Instr) : TickFrame s (startCommand i s) := by
  cases i with
  | ecbEnc => exact toBlockIn_frame s _ _
  | cbcEnc => exact toBlockIn_frame s _ _
  | ecbDec => exact toBlockIn_frame s _ _
  | cbcDec => exact toBlockIn_frame s _ _
  | _ => exact .of_mem_eq rfl rfl

theorem tickCheck_frame : TickFrame s (tickCheck s) := by
  unfold tickCheck
  split
  · exact toFinish_frame s _
  · split
    · exact startCommand_frame s _
    · exact toFinish_frame s _

theorem xformEffect_frame (i : Instr) : TickFrame s (xformEffect i s) := by
  cases i with
  | stateStore =>
    refine ⟨?_, ?_, fun h => ?_⟩
    · simp only [xformEffect, stateStoreEffect]
    · simp [xformEffect]
    · simpa [xformEffect] using Memory.storeBlock_wf _ _ _ h
  | _ =>
    refine .of_mem_eq ?_ (by simp [xformEffect])
    simp only [xformEffect, stateLoadEffect, transformEffect, addRoundKeyEffect, gfMulEffect, gfDoubleEffect,
      sboxEffect, invSboxEffect]

theorem tickXform_frame : TickFrame s (tickXform s) := by
  unfold tickXform
  split
  · exact toFinish_frame s _
  · exact (xformEffect_frame s _).trans (toFinish_frame _ _)

theorem tickKload_frame : TickFrame s (tickKload s) := by
  unfold tickKload
  split
  · exact .of_mem_eq (by simp only [loadKey]) (by simp only [loadKey])
  · exact fsm_frame s _

theorem expandOneWord_frame : TickFrame s (expandOneWord s) := by
  unfold expandOneWord
  split
  · exact .of_mem_eq (by simp only) rfl
  · exact fsm_frame s _

theorem tickKexp_frame : TickFrame s (tickKexp s) := by
  unfold tickKexp
  split
  · exact expandOneWord_frame s
  · exact fsm_frame s _

theorem tickBlockInEnc_frame (cbc : Bool) : TickFrame s (tickBlockInEnc cbc s) :=
  .of_mem_eq (by simp only [tickBlockInEnc]) rfl

theorem tickBlockInDecrypt_frame (cbc : Bool) : TickFrame s (tickBlockInDecrypt cbc s) := by
  unfold tickBlockInDecrypt
  split
  · exact .of_mem_eq (by simp only [tickBlockInPre]) rfl
  · exact .of_mem_eq (by simp only [tickBlockInDec]) rfl

theorem tickBlockIn_frame : TickFrame s (tickBlockIn s) := by
  unfold tickBlockIn
  split
  · exact tickBlockInEnc_frame s _
  · exact tickBlockInEnc_frame s _
  · exact tickBlockInDecrypt_frame s _
  · exact tickBlockInDecrypt_frame s _
  · exact fsm_frame s _

theorem tickEncRound_frame : TickFrame s (tickEncRound s) := .of_mem_eq (by simp only [tickEncRound]) rfl

theorem leaveDecRound_frame : TickFrame s (leaveDecRound s) := by
  unfold leaveDecRound
  split
  · split <;> exact .of_mem_eq (by simp only) rfl
  · split <;> exact .of_mem_eq (by simp only) rfl
  · exact fsm_frame s _

theorem tickDecRound_frame : TickFrame s (tickDecRound s) := by
  unfold tickDecRound
  split
  · exact (sreg_frame s _).trans (leaveDecRound_frame _)
  · exact .of_mem_eq (by simp only) rfl

theorem tickPadCheck_frame : TickFrame s (tickPadCheck s) := by
  unfold tickPadCheck
  split
  · exact toBlockIn_frame s _ _
  · exact toFinish_frame s _

theorem nextBlock_frame (total : Nat) : TickFrame s (nextBlock total s) := .of_mem_eq (by simp only [nextBlock]) rfl

theorem storeBytes_frame (a : Nat) (v : List Byte) (p : Block) :
    TickFrame s { s with mem := s.mem.storeBytes a v, prev := p } :=
  ⟨rfl, Memory.storeBytes_size _ _ _, Memory.storeBytes_wf _ _ _⟩

theorem tickBlockOutEnc_frame (cbc : Bool) : TickFrame s (tickBlockOutEnc cbc s) :=
  (storeBytes_frame s _ _ _).trans (nextBlock_frame _ _)

theorem tickBlockOutDec_frame (cbc : Bool) : TickFrame s (tickBlockOutDec cbc s) := by
  unfold tickBlockOutDec
  split
  · exact (storeBytes_frame s _ _ _).trans (nextBlock_frame _ _)
  · exact (storeBytes_frame s _ _ _).trans (nextBlock_frame _ _)

theorem tickBlockOut_frame : TickFrame s (tickBlockOut s) := by
  unfold tickBlockOut
  split
  · exact tickBlockOutEnc_frame s _
  · exact tickBlockOutEnc_frame s _
  · exact tickBlockOutDec_frame s _
  · exact tickBlockOutDec_frame s _
  · exact fsm_frame s _

end PerState

/-- Before FINISH a step of the state machine keeps all that `TickFrame` says. -/
theorem tick_frame {s : State} (h : s.fsm ≠ .finish) : TickFrame s (tick s) := by
  unfold tick
  split
  · exact .refl s
  · exact tickCheck_frame s
  · exact tickXform_frame s
  · exact tickKload_frame s
  · exact tickKexp_frame s
  · exact tickBlockIn_frame s
  · exact tickEncRound_frame s
  · exact tickDecRound_frame s
  · exact tickPadCheck_frame s
  · exact tickBlockOut_frame s
  · exact absurd ‹_› h

end Sys2Proof.Machine
end

section
/-! The machine's invariant, taken apart: the fields it reads, the micro-program it speaks of, and what the engine's
steps keep of it (R17, R18, R21, R41, R208, R213). -/

namespace Sys2Proof.Machine

/-- Between CHECK and FINISH, an error already known at FINISH excepted (R208). -/
def State.inMicroprogram (s : State) : Prop :=
  s.fsm ≠ .idle ∧ s.fsm ≠ .check ∧ (s.fsm = .finish → s.scratch.pending = .ok)

/-- `s` runs the micro-program of `i`: `i` is latched, its checks passed, and the block in hand is one of its blocks. -/
structure Running (i : Instr) (s : State) : Prop where
  latched : s.latched = .command i
  passed : commandCheck i s = .ok
  block : isMode i = true → s.fsm ∈ blockStates → s.blk < modeBlocks i s

theorem sequencerInv_iff (s : State) : s.sequencerInv ↔ (s.inMicroprogram → ∃ i, Running i s) := by
  refine imp_congr_right fun _ => ?_
  cases hd : decode s.lat.cmd with
  | illegal y =>
    refine iff_of_false id ?_
    rintro ⟨i, h, -, -⟩
    rw [State.latched, hd] at h
    cases h
  | command i =>
    refine ⟨fun ⟨hp, hb⟩ => ⟨i, hd, hp, hb⟩, ?_⟩
    rintro ⟨j, h, hp, hb⟩
    rw [State.latched, hd] at h
    cases h
    exact ⟨hp, hb⟩

/-- The invariant without its clause on forbidden accesses, which only `settle` restores at completion. -/
structure State.CoreInv (s : State) : Prop where
  mem : s.memInv
  key : s.keyInv
  busy : s.busyInv
  sequencer : s.inMicroprogram → ∃ i, Running i s
  counters : s.counterInv

theorem inv_iff (s : State) : s.Inv ↔ s.CoreInv ∧ s.hazardInv := by
  constructor
  · rintro ⟨hm, hk, hb, hh, hs, hc⟩
    exact ⟨⟨hm, hk, hb, (sequencerInv_iff s).mp hs, hc⟩, hh⟩
  · rintro ⟨⟨hm, hk, hb, hs, hc⟩, hh⟩
    exact ⟨hm, hk, hb, hh, (sequencerInv_iff s).mpr hs, hc⟩

/-- `t` agrees with `s` on all that `State.CoreInv` reads, but that DONE may have been cleared and the bytes of memory
may have changed. -/
structure SameControl (s t : State) : Prop where
  lat : t.lat = s.lat
  keyValid : t.keyValid = s.keyValid
  nk : t.nk = s.nk
  nr : t.nr = s.nr
  fsm : t.fsm = s.fsm
  scratch : t.scratch = s.scratch
  rnd : t.rnd = s.rnd
  blk : t.blk = s.blk
  kidx : t.kidx = s.kidx
  err : t.err = s.err
  done : s.done = false → t.done = false
  size : t.mem.size = s.mem.size
  wf : s.mem.wf = true → t.mem.wf = true

section Preservation

variable {s t : State} {i : Instr}

theorem memInv_of_eq (hs : t.mem.size = s.mem.size) (hw : s.mem.wf = true → t.mem.wf = true) (h : s.memInv) :
    t.memInv := by
  obtain ⟨hwf, hmin, hmax⟩ := h
  exact ⟨hw hwf, by rwa [hs], by rwa [hs]⟩

theorem keyInv_of_eq (hv : t.keyValid = s.keyValid) (hnk : t.nk = s.nk) (hnr : t.nr = s.nr) (h : s.keyInv) :
    t.keyInv := by
  unfold State.keyInv
  rwa [hv, hnk, hnr]

theorem State.CoreInv.of_sameControl (hc : SameControl s t) (h : s.CoreInv) : t.CoreInv where
  mem := memInv_of_eq hc.size hc.wf h.mem
  key := keyInv_of_eq hc.keyValid hc.nk hc.nr h.key
  busy hb := by
    rw [busy_iff, hc.fsm, ← busy_iff] at hb
    obtain ⟨hdone, herr⟩ := h.busy hb
    exact ⟨hc.done hdone, hc.err.trans herr⟩
  sequencer hm := by
    unfold State.inMicroprogram at hm
    rw [hc.fsm, hc.scratch] at hm
    obtain ⟨i, hl, hp, hb⟩ := h.sequencer hm
    refine ⟨i, ?_, ?_, ?_⟩
    · rw [State.latched, hc.lat]; exact hl
    · rw [commandCheck_congr i hc.lat hc.keyValid hc.nr hc.size]; exact hp
    · rw [hc.fsm, hc.blk, modeBlocks_congr i hc.lat]; exact hb
  counters := by
    unfold State.counterInv
    rw [hc.rnd, hc.blk, hc.kidx]
    exact h.counters

theorem State.CoreInv.size_le (h : s.CoreInv) : s.mem.size ≤ Config.maxMemSize := by
  obtain ⟨-, -, hmax⟩ := h.mem
  exact hmax

/-- A completed command leaves the core invariant, given that of the key. -/
theorem State.CoreInv.of_execFrame (hf : ExecFrame s t) (hk : t.keyInv) (h : s.CoreInv) : t.CoreInv where
  mem := memInv_of_eq hf.size hf.wf h.mem
  key := hk
  busy hb := absurd hf.fsm ((busy_iff t).mp hb)
  sequencer hm := absurd hf.fsm hm.1
  counters := by
    unfold State.counterInv
    rw [hf.rnd, hf.blk, hf.kidx]
    exact h.counters

/-- The number of rounds is at most 14 (R17). -/
theorem nr_le_of_keyInv (h : s.keyInv) : s.nr.toNat ≤ 14 := by
  rcases h with ⟨-, -, h⟩ | ⟨-, ⟨-, h⟩ | ⟨-, h⟩ | ⟨-, h⟩⟩ <;> rw [h] <;> decide

/-- The key parameters of a key of legal length are those of a valid key (R126). -/
theorem keyInv_of_keyLength (hl : s.keyBytes = 16 ∨ s.keyBytes = 24 ∨ s.keyBytes = 32) (hv : t.keyValid = true)
    (hnk : t.nk = BitVec.ofNat 4 (nkOf s.keyBytes)) (hnr : t.nr = BitVec.ofNat 4 (nrOf s.keyBytes)) : t.keyInv := by
  refine .inr ⟨hv, ?_⟩
  rw [hnk, hnr]
  rcases hl with h | h | h <;> rw [h] <;> decide

theorem keyInv_raiseKeyError (e : ErrCode) (s : State) : (raiseKeyError e s).keyInv := .inl ⟨rfl, rfl, rfl⟩

/-- Every command keeps the key invariant (R17, R18). -/
theorem exec_keeps_keyInv (h : exec i s = .next t) (hk : s.keyInv) : t.keyInv := by
  by_cases hi : i = .keyExpand
  · subst hi
    cases completes_of_exec h with
    | success hc hp =>
      exact keyInv_of_keyLength ((checkKeyExpand_ok_iff s).mp hc).1 (keyExpandEffect_keyValid s)
        (keyExpandEffect_nk s) (keyExpandEffect_nr s)
    | checkFailed hc => exact keyInv_raiseKeyError _ s
    | badPadding hc b hb hp => cases hb
  · obtain ⟨hv, hnk, hnr⟩ := exec_keeps_key hi h
    exact keyInv_of_eq hv hnk hnr hk

/-- FINISH changes no more than a completed command does (R204, R207). -/
theorem tickFinish_frame (s : State) : ExecFrame s (tickFinish s) := by
  unfold tickFinish
  split
  · split
    · exact .of_mem_eq (by simp only [complete, setKeyParams]) rfl
    · exact keyError_frame _
  · split
    · exact .of_mem_eq (by simp only [complete, setOutLen]) rfl
    · exact modeError_frame _
  · split
    · exact .of_mem_eq (by simp only [complete, setOutLen]) rfl
    · exact modeError_frame _
  · split
    · exact .of_mem_eq (by simp only [complete, setOutLen]) rfl
    · exact modeError_frame _
  · split
    · exact .of_mem_eq (by simp only [complete, setOutLen]) rfl
    · exact modeError_frame _
  · exact error_frame _

/-- FINISH changes the key for `KEY_EXPAND` alone (R207). -/
theorem tickFinish_keeps_key (hl : s.latched ≠ .command .keyExpand) :
    (tickFinish s).keyValid = s.keyValid ∧ (tickFinish s).nk = s.nk ∧ (tickFinish s).nr = s.nr := by
  unfold tickFinish
  split
  · exact absurd ‹_› hl
  · split <;> exact ⟨rfl, rfl, rfl⟩
  · split <;> exact ⟨rfl, rfl, rfl⟩
  · split <;> exact ⟨rfl, rfl, rfl⟩
  · split <;> exact ⟨rfl, rfl, rfl⟩
  · exact ⟨rfl, rfl, rfl⟩

/-- FINISH keeps the key invariant: `KEY_EXPAND` ends with no error only after its checks passed (R126, R208). -/
theorem tickFinish_keeps_keyInv (hf : s.fsm = .finish) (h : s.CoreInv) : (tickFinish s).keyInv := by
  by_cases hl : s.latched = .command .keyExpand
  · simp only [tickFinish, hl]
    split
    · next hp =>
      obtain ⟨i, hl', hc, -⟩ := h.sequencer ⟨by rw [hf]; decide, by rw [hf]; decide, fun _ => hp⟩
      rw [hl] at hl'
      cases hl'
      exact keyInv_of_keyLength ((checkKeyExpand_ok_iff s).mp hc).1 rfl rfl rfl
    · exact keyInv_raiseKeyError _ s
  · obtain ⟨hv, hnk, hnr⟩ := tickFinish_keeps_key hl
    exact keyInv_of_eq hv hnk hnr h.key

end Preservation

end Sys2Proof.Machine
end

section
/-! Every step of the control state machine keeps the machine's invariant (R207, R208). -/

namespace Sys2Proof.Machine

theorem nkOf_le (n : Nat) : nkOf n ≤ 8 := by unfold nkOf; split_ifs <;> decide

theorem nrOf_le (n : Nat) : nrOf n ≤ 14 := by unfold nrOf; split_ifs <;> decide

section Bounds

variable {s : State} {i : Instr}

/-- A command whose checks passed has at most 2^27 blocks (R21, R51). -/
theorem modeBlocks_le (hc : commandCheck i s = .ok) (hs : s.mem.size ≤ Config.maxMemSize) :
    modeBlocks i s ≤ 2 ^ 27 := by
  simp only [Config.maxMemSize] at hs
  have enc (h : encBytes s.srcBytes ≤ s.mem.size) : encBlocks s.srcBytes ≤ 2 ^ 27 := by
    unfold encBytes at h; omega
  have dec (h : rangeFits s s.dstBase s.srcBytes) : decBlocks s.srcBytes ≤ 2 ^ 27 := by
    unfold rangeFits at h; unfold decBlocks; omega
  cases i with
  | ecbEnc => exact enc (encBytes_le_size (.inl rfl) hc)
  | cbcEnc => exact enc (encBytes_le_size (.inr rfl) hc)
  | ecbDec => obtain ⟨-, -, -, hd⟩ := (checkEcbDec_ok_iff s).mp hc; exact dec hd
  | cbcDec => obtain ⟨-, -, -, -, -, hd⟩ := (checkCbcDec_ok_iff s).mp hc; exact dec hd
  | _ => exact Nat.zero_le _

/-- A mode command whose checks passed has at least one block (R183, R232). -/
theorem modeBlocks_pos (hi : isMode i = true) (hc : commandCheck i s = .ok) : 0 < modeBlocks i s := by
  have dec (h : s.srcBytes ≠ 0 ∧ s.srcBytes % 16 = 0) : 0 < decBlocks s.srcBytes := by unfold decBlocks; omega
  cases i with
  | ecbEnc => exact Nat.succ_pos _
  | cbcEnc => exact Nat.succ_pos _
  | ecbDec => obtain ⟨-, hn, -⟩ := (checkEcbDec_ok_iff s).mp hc; exact dec hn
  | cbcDec => obtain ⟨-, hn, -⟩ := (checkCbcDec_ok_iff s).mp hc; exact dec hn
  | _ => cases hi

/-- The counters of `s` are in range and, with a block of a mode command in hand, its index is below `n` (R21, R208). -/
structure Bounded (i : Instr) (n : Nat) (s : State) : Prop where
  rnd : s.rnd ≤ 14
  blk : s.blk ≤ 2 ^ 27
  kidx : s.kidx ≤ 60
  block : isMode i = true → s.fsm ∈ blockStates → s.blk < n

variable {n : Nat}

/-- With no block in hand nothing is asked of its index. -/
theorem Bounded.of_no_block (h : s.counterInv) (hf : s.fsm ∉ blockStates) : Bounded i n s := by
  obtain ⟨hrnd, hblk, hkidx⟩ := h
  exact ⟨hrnd, hblk, hkidx, fun _ hb => absurd hb hf⟩

theorem startCommand_bounded (hc : commandCheck i s = .ok) (hs : s.mem.size ≤ Config.maxMemSize)
    (hr : s.nr.toNat ≤ 14) (h : s.counterInv) : Bounded i (modeBlocks i s) (startCommand i s) := by
  obtain ⟨hrnd, hblk, hkidx⟩ := h
  have hle := modeBlocks_le hc hs
  have last (h : isMode i = true) : modeBlocks i s - 1 < modeBlocks i s := Nat.sub_one_lt (modeBlocks_pos h hc).ne'
  cases i with
  | cipherBlock => exact ⟨Nat.zero_le _, hblk, hkidx, nofun⟩
  | invCipherBlock => exact ⟨hr, hblk, hkidx, nofun⟩
  | ecbEnc => exact ⟨hrnd, Nat.zero_le _, hkidx, fun hm _ => modeBlocks_pos hm hc⟩
  | cbcEnc => exact ⟨hrnd, Nat.zero_le _, hkidx, fun hm _ => modeBlocks_pos hm hc⟩
  | ecbDec => exact ⟨hrnd, (Nat.sub_le _ _).trans hle, hkidx, fun hm _ => last hm⟩
  | cbcDec => exact ⟨hrnd, (Nat.sub_le _ _).trans hle, hkidx, fun hm _ => last hm⟩
  | _ => exact ⟨hrnd, hblk, hkidx, nofun⟩

/-- A diagnostic command leaves the counters alone (R21). -/
theorem xformEffect_counters (j : Instr) (s : State) :
    (xformEffect j s).rnd = s.rnd ∧ (xformEffect j s).blk = s.blk ∧ (xformEffect j s).kidx = s.kidx := by
  cases j <;> simp [xformEffect]

section PerState

variable {t : State} (hb : Bounded i n s)
include hb

/-- At FINISH no block is in hand. -/
theorem Bounded.of_finish (hf : t.fsm = .finish) (hr : t.rnd = s.rnd) (hblk : t.blk = s.blk) (hk : t.kidx = s.kidx) :
    Bounded i n t :=
  .of_no_block (by unfold State.counterInv; rw [hr, hblk, hk]; exact ⟨hb.rnd, hb.blk, hb.kidx⟩) (by rw [hf]; decide)

/-- A step from a state with a block in hand that keeps the block index keeps the bounds. -/
theorem Bounded.of_same_block (hf : s.fsm ∈ blockStates) (hr : t.rnd ≤ 14) (hblk : t.blk = s.blk)
    (hk : t.kidx = s.kidx) : Bounded i n t :=
  ⟨hr, by rw [hblk]; exact hb.blk, by rw [hk]; exact hb.kidx, fun hm _ => by rw [hblk]; exact hb.block hm hf⟩

theorem Bounded.tickXform : Bounded i n (tickXform s) := by
  unfold Machine.tickXform
  split
  · exact hb.of_finish rfl rfl rfl rfl
  · next j _ =>
    obtain ⟨hrnd, hblk, hkidx⟩ := xformEffect_counters j s
    exact hb.of_finish rfl hrnd hblk hkidx

theorem Bounded.tickKload : Bounded i n (tickKload s) := by
  unfold Machine.tickKload
  split
  · refine .of_no_block ⟨?_, ?_, ?_⟩ ?_
    · simpa only [loadKey] using hb.rnd
    · simpa only [loadKey] using hb.blk
    · simpa only [loadKey] using (nkOf_le _).trans (by decide)
    · simp [loadKey, blockStates]
  · exact hb.of_finish rfl rfl rfl rfl

theorem Bounded.expandOneWord : Bounded i n (expandOneWord s) := by
  unfold Machine.expandOneWord
  split
  · next h =>
    have := nrOf_le s.keyBytes
    refine .of_no_block ⟨hb.rnd, hb.blk, ?_⟩ ?_
    · simp only
      omega
    · simp only
      split <;> decide
  · exact hb.of_finish rfl rfl rfl rfl

theorem Bounded.tickKexp : Bounded i n (tickKexp s) := by
  unfold Machine.tickKexp
  split
  · exact hb.expandOneWord
  · exact hb.of_finish rfl rfl rfl rfl

theorem Bounded.tickBlockInEnc (hf : s.fsm ∈ blockStates) (cbc : Bool) : Bounded i n (tickBlockInEnc cbc s) := by
  refine hb.of_same_block hf ?_ ?_ ?_ <;> simp only [Machine.tickBlockInEnc, Nat.zero_le]

theorem Bounded.tickBlockInDecrypt (hf : s.fsm ∈ blockStates) (hr : s.nr.toNat ≤ 14) (cbc : Bool) :
    Bounded i n (tickBlockInDecrypt cbc s) := by
  unfold Machine.tickBlockInDecrypt
  split
  · refine hb.of_same_block hf ?_ ?_ ?_ <;> simp only [tickBlockInPre, hr]
  · refine hb.of_same_block hf ?_ ?_ ?_ <;> simp only [tickBlockInDec, hr]

theorem Bounded.tickBlockIn (hf : s.fsm ∈ blockStates) (hr : s.nr.toNat ≤ 14) : Bounded i n (tickBlockIn s) := by
  unfold Machine.tickBlockIn
  split
  · exact hb.tickBlockInEnc hf _
  · exact hb.tickBlockInEnc hf _
  · exact hb.tickBlockInDecrypt hf hr _
  · exact hb.tickBlockInDecrypt hf hr _
  · exact hb.of_finish rfl rfl rfl rfl

theorem Bounded.tickEncRound (hf : s.fsm ∈ blockStates) (hr : s.nr.toNat ≤ 14) : Bounded i n (tickEncRound s) := by
  refine hb.of_same_block hf ?_ (by simp only [Machine.tickEncRound]) (by simp only [Machine.tickEncRound])
  have := hb.rnd
  simp only [Machine.tickEncRound]
  split <;> omega

theorem Bounded.leaveDecRound (hf : s.fsm ∈ blockStates) : Bounded i n (leaveDecRound s) := by
  unfold Machine.leaveDecRound
  split
  · split <;> exact hb.of_same_block hf hb.rnd rfl rfl
  · split <;> exact hb.of_same_block hf hb.rnd rfl rfl
  · exact hb.of_finish rfl rfl rfl rfl

theorem Bounded.tickDecRound (hf : s.fsm ∈ blockStates) : Bounded i n (tickDecRound s) := by
  unfold Machine.tickDecRound
  split
  · refine Bounded.leaveDecRound ?_ hf
    exact hb.of_same_block hf hb.rnd rfl rfl
  · exact hb.of_same_block hf ((Nat.sub_le _ _).trans hb.rnd) rfl rfl

theorem Bounded.tickPadCheck (hm : isMode i = true → s.blk < n) : Bounded i n (tickPadCheck s) := by
  unfold Machine.tickPadCheck
  split
  · exact ⟨hb.rnd, Nat.zero_le _, hb.kidx, fun hi _ => (Nat.zero_le _).trans_lt (hm hi)⟩
  · exact hb.of_finish rfl rfl rfl rfl

theorem Bounded.nextBlock (hn : n ≤ 2 ^ 27) (hblk : s.blk < n) : Bounded i n (nextBlock n s) := by
  refine ⟨hb.rnd, ?_, hb.kidx, ?_⟩
  · simp only [Machine.nextBlock]
    omega
  · simp only [Machine.nextBlock]
    split
    · exact fun _ _ => ‹_›
    · exact fun _ hf => absurd hf (by decide)

end PerState

/-- BLK_OUT counts on, and goes back to BLK_IN only while blocks remain (R207, R208). -/
theorem tickBlockOut_bounded (hr : Running i s) (hc : s.counterInv) (hf : s.fsm = .blkOut)
    (hn : modeBlocks i s ≤ 2 ^ 27) : Bounded i (modeBlocks i s) (tickBlockOut s) := by
  obtain ⟨hl, -, hb⟩ := hr
  rw [hf] at hb
  obtain ⟨hrnd, hblk, hkidx⟩ := hc
  have next (m : Memory) (p : Block) (hm : isMode i = true) :
      Bounded i (modeBlocks i s) (nextBlock (modeBlocks i s) { s with mem := m, prev := p }) :=
    Bounded.nextBlock (s := { s with mem := m, prev := p }) ⟨hrnd, hblk, hkidx, fun _ _ => hb hm (by decide)⟩ hn
      (hb hm (by decide))
  unfold tickBlockOut
  rw [hl]
  cases i with
  | ecbEnc => exact next _ _ rfl
  | cbcEnc => exact next _ _ rfl
  | ecbDec => simp only [tickBlockOutDec]; split <;> exact next _ _ rfl
  | cbcDec => simp only [tickBlockOutDec]; split <;> exact next _ _ rfl
  | _ => exact .of_no_block ⟨hrnd, hblk, hkidx⟩ (by simp [blockStates])

end Bounds

end Sys2Proof.Machine
end

section
/-! Every move keeps the machine's invariant and the size of the memory (R17, R18, R21, R41, R208, R213). -/

namespace Sys2Proof.Machine

section Tick

variable {s t : State} {i : Instr}

theorem State.CoreInv.bounded (h : s.CoreInv) (hr : Running i s) : Bounded i (modeBlocks i s) s := by
  obtain ⟨hrnd, hblk, hkidx⟩ := h.counters
  exact ⟨hrnd, hblk, hkidx, hr.block⟩

/-- A step of the state machine within bounds goes on with the micro-program of the same command. -/
theorem State.CoreInv.of_tickFrame (h : s.CoreInv) (hbusy : s.fsm ≠ .idle) (hl : s.latched = .command i)
    (hp : commandCheck i s = .ok) (hf : TickFrame s t) (hb : Bounded i (modeBlocks i s) t) : t.CoreInv where
  mem := memInv_of_eq hf.size hf.wf h.mem
  key := keyInv_of_eq hf.keyValid hf.nk hf.nr h.key
  busy _ := by rw [hf.done, hf.err]; exact h.busy ((busy_iff s).mpr hbusy)
  sequencer _ := by
    refine ⟨i, ?_, ?_, ?_⟩
    · rw [State.latched, hf.lat]; exact hl
    · rw [commandCheck_congr i hf.lat hf.keyValid hf.nr hf.size]; exact hp
    · rw [modeBlocks_congr i hf.lat]; exact hb.block
  counters := ⟨hb.rnd, hb.blk, hb.kidx⟩

/-- An error goes to FINISH with its code pending (R208). -/
theorem State.CoreInv.toFinish (h : s.CoreInv) (hbusy : s.fsm ≠ .idle) {e : ErrCode} (he : e ≠ .ok) :
    (toFinish e s).CoreInv where
  mem := h.mem
  key := h.key
  busy _ := h.busy ((busy_iff s).mpr hbusy)
  sequencer := fun ⟨_, _, hpending⟩ => absurd (hpending rfl) he
  counters := h.counters

theorem State.CoreInv.tickCheck (h : s.CoreInv) (hf : s.fsm = .check) : (tickCheck s).CoreInv := by
  have hbusy : s.fsm ≠ .idle := by rw [hf]; decide
  unfold Machine.tickCheck
  split
  · exact h.toFinish hbusy (by decide)
  · next i hl =>
    split
    · next hp =>
      exact h.of_tickFrame hbusy hl hp (startCommand_frame s i)
        (startCommand_bounded hp h.size_le (nr_le_of_keyInv h.key) h.counters)
    · next hne => exact h.toFinish hbusy hne

/-- A step of a micro-program keeps its counters and its block index within bounds (R21, R207). -/
theorem State.CoreInv.tick_bounded (h : s.CoreInv) (hr : Running i s) (hi : s.fsm ≠ .idle) (hc : s.fsm ≠ .check)
    (hn : s.fsm ≠ .finish) : Bounded i (modeBlocks i s) (tick s) := by
  have hb := h.bounded hr
  have hnr := nr_le_of_keyInv h.key
  have block {f : Fsm} (hf : s.fsm = f) (hm : f ∈ blockStates) : s.fsm ∈ blockStates := hf ▸ hm
  unfold Machine.tick
  split
  case h_1 hf => exact absurd hf hi
  case h_2 hf => exact absurd hf hc
  case h_3 => exact hb.tickXform
  case h_4 => exact hb.tickKload
  case h_5 => exact hb.tickKexp
  case h_6 hf => exact hb.tickBlockIn (block hf (by decide)) hnr
  case h_7 hf => exact hb.tickEncRound (block hf (by decide)) hnr
  case h_8 hf => exact hb.tickDecRound (block hf (by decide))
  case h_9 hf => exact hb.tickPadCheck fun hm => hb.block hm (block hf (by decide))
  case h_10 hf => exact tickBlockOut_bounded hr h.counters hf (modeBlocks_le hr.passed h.size_le)
  case h_11 hf => exact absurd hf hn

/-- One step of the state machine keeps the core invariant. -/
theorem State.CoreInv.tick (h : s.CoreInv) : (tick s).CoreInv := by
  by_cases hi : s.fsm = .idle
  · rwa [tick_idle s hi]
  by_cases hc : s.fsm = .check
  · simpa only [Machine.tick, hc] using h.tickCheck hc
  by_cases hn : s.fsm = .finish
  · simpa only [Machine.tick, hn] using h.of_execFrame (tickFinish_frame s) (tickFinish_keeps_keyInv hn h)
  obtain ⟨i, hr⟩ := h.sequencer ⟨hi, hc, fun hf => absurd hf hn⟩
  exact h.of_tickFrame hi hr.latched hr.passed (tick_frame hn) (h.tick_bounded hr hi hc hn)

theorem State.CoreInv.ticks (n : Nat) (h : s.CoreInv) : (ticks n s).CoreInv := by
  induction n generalizing s with
  | zero => exact h
  | succ n ih => exact ih h.tick

theorem tick_size (s : State) : (tick s).mem.size = s.mem.size := by
  by_cases hn : s.fsm = .finish
  · simpa only [Machine.tick, hn] using (tickFinish_frame s).size
  · exact (tick_frame hn).size

theorem ticks_size (n : Nat) (s : State) : (ticks n s).mem.size = s.mem.size := by
  induction n generalizing s with
  | zero => rfl
  | succ n ih => rw [Machine.ticks, ih, tick_size]

end Tick

section HostMoves

variable {s t : State}

theorem SameControl.refl (s : State) : SameControl s s :=
  ⟨rfl, rfl, rfl, rfl, rfl, rfl, rfl, rfl, rfl, rfl, id, rfl, id⟩

theorem sameControl_mem {m : Memory} (hs : m.size = s.mem.size) (hw : s.mem.wf = true → m.wf = true) :
    SameControl s { s with mem := m } :=
  { SameControl.refl s with size := hs, wf := hw }

theorem sameControl_scrambleTouched (s : State) : SameControl s (scrambleTouched s) :=
  { sameControl_mem (Memory.scrambleRanges_size _ _ _) (Memory.scrambleRanges_wf _ _ _) with }

/-- Settling leaves no forbidden access pending once no command runs (R56(d)). -/
theorem settle_hazardInv (s : State) : (settle s).hazardInv := by
  unfold settle
  split
  · nofun
  · next h => simpa using h

/-- Settling keeps the core invariant and restores the clause on forbidden accesses. -/
theorem State.CoreInv.settle (h : s.CoreInv) : (settle s).Inv := by
  refine (inv_iff _).mpr ⟨?_, settle_hazardInv s⟩
  rcases settle_cases s with hs | ⟨-, -, hs⟩ <;> rw [hs]
  · exact h
  · have hc := sameControl_scrambleTouched s
    exact h.of_sameControl { hc with }

theorem settle_size (s : State) : (settle s).mem.size = s.mem.size := by
  rcases settle_cases s with hs | ⟨-, -, hs⟩ <;> rw [hs]
  exact Memory.scrambleRanges_size _ _ _

/-- A move that keeps what the invariant reads keeps the invariant, if it marks an access forbidden only while busy. -/
theorem inv_of_sameControl (hc : SameControl s t) (hh : t.hazard = true → s.hazard = true ∨ s.busy = true)
    (h : s.Inv) : t.Inv := by
  obtain ⟨hcore, hz⟩ := (inv_iff s).mp h
  refine (inv_iff t).mpr ⟨hcore.of_sameControl hc, fun ht => ?_⟩
  rw [busy_iff, hc.fsm, ← busy_iff]
  exact (hh ht).elim hz id

/-- Acceptance starts a command whose checks are still to come (R201). -/
theorem accept_keeps_inv (v : Word) (h : s.Inv) : (accept v s).Inv := by
  obtain ⟨hcore, -⟩ := (inv_iff s).mp h
  refine (inv_iff _).mpr ⟨⟨hcore.mem, hcore.key, fun _ => ⟨rfl, rfl⟩, ?_, hcore.counters⟩, nofun⟩
  exact fun ⟨_, hcheck, _⟩ => absurd rfl hcheck

/-- A host write of any register but CMD changes nothing the invariant reads, but that it may clear DONE. -/
theorem sameControl_writeReg {r : RegName} (hr : r ≠ .cmd) (v : Word) (s : State) :
    SameControl s (writeReg r v s) ∧ (writeReg r v s).hazard = s.hazard := by
  cases r with
  | cmd => exact absurd rfl hr
  | status => exact ⟨{ SameControl.refl s with done := fun hd => by simp [writeReg, hd] }, rfl⟩
  | _ => exact ⟨{ SameControl.refl s with }, rfl⟩

theorem writeReg_keeps_inv (r : RegName) (v : Word) (h : s.Inv) : (writeReg r v s).Inv := by
  by_cases hr : r = .cmd
  · subst hr
    by_cases hi : s.fsm = .idle
    · simpa only [writeReg, writeCmd_idle hi] using accept_keeps_inv v h
    · simp only [writeReg, writeCmd_busy hi]
      exact inv_of_sameControl { SameControl.refl s with } .inl h
  · obtain ⟨hc, hh⟩ := sameControl_writeReg hr v s
    exact inv_of_sameControl hc (fun ht => .inl (hh ▸ ht)) h

/-- Read ports, draws and the moves to come are nothing the invariant reads. -/
theorem inv_of_ports {d : Nat} {w : Word} {b : Byte} {ms : List Move} (h : s.Inv) :
    { s with regData := w, memData := b, draws := d, agenda := ms }.Inv :=
  inv_of_sameControl { SameControl.refl s with } .inl h

theorem readReg_keeps_inv (r : RegName) (h : s.Inv) : (readReg r s).Inv := by
  unfold readReg
  split <;> exact inv_of_ports h

theorem waitRead_keeps_inv (n : Nat) (h : s.Inv) : (waitRead n s).Inv := by
  rw [waitRead_frame]
  exact inv_of_ports h

theorem store_keeps_inv (a : Nat) (b : Byte) (h : s.Inv) : { s with mem := s.mem.store a b }.Inv :=
  inv_of_sameControl (sameControl_mem (Memory.store_size _ _ _) (Memory.store_wf _ _ _)) .inl h

theorem raiseHazard_keeps_inv (hb : s.busy = true) (h : s.Inv) : (raiseHazard s).Inv :=
  inv_of_sameControl { sameControl_scrambleTouched s with } (fun _ => .inr hb) h

theorem hostMemWrite_keeps_inv (a : Nat) (b : Byte) (h : s.Inv) : (hostMemWrite a b s).Inv := by
  unfold hostMemWrite
  split
  · next hc => exact raiseHazard_keeps_inv (Bool.and_eq_true_iff.mp hc).1 (store_keeps_inv a b h)
  · exact store_keeps_inv a b h

theorem hostMemRead_keeps_inv (a : Nat) (h : s.Inv) : (hostMemRead a s).Inv := by
  unfold hostMemRead
  split
  · next hc => exact raiseHazard_keeps_inv (Bool.and_eq_true_iff.mp hc).1 (inv_of_ports h)
  · exact inv_of_ports h

/-- After reset nothing runs, whatever the bytes of memory and the schedule are (R36, R260). -/
theorem resetWith_inv {m : Memory} (hm : m.wf = true ∧ Config.minMemSize ≤ m.size ∧ m.size ≤ Config.maxMemSize)
    (d : Nat) (s : State) : (resetWith m d s).Inv := by
  have hc : (resetWith m d s).counterInv := ⟨Nat.zero_le _, Nat.zero_le _, Nat.zero_le _⟩
  exact (inv_iff _).mpr ⟨⟨hm, .inl ⟨rfl, rfl, rfl⟩, nofun, fun h => absurd rfl h.1, hc⟩, nofun⟩

theorem hardReset_keeps_inv (h : s.Inv) : (hardReset s).Inv := by
  obtain ⟨hwf, hmin, hmax⟩ := h.1
  exact resetWith_inv ⟨Memory.scrambleRanges_wf _ _ _ hwf, by simpa using hmin, by simpa using hmax⟩ _ s

theorem powerCycle_keeps_inv (h : s.Inv) : (powerCycle s).Inv := by
  obtain ⟨hwf, hmin, hmax⟩ := h.1
  exact resetWith_inv ⟨Memory.scramble_wf _ _ _ _ hwf, by simpa using hmin, by simpa using hmax⟩ _ s

end HostMoves

section Engine

variable {s t : State}

/-- A command run whole answers a completed state that keeps the core invariant (R204, R206). -/
theorem runCommand_keeps (h : runCommand s = .next t) : ExecFrame s t ∧ (s.keyInv → t.keyInv) := by
  cases hd : decode s.lat.cmd with
  | illegal y =>
    rw [runCommand_illegal hd] at h
    cases h
    exact ⟨error_frame _, id⟩
  | command i =>
    rw [runCommand_command hd] at h
    exact ⟨exec_frame h, exec_keeps_keyInv h⟩

/-- `settleOutcome` answers a next state only by settling one. -/
theorem settleOutcome_next_iff {o : Host.Outcome State Fault Refusal} :
    settleOutcome o = .next t ↔ ∃ u, o = .next u ∧ t = settle u := by
  cases o <;> simp [settleOutcome, eq_comm]

/-- What the engine's move can do: nothing, a whole command, or the rest of one (R206, R207). -/
theorem engineMove_cases (h : engineMove s = .next t) :
    (s.fsm = .idle ∧ t = s) ∨ (s.fsm = .check ∧ ∃ u, runCommand s = .next u ∧ t = settle u) ∨
      t = settle (ticks (tickBound s) s) := by
  by_cases hi : s.fsm = .idle
  · rw [engineMove_idle hi] at h
    cases h
    exact .inl ⟨hi, rfl⟩
  by_cases hc : s.fsm = .check
  · rw [engineMove_check hc] at h
    exact .inr (.inl ⟨hc, settleOutcome_next_iff.mp h⟩)
  · rw [engineMove_running hi hc] at h
    cases h
    exact .inr (.inr rfl)

theorem engineMove_keeps_inv (h : engineMove s = .next t) (hs : s.Inv) : t.Inv := by
  obtain ⟨hcore, -⟩ := (inv_iff s).mp hs
  rcases engineMove_cases h with ⟨-, rfl⟩ | ⟨-, u, hu, rfl⟩ | rfl
  · exact hs
  · obtain ⟨hf, hk⟩ := runCommand_keeps hu
    exact (hcore.of_execFrame hf (hk hcore.key)).settle
  · exact (hcore.ticks _).settle

theorem engineMove_size (h : engineMove s = .next t) : t.mem.size = s.mem.size := by
  rcases engineMove_cases h with ⟨-, rfl⟩ | ⟨-, u, hu, rfl⟩ | rfl
  · rfl
  · rw [settle_size, (runCommand_keeps hu).1.size]
  · rw [settle_size, ticks_size]

end Engine

section Moves

variable {s t : State}

theorem writeReg_mem (r : RegName) (v : Word) (s : State) : (writeReg r v s).mem = s.mem := by
  cases r with
  | cmd => simp only [writeReg, writeCmd]; split <;> rfl
  | _ => rfl

theorem readReg_mem (r : RegName) (s : State) : (readReg r s).mem = s.mem := by
  unfold readReg; split <;> rfl

theorem hostMemWrite_size (a : Nat) (b : Byte) (s : State) : (hostMemWrite a b s).mem.size = s.mem.size := by
  unfold hostMemWrite; split <;> simp

theorem hostMemRead_size (a : Nat) (s : State) : (hostMemRead a s).mem.size = s.mem.size := by
  unfold hostMemRead; split <;> simp

/-- A register write that is not refused is made at once (R34). -/
theorem performMove_regWrite {width : Width} {off : Nat} {v : Word}
    (h : performMove (.regWrite width off v) s = .next t) : t = writeReg (regAt off) v s :=
  let ⟨_, _, _, ht⟩ := regAccess_next (f := fun r => writeReg r v s) h
  ht

theorem performMove_regRead {width : Width} {off : Nat} (h : performMove (.regRead width off) s = .next t) :
    t = readReg (regAt off) s :=
  let ⟨_, _, _, ht⟩ := regAccess_next (f := fun r => readReg r s) h
  ht

/-- No move changes MEM_SIZE (R41). -/
theorem performMove_size {m : Move} (h : performMove m s = .next t) : t.mem.size = s.mem.size := by
  cases m with
  | regWrite width off v => rw [performMove_regWrite h, writeReg_mem]
  | regRead width off => rw [performMove_regRead h, readReg_mem]
  | memWrite a b => cases h; exact hostMemWrite_size a b s
  | memRead a => cases h; exact hostMemRead_size a s
  | wait n => cases h; rw [waitRead_frame]
  | hardReset => cases h; exact Memory.scrambleRanges_size _ _ _
  | powerCycle => cases h; exact Memory.scramble_size _ _ _ _
  | engine => exact engineMove_size h
  | tick => cases h; rw [settle_size, tick_size]

/-- Every move that answers a next state keeps the invariant. -/
theorem performMove_keeps_inv {m : Move} (h : performMove m s = .next t) (hs : s.Inv) : t.Inv := by
  cases m with
  | regWrite width off v => rw [performMove_regWrite h]; exact writeReg_keeps_inv _ v hs
  | regRead width off => rw [performMove_regRead h]; exact readReg_keeps_inv _ hs
  | memWrite a b => cases h; exact hostMemWrite_keeps_inv a b hs
  | memRead a => cases h; exact hostMemRead_keeps_inv a hs
  | wait n => cases h; exact waitRead_keeps_inv n hs
  | hardReset => cases h; exact hardReset_keeps_inv hs
  | powerCycle => cases h; exact powerCycle_keeps_inv hs
  | engine => exact engineMove_keeps_inv h hs
  | tick => cases h; exact ((inv_iff s).mp hs).1.tick.settle

end Moves

/-- Settles O21: nothing runs at reset, no key is loaded, and its memory is in canonical form. -/
theorem invariantHoldsAtReset : Obligations.InvariantHoldsAtReset := by
  unfold Obligations.InvariantHoldsAtReset
  have hm : State.reset.memInv := ⟨reset_mem_wf, by decide, by decide⟩
  have hc : State.reset.counterInv := ⟨Nat.zero_le _, Nat.zero_le _, Nat.zero_le _⟩
  exact (inv_iff _).mpr ⟨⟨hm, .inl ⟨rfl, rfl, rfl⟩, nofun, fun h => absurd rfl h.1, hc⟩, nofun⟩

/-- Settles O22, move by move: the engine's through `State.CoreInv`, the host's through `SameControl`. -/
theorem everyStepKeepsTheInvariant : Obligations.EveryStepKeepsTheInvariant := by
  unfold Obligations.EveryStepKeepsTheInvariant
  refine ⟨fun s t hs h => ?_, fun s t h => ?_⟩
  · cases ha : s.agenda with
    | nil => exact engineMove_keeps_inv (step_nil ha ▸ h) hs
    | cons m rest => exact performMove_keeps_inv (step_cons ha ▸ h) (inv_of_ports hs)
  · cases ha : s.agenda with
    | nil => exact engineMove_size (step_nil ha ▸ h)
    | cons m rest => exact performMove_size (s := { s with agenda := rest }) (step_cons ha ▸ h)

end Sys2Proof.Machine
end

section
/-! The register map through the host's port: what a read gives, what a write leaves (R22 to R36, R213). -/

namespace Sys2Proof.Machine

/-- The registers with a current value at any time; the others show R213's values while busy. -/
theorem regValueBusy_steady {r : RegName} (hr : r ∉ [RegName.status, .outLen, .keycfg, .res]) (s : State) :
    regValueBusy r s = regValue r s := by
  cases r with
  | status | outLen | keycfg | res => simp at hr
  | _ => rfl

/-- A read of a register with a current value gives it, idle or busy. -/
theorem readReg_regData_steady {r : RegName} (hr : r ∉ [RegName.status, .outLen, .keycfg, .res]) (s : State) :
    (readReg r s).regData = regValue r s := by
  unfold readReg
  split
  · exact regValueBusy_steady hr s
  · rfl

/-- A read changes nothing but the port and the count of draws. -/
theorem readReg_frame (r : RegName) (s : State) :
    readReg r s = { s with regData := (readReg r s).regData, draws := (readReg r s).draws } := by
  unfold readReg; split <;> rfl

/-- KEY_VALID, OVR and ERR of a STATUS word (R24). -/
theorem packStatus_keyValid_ovr_err (b d k o : Bool) (e : ErrCode) :
    (packStatus b d k o e).getLsbD 2 = k ∧ (packStatus b d k o e).getLsbD 3 = o ∧
      ((packStatus b d k o e).extractLsb' 8 4).toNat = e.code := by
  cases b <;> cases d <;> cases k <;> cases o <;> cases e <;> decide

/-- The number STATUS reads while idle (R24). -/
theorem statusWord_toNat_idle {s : State} (h : s.fsm = .idle) :
    (statusWord s).toNat = 2 * s.done.toNat + 4 * s.keyValid.toNat + 8 * s.ovr.toNat + 256 * s.err.code := by
  rw [statusWord, packStatus_toNat, (busy_eq_false_iff s).mpr h]
  simp

/-- The reserved bits of a STATUS word are 0 (R24, R33). -/
theorem packStatus_reserved (b d k o : Bool) (e : ErrCode) : packStatus b d k o e &&& 0xFFFFF0F0#32 = 0 := by
  cases b <;> cases d <;> cases k <;> cases o <;> cases e <;> decide

/-- A byte in a register word leaves bits 31:8 zero (R31, R32). -/
theorem setWidth_byte_reserved : ∀ b : Byte, b.setWidth 32 &&& 0xFFFFFF00#32 = 0 := by decide

/-- The reserved bits of KEYCFG are 0 (R30, R33). -/
theorem keycfgWord_reserved (s : State) : keycfgWord s &&& 0xFFFFF0F0#32 = 0 := by
  have packed : ∀ nk nr : BitVec 4, BitVec.ofNat 32 (nk.toNat + 256 * nr.toNat) &&& 0xFFFFF0F0#32 = 0 := by decide
  exact packed s.nk s.nr

/-- The fields of KEYCFG (R30). -/
theorem keycfgWord_fields (s : State) :
    (keycfgWord s).extractLsb' 0 4 = s.nk ∧ (keycfgWord s).extractLsb' 4 4 = 0#4 ∧
      (keycfgWord s).extractLsb' 8 4 = s.nr ∧ (keycfgWord s).extractLsb' 12 20 = 0#20 := by
  have hnk := s.nk.isLt
  have hnr := s.nr.isLt
  refine ⟨?_, ?_, ?_, ?_⟩ <;>
    · apply BitVec.eq_of_toNat_eq
      simp only [BitVec.extractLsb'_toNat, keycfgWord_toNat, Nat.shiftRight_eq_div_pow, BitVec.toNat_ofNat]
      omega

/-- A mask that selects no reserved bit leaves the reserved bits 0. -/
theorem masked_reserved (w : Word) :
    (w &&& 0x00000F0F) &&& 0xFFFFF0F0#32 = 0 ∧ (w &&& 0x000000FF) &&& 0xFFFFFF00#32 = 0 := by
  constructor <;> rw [BitVec.and_assoc] <;> exact BitVec.and_zero

/-- The reserved bits of the defined registers read 0, idle and busy (R33; log 6). -/
theorem reserved_bits_read_zero (s : State) : ∀ f ∈ [regValue, regValueBusy],
    f .status s &&& 0xFFFFF0F0#32 = 0 ∧ f .keycfg s &&& 0xFFFFF0F0#32 = 0 ∧ f .opA s &&& 0xFFFFFF00#32 = 0 ∧
      f .opB s &&& 0xFFFFFF00#32 = 0 ∧ f .res s &&& 0xFFFFFF00#32 = 0 := by
  have idle := And.intro (setWidth_byte_reserved s.opA) (setWidth_byte_reserved s.opB)
  have masked := masked_reserved (Config.freeWord s.draws)
  intro f hf
  rcases List.mem_pair.mp hf with rfl | rfl
  · exact ⟨packStatus_reserved _ _ _ _ _, keycfgWord_reserved s, idle.1, idle.2, setWidth_byte_reserved s.res⟩
  · exact ⟨packStatus_reserved _ _ _ _ _, masked.1, idle.1, idle.2, masked.2⟩

/-- The reserved bits of a written word do not matter (R24, R31, R33). -/
theorem writeReg_ignores_reserved_bits (v : Word) (s : State) :
    writeReg .status v s = writeReg .status (v &&& 0x0000000A#32) s ∧
      writeReg .opA v s = writeReg .opA (v &&& 0x000000FF#32) s ∧
      writeReg .opB v s = writeReg .opB (v &&& 0x000000FF#32) s := by
  have hbyte : (v &&& 0x000000FF#32).setWidth 8 = v.setWidth 8 := by
    rw [BitVec.setWidth_and]
    exact BitVec.and_allOnes
  refine ⟨?_, ?_, ?_⟩
  · simp [writeReg, writeStatus]
  · simp only [writeReg, hbyte]
  · simp only [writeReg, hbyte]

theorem step_regWrite_ok {s : State} {off : Nat} {v : Word} {rest : List Move} (h : off % 4 = 0) (h' : off ≤ 0xFC)
    (ha : s.agenda = .regWrite .word off v :: rest) :
    step s = .next (writeReg (regAt off) v { s with agenda := rest }) := by
  rw [step_regWrite ha, regAccess_ok h h']

theorem step_regRead_ok {s : State} {off : Nat} {rest : List Move} (h : off % 4 = 0) (h' : off ≤ 0xFC)
    (ha : s.agenda = .regRead .word off :: rest) :
    step s = .next (readReg (regAt off) { s with agenda := rest }) := by
  rw [step_regRead ha, regAccess_ok h h']

/-- Settles O14: the register port answers by `regAccess`, the refusals before the access. -/
theorem registerAccessOutsideTheMapIsRefused : Obligations.RegisterAccessOutsideTheMapIsRefused := by
  unfold Obligations.RegisterAccessOutsideTheMapIsRefused
  intro s width off v rest ha
  obtain ⟨f, hf⟩ : ∃ f, step s = regAccess width off f := by
    rcases ha with ha | ha
    · exact ⟨_, step_regWrite ha⟩
    · exact ⟨_, step_regRead ha⟩
  refine ⟨fun hw => ?_, fun hw ho => ?_, fun hw h4 hle => ⟨fun ha => ?_, fun ha => ?_⟩⟩
  · rw [hf, regAccess_width hw]
  · subst hw; rw [hf, regAccess_offset ho]
  · subst hw; exact step_regWrite_ok h4 hle ha
  · subst hw; exact step_regRead_ok h4 hle ha

/-- Settles O9: the read of an offset is `readReg` of its register, whose value depends on BUSY for four of them. -/
theorem registerReadsGiveTheRegisterMap : Obligations.RegisterReadsGiveTheRegisterMap := by
  unfold Obligations.RegisterReadsGiveTheRegisterMap
  intro s off rest h4 hle ha
  have hbyte (b : Byte) : (b.setWidth 32).toNat = b.toNat := by simpa using b.isLt.trans (by decide)
  have steady {o : Nat} (hr : regAt o ∉ [RegName.status, .outLen, .keycfg, .res]) :=
    readReg_regData_steady hr { s with agenda := rest }
  have idle (hi : s.fsm = .idle) := readReg_idle (s := { s with agenda := rest }) hi
  have busy (hb : s.fsm ≠ .idle) := readReg_busy (s := { s with agenda := rest }) hb
  refine ⟨_, step_regRead_ok h4 hle ha, fun hi => ?_, fun hb => ?_, ?_, ?_, ?_, ?_, ?_, ?_, ?_, ?_, ?_, ?_, fun ho => ?_,
    fun hi => ⟨?_, ?_, ?_, ?_⟩, fun hb => ?_⟩
  · rw [idle hi]
  · rw [busy hb]
  · rintro rfl; exact steady (o := 0x00) (by decide)
  · rintro rfl; exact steady (o := 0x08) (by decide)
  · rintro rfl; exact steady (o := 0x0C) (by decide)
  · rintro rfl; exact steady (o := 0x10) (by decide)
  · rintro rfl; exact steady (o := 0x14) (by decide)
  · rintro rfl; exact steady (o := 0x18) (by decide)
  · rintro rfl; exact steady (o := 0x1C) (by decide)
  · rintro rfl; exact steady (o := 0x20) (by decide)
  · rintro rfl; rw [steady (by decide)]; exact hbyte s.opA
  · rintro rfl; rw [steady (by decide)]; exact hbyte s.opB
  · rw [steady (by rw [regAt_reserved ho]; decide), regAt_reserved ho]; rfl
  · rintro rfl; rw [idle hi]; exact statusWord_toNat_idle hi
  · rintro rfl; rw [idle hi]; rfl
  · rintro rfl; rw [idle hi]; exact keycfgWord_toNat s
  · rintro rfl; rw [idle hi]; exact hbyte s.res
  · rintro rfl
    rw [busy hb]
    obtain ⟨h0, h1⟩ := packStatus_busy_done true false (Config.freeBit s.draws) s.ovr .ok
    obtain ⟨-, h3, h8⟩ := packStatus_keyValid_ovr_err true false (Config.freeBit s.draws) s.ovr .ok
    exact ⟨h0, h1, h3, BitVec.eq_of_toNat_eq h8⟩

/-- Settles O11: no write reaches a reserved or read-only register, and the masks say which bits read 0. -/
theorem reservedSpaceReadsZeroAndIgnoresWrites : Obligations.ReservedSpaceReadsZeroAndIgnoresWrites := by
  unfold Obligations.ReservedSpaceReadsZeroAndIgnoresWrites
  refine ⟨fun s off v rest h4 hle ho ha => ?_, fun s off _ ho _ => ?_, fun s =>
    ⟨reserved_bits_read_zero s, fun v => writeReg_ignores_reserved_bits v s⟩⟩
  · rw [step_regWrite_ok h4 hle ha]
    rcases ho with ho | rfl | rfl | rfl
    · rw [regAt_reserved ho]; rfl
    · rfl
    · rfl
    · rfl
  · rw [regAt_reserved ho]
    exact ⟨rfl, rfl⟩

/-- The read-write operand registers (R25 to R28, R31). -/
def operandRegs : List RegName := [.keyAddr, .keyLen, .ivAddr, .ivLen, .srcAddr, .srcLen, .dstAddr, .opA, .opB]

/-- A write to an operand register is what a read then gives, and leaves the engine and the memory alone. -/
theorem writeReg_operand {r : RegName} (hr : r ∈ operandRegs) (v : Word) (s : State) :
    regValue r (writeReg r v s) = (if r = .opA ∨ r = .opB then (v.setWidth 8).setWidth 32 else v) ∧
      (writeReg r v s).fsm = s.fsm ∧ (writeReg r v s).lat = s.lat ∧ (writeReg r v s).mem = s.mem ∧
      (writeReg r v s).agenda = s.agenda := by
  cases r with
  | cmd | status | outLen | keycfg | res | reserved => simp [operandRegs] at hr
  | _ => exact ⟨rfl, rfl, rfl, rfl, rfl⟩

theorem operandRegs_steady {r : RegName} (hr : r ∈ operandRegs) : r ∉ [RegName.status, .outLen, .keycfg, .res] := by
  revert r; decide

theorem regValue_agenda (r : RegName) (s : State) (ms : List Move) :
    regValue r { s with agenda := ms } = regValue r s := by
  cases r <;> rfl

/-- Settles O10: the write, then the read of the same register in the next step. -/
theorem operandRegistersReadBack : Obligations.OperandRegistersReadBack := by
  unfold Obligations.OperandRegistersReadBack
  intro s off v rest hoff ha
  have map : ∀ o ∈ [0x08, 0x0C, 0x10, 0x14, 0x18, 0x1C, 0x20, 0x2C, 0x30], o % 4 = 0 ∧ o ≤ 0xFC ∧
      regAt o ∈ operandRegs ∧ ((regAt o = .opA ∨ regAt o = .opB) ↔ (o = 0x2C ∨ o = 0x30)) := by decide
  obtain ⟨h4, hle, hr, hbyte⟩ := map off hoff
  obtain ⟨hv, hfsm, hlat, hmem, hag⟩ := writeReg_operand hr v { s with agenda := .regRead .word off :: rest }
  refine ⟨_, _, step_regWrite_ok h4 hle ha, step_regRead_ok h4 hle hag, ?_, ?_, ?_, ?_⟩
  · rw [readReg_regData_steady (operandRegs_steady hr), regValue_agenda, hv]
    exact if_congr hbyte rfl rfl
  · rw [readReg_frame]; exact hfsm
  · rw [readReg_frame]; exact hlat
  · rw [readReg_frame]; exact hmem

/-- Settles O12: STATUS reads its packed fields, and a write clears DONE and OVR where it has a 1. -/
theorem statusFieldsAndWriteOneToClear : Obligations.StatusFieldsAndWriteOneToClear := by
  unfold Obligations.StatusFieldsAndWriteOneToClear
  refine ⟨fun s hi => ?_, fun s v rest ha => ?_⟩
  · obtain ⟨h0, h1⟩ := packStatus_busy_done s.busy s.done s.keyValid s.ovr s.err
    exact ⟨h0.trans ((busy_eq_false_iff s).mpr hi), h1, packStatus_keyValid_ovr_err _ _ _ _ _⟩
  · refine ⟨_, step_regWrite_ok (by decide) (by decide) ha, rfl, ?_, ?_⟩ <;> simp [regAt, writeReg, writeStatus]

/-- Settles O13: the fields of the packed word, and KEYCFG is read-only. -/
theorem keycfgHoldsNkAndNr : Obligations.KeycfgHoldsNkAndNr := by
  unfold Obligations.KeycfgHoldsNkAndNr
  exact ⟨keycfgWord_fields, fun _ _ => rfl, rfl, by decide⟩

/-- Every register reads 0 after reset (R36). -/
theorem regValue_reset (r : RegName) : regValue r State.reset = 0 := by
  cases r with
  | status | keycfg | opA | opB | res => decide
  | _ => rfl

/-- Settles O17: the reset values, register by register and field by field. -/
theorem resetValues : Obligations.ResetValues := by
  unfold Obligations.ResetValues
  refine ⟨fun off _ _ => regValue_reset _, rfl, rfl, rfl, rfl, rfl, rfl, rfl, fun i => ?_, rfl, rfl, rfl, rfl⟩
  simp [State.reset, zeroBlock]

end Sys2Proof.Machine
end

section
/-! The bytes of a canonical memory determine it, and what a store leaves at every address (R41, R42). -/

namespace Sys2Proof.Machine

section Cells

variable {c : List Host.Cell} {a : Nat} {v : Byte}

/-- In rising order of addresses no later cell hides an earlier one. -/
theorem Memory.lookup_of_mem (h : c.Pairwise fun x y => x.1 < y.1) (hv : (a, v) ∈ c) : Memory.lookup c a = v := by
  induction c with
  | nil => cases hv
  | cons hd tl ih =>
    obtain ⟨hlt, htl⟩ := List.pairwise_cons.mp h
    rcases List.mem_cons.mp hv with rfl | hv
    · exact if_pos rfl
    · exact (if_neg (hlt _ hv).ne).trans (ih htl hv)

theorem Memory.mem_of_lookup (hv : Memory.lookup c a ≠ Memory.unlisted) : (a, Memory.lookup c a) ∈ c := by
  induction c with
  | nil => exact absurd rfl hv
  | cons hd tl ih =>
    simp only [Memory.lookup] at hv ⊢
    split
    · next hk => exact hk ▸ List.mem_cons_self
    · next hk => rw [if_neg hk] at hv; exact List.mem_cons_of_mem _ (ih hv)

end Cells

/-- A canonical memory lists exactly its bytes other than the unlisted value. -/
theorem Memory.mem_cells_iff {m : Memory} (hm : m.wf = true) (a : Nat) (v : Byte) :
    (a, v) ∈ m.cells ↔ m.load a = v ∧ v ≠ Memory.unlisted := by
  obtain ⟨hsorted, hcells⟩ := (Memory.wf_iff m).mp hm
  constructor
  · intro h
    obtain ⟨hlt, hv⟩ := hcells _ h
    exact ⟨(if_pos hlt).trans (Memory.lookup_of_mem hsorted h), hv⟩
  · rintro ⟨rfl, hv⟩
    have hlt : a < m.size := by
      by_contra hge
      exact hv (Memory.load_above m a (Nat.not_lt.mp hge))
    simp only [Memory.load, if_pos hlt] at hv ⊢
    exact Memory.mem_of_lookup hv

/-- Settles O20: both lists of cells are strictly rising, and the bytes read say which cells they hold. -/
theorem canonicalMemoryIsDeterminedByItsBytes : Obligations.CanonicalMemoryIsDeterminedByItsBytes := by
  unfold Obligations.CanonicalMemoryIsDeterminedByItsBytes
  intro m m' hm hm' hsize hload
  have hcells : m.cells = m'.cells := by
    have : Std.Irrefl fun x y : Host.Cell => x.1 < y.1 := ⟨fun x => lt_irrefl x.1⟩
    have : Std.Antisymm fun x y : Host.Cell => x.1 < y.1 := ⟨fun _ _ h h' => absurd h' h.asymm⟩
    refine ((Memory.wf_iff m).mp hm).1.eq_of_mem_iff ((Memory.wf_iff m').mp hm').1 fun ⟨a, v⟩ => ?_
    rw [Memory.mem_cells_iff hm, Memory.mem_cells_iff hm', hload]
  cases m
  cases m'
  exact congrArg₂ Memory.mk hsize hcells

/-- What a store leaves at every address (R42, R43). -/
theorem Memory.load_store {m : Memory} (hm : m.wf = true) (a x : Nat) (b : Byte) :
    (m.store a b).load x = if x = a ∧ x < m.size then b else m.load x := by
  by_cases hx : x = a
  · subst hx
    by_cases hlt : x < m.size
    · rw [if_pos ⟨rfl, hlt⟩, Memory.load_store_same m x b hm hlt]
    · rw [if_neg fun h => hlt h.2, Memory.store_above m x b (Nat.not_lt.mp hlt)]
  · rw [if_neg fun h => hx h.1, Memory.load_store_ne m a x b hx]

theorem inRanges_eq_true_iff (rs : List (Nat × Nat)) (a : Nat) :
    inRanges rs a = true ↔ ∃ r ∈ rs, r.1 ≤ a ∧ a < r.1 + r.2 := by
  simp [inRanges]

theorem inRanges_eq_false_iff (rs : List (Nat × Nat)) (a : Nat) :
    inRanges rs a = false ↔ ∀ r ∈ rs, ¬(r.1 ≤ a ∧ a < r.1 + r.2) := by
  simp [inRanges]

end Sys2Proof.Machine
end

section
/-! The ranges a command reads and writes: they fit in memory, and a run keeps every byte outside them (R51, R61). -/

namespace Sys2Proof.Machine

section Ranges

variable {i : Instr} {s t : State} {x : Nat}

theorem touchedRanges_illegal {y : Illegal} (hd : decode s.lat.cmd = .illegal y) : touchedRanges s = [] := by
  simp only [touchedRanges, hd]

theorem touchedRanges_command (hd : decode s.lat.cmd = .command i) :
    touchedRanges s = if commandCheck i s = .ok then commandReads i s ++ commandWrites i s else [] := by
  simp only [touchedRanges, hd]

theorem writtenRanges_command (hd : decode s.lat.cmd = .command i) :
    writtenRanges s = if commandCheck i s = .ok then commandWrites i s else [] := by
  simp only [writtenRanges, hd]

/-- The checks of a command cover every range it reads or writes (R51, R237). -/
theorem commandRanges_fit (hc : commandCheck i s = .ok) :
    ∀ r ∈ commandReads i s ++ commandWrites i s, rangeFits s r.1 r.2 := by
  cases i with
  | keyExpand =>
    obtain ⟨-, hkey⟩ := (checkKeyExpand_ok_iff s).mp hc
    simpa [commandReads, commandWrites] using hkey
  | stateLoad => simpa [commandReads, commandWrites, rangeFits] using (checkStateLoad_ok_iff s).mp hc
  | stateStore => simpa [commandReads, commandWrites, rangeFits] using (checkStateStore_ok_iff s).mp hc
  | ecbEnc =>
    obtain ⟨-, hsrc, hdst⟩ := (checkEcbEnc_ok_iff s).mp hc
    simpa [commandReads, commandWrites] using And.intro hsrc hdst
  | ecbDec =>
    obtain ⟨-, -, hsrc, hdst⟩ := (checkEcbDec_ok_iff s).mp hc
    simpa [commandReads, commandWrites] using And.intro hsrc hdst
  | cbcEnc =>
    obtain ⟨-, -, hiv, hsrc, hdst⟩ := (checkCbcEnc_ok_iff s).mp hc
    simpa [commandReads, commandWrites] using And.intro hiv (And.intro hsrc hdst)
  | cbcDec =>
    obtain ⟨-, -, -, hiv, hsrc, hdst⟩ := (checkCbcDec_ok_iff s).mp hc
    simpa [commandReads, commandWrites] using And.intro hiv (And.intro hsrc hdst)
  | _ => simp [commandReads, commandWrites]

/-- The running command touches no address at or above MEM_SIZE (R51). -/
theorem lt_size_of_touched (hx : inRanges (touchedRanges s) x = true) : x < s.mem.size := by
  obtain ⟨r, hr, hle, hlt⟩ := (inRanges_eq_true_iff _ x).mp hx
  cases hd : decode s.lat.cmd with
  | illegal y => simp [touchedRanges_illegal hd] at hr
  | command i =>
    rw [touchedRanges_command hd] at hr
    split at hr
    · next hc => have := commandRanges_fit hc r hr; omega
    · cases hr

theorem not_written_of_not_touched (hx : inRanges (touchedRanges s) x = false) :
    inRanges (writtenRanges s) x = false := by
  rw [inRanges_eq_false_iff] at hx ⊢
  exact fun r hr => hx r (writtenRanges_sublist s r hr)

/-- A run changes none of the ranges: only `KEY_EXPAND` changes the key, and its own checks do not read it. -/
theorem runCommand_touchedRanges (h : runCommand s = .next t) : touchedRanges t = touchedRanges s := by
  obtain ⟨hf, -⟩ := runCommand_keeps h
  cases hd : decode s.lat.cmd with
  | illegal y => rw [touchedRanges_illegal hd, touchedRanges_illegal (hf.lat ▸ hd)]
  | command i =>
    by_cases hi : i = .keyExpand
    · subst hi
      have hcheck : commandCheck .keyExpand t = commandCheck .keyExpand s := by
        have hfits (a n) : t.mem.inBounds a n = s.mem.inBounds a n := by simp [Memory.inBounds, hf.size]
        simp only [commandCheck, checkKeyExpand, State.keyBytes, State.keyBase, hf.lat, hfits]
      have hreads : commandReads .keyExpand t = commandReads .keyExpand s := by
        simp only [commandReads, State.keyBytes, State.keyBase, hf.lat]
      rw [touchedRanges_command hd, touchedRanges_command (hf.lat ▸ hd), hcheck, hreads]
      rfl
    · rw [runCommand_command hd] at h
      obtain ⟨hv, -, hnr⟩ := exec_keeps_key hi h
      exact touchedRanges_congr hf.lat hv hnr hf.size

end Ranges

section Loops

/-- A loop that stores block `k` at `dst + 16*k` leaves every byte outside the blocks it runs over. -/
theorem forBlocks_load_outside {body : Nat → Pass → Pass} {dst x : Nat}
    (hbody : ∀ k p, ∃ b, (body k p).mem = p.mem.storeBlock (dst + 16 * k) b) (n i : Nat) (p : Pass)
    (hx : ¬(dst + 16 * i ≤ x ∧ x < dst + 16 * (i + n))) : (forBlocks body n i p).mem.load x = p.mem.load x := by
  induction n generalizing i p with
  | zero => rfl
  | succ n ih =>
    obtain ⟨b, hb⟩ := hbody i p
    rw [forBlocks, ih _ _ (by omega), hb]
    exact Memory.load_storeBytes_out _ _ _ _ (by simp; omega)

variable {s : State} {x : Nat}

theorem encPasses_load_outside (hx : ¬(s.dstBase ≤ x ∧ x < s.dstBase + encBytes s.srcBytes)) :
    (ecbEncPass s).mem.load x = s.mem.load x ∧ (cbcEncPass s).mem.load x = s.mem.load x := by
  unfold encBytes at hx
  exact ⟨forBlocks_load_outside (fun _ _ => ⟨_, rfl⟩) _ _ _ (by omega),
    forBlocks_load_outside (fun _ _ => ⟨_, rfl⟩) _ _ _ (by omega)⟩

theorem decPasses_load_outside (hx : ¬(s.dstBase ≤ x ∧ x < s.lastDst)) :
    (ecbDecPass s).mem.load x = s.mem.load x ∧ (cbcDecPass s).mem.load x = s.mem.load x := by
  unfold State.lastDst at hx
  exact ⟨forBlocks_load_outside (fun _ _ => ⟨_, rfl⟩) _ _ _ (by omega),
    forBlocks_load_outside (fun _ _ => ⟨_, rfl⟩) _ _ _ (by omega)⟩

/-- The final block of a decryption ends at or before the end of its destination range (R185). -/
theorem lastDst_add_unpadded_le (hn : s.srcBytes ≠ 0 ∧ s.srcBytes % 16 = 0) (b : Block) :
    s.lastDst + (unpadded b).length ≤ s.dstBase + s.srcBytes := by
  rw [unpadded_length]
  unfold State.lastDst decBlocks
  omega

theorem dstBase_le_lastDst (s : State) : s.dstBase ≤ s.lastDst := Nat.le_add_right _ _

/-- The unpadded final block, stored after a pass over the blocks before it, stays in the destination range. -/
theorem load_finalBlock_outside {m : Memory} (b : Block) (hn : s.srcBytes ≠ 0 ∧ s.srcBytes % 16 = 0)
    (hx : ¬(s.dstBase ≤ x ∧ x < s.dstBase + s.srcBytes)) :
    (m.storeBytes s.lastDst (unpadded b)).load x = m.load x := by
  have := lastDst_add_unpadded_le hn b
  have := dstBase_le_lastDst s
  exact Memory.load_storeBytes_out _ _ _ _ (by omega)

end Loops

section Runs

variable {i : Instr} {s t : State} {x : Nat}

/-- A command whose checks have passed changes no byte outside the range it writes. -/
theorem commandEffect_load_outside (hc : commandCheck i s = .ok) (hx : inRanges (commandWrites i s) x = false) :
    (commandEffect i s).mem.load x = s.mem.load x := by
  rw [inRanges_eq_false_iff] at hx
  cases i with
  | stateStore =>
    rw [commandEffect, stateStoreEffect_mem]
    exact Memory.load_storeBytes_out _ _ _ _ (by simpa [commandWrites] using hx)
  | ecbEnc =>
    rw [commandEffect, ecbEncEffect_mem]
    exact (encPasses_load_outside (hx _ List.mem_cons_self)).1
  | cbcEnc =>
    rw [commandEffect, cbcEncEffect_mem]
    exact (encPasses_load_outside (hx _ List.mem_cons_self)).2
  | ecbDec =>
    obtain ⟨-, hn, -⟩ := (checkEcbDec_ok_iff s).mp hc
    have hx := hx _ List.mem_cons_self
    have := lastDst_add_unpadded_le hn (ecbDecHold s)
    rw [commandEffect, ecbDecEffect_mem]
    exact (load_finalBlock_outside _ hn hx).trans (decPasses_load_outside (by omega)).1
  | cbcDec =>
    obtain ⟨-, hn, -⟩ := (checkCbcDec_ok_iff s).mp hc
    have hx := hx _ List.mem_cons_self
    have := lastDst_add_unpadded_le hn (cbcDecHold s)
    rw [commandEffect, cbcDecEffect_mem]
    exact (load_finalBlock_outside _ hn hx).trans (decPasses_load_outside (by omega)).2
  | _ => simp [commandEffect]

theorem commandError_mem (i : Instr) (e : ErrCode) (s : State) : (commandError i e s).mem = s.mem := by
  unfold commandError; split
  · rfl
  · split <;> rfl

/-- A command run whole changes no byte outside its checked destination range, and none if a check fails (R238). -/
theorem runCommand_load_outside (h : runCommand s = .next t) (hx : inRanges (writtenRanges s) x = false) :
    t.mem.load x = s.mem.load x := by
  cases hd : decode s.lat.cmd with
  | illegal y =>
    rw [runCommand_illegal hd] at h
    cases h
    rfl
  | command i =>
    rw [runCommand_command hd] at h
    cases completes_of_exec h with
    | success hc hp =>
      rw [writtenRanges_command hd, if_pos hc] at hx
      exact commandEffect_load_outside hc hx
    | checkFailed hc => rw [commandError_mem]
    | badPadding hc b hb hp => rfl

theorem runCommand_answers (s : State) : ∃ t, runCommand s = .next t := by
  cases hd : decode s.lat.cmd with
  | illegal y => exact ⟨_, runCommand_illegal hd⟩
  | command i =>
    obtain ⟨t, ht, -⟩ := exec_completes i s
    exact ⟨t, (runCommand_command hd).trans ht⟩

theorem settle_frame (s : State) : settle s =
    { s with mem := (settle s).mem, draws := (settle s).draws, hazard := (settle s).hazard } := by
  rcases settle_cases s with h | ⟨-, -, h⟩ <;> rw [h]
  rfl

theorem settle_load_outside (hx : inRanges (touchedRanges s) x = false) : (settle s).mem.load x = s.mem.load x := by
  rcases settle_cases s with h | ⟨-, -, h⟩ <;> rw [h]
  exact Memory.load_scrambleRanges_out _ _ _ _ hx

/-- No forbidden access stays pending once the command has completed. -/
theorem settle_hazard_idle (h : s.fsm = .idle) : (settle s).hazard = false := by
  have hidle : (settle s).busy = false := by rw [settle_frame]; exact (busy_eq_false_iff s).mpr h
  exact Bool.eq_false_of_not_eq_true fun hz => by simp [settle_hazardInv s hz] at hidle

/-- From CHECK the engine's move completes the command, and keeps every byte the command does not touch. -/
theorem engineMove_check_completes (hf : s.fsm = .check) : ∃ u, engineMove s = .next u ∧
    u.fsm = .idle ∧ u.done = true ∧ u.hazard = false ∧
    ∀ x, inRanges (touchedRanges s) x = false → u.mem.load x = s.mem.load x := by
  obtain ⟨t, ht⟩ := runCommand_answers s
  obtain ⟨hframe, -⟩ := runCommand_keeps ht
  refine ⟨settle t, by rw [engineMove_check hf, ht, settleOutcome_next], ?_, ?_, settle_hazard_idle hframe.fsm,
    fun x hx => ?_⟩
  · rw [settle_frame]; exact hframe.fsm
  · rw [settle_frame]; exact hframe.done
  · calc (settle t).mem.load x = t.mem.load x := settle_load_outside (by rwa [runCommand_touchedRanges ht])
      _ = s.mem.load x := runCommand_load_outside ht (not_written_of_not_touched hx)

end Runs

end Sys2Proof.Machine
end

section
/-! The host's buffer port, idle and while a command runs (R43, R56, R266). -/

namespace Sys2Proof.Machine

section Port

variable {s : State}

theorem hostMemWrite_frame (a : Nat) (b : Byte) (s : State) : hostMemWrite a b s = { s with
    mem := (hostMemWrite a b s).mem, draws := (hostMemWrite a b s).draws, hazard := (hostMemWrite a b s).hazard } := by
  unfold hostMemWrite; split <;> rfl

theorem hostMemWrite_wf (a : Nat) (b : Byte) (h : s.mem.wf = true) : (hostMemWrite a b s).mem.wf = true := by
  have hstore := Memory.store_wf s.mem a b h
  unfold hostMemWrite
  split
  · exact Memory.scrambleRanges_wf _ _ _ hstore
  · exact hstore

theorem hostMemWrite_touchedRanges (a : Nat) (b : Byte) (s : State) :
    touchedRanges (hostMemWrite a b s) = touchedRanges s := by
  have hsize := hostMemWrite_size a b s
  rw [hostMemWrite_frame] at hsize ⊢
  exact touchedRanges_congr rfl rfl rfl hsize

/-- A byte the running command does not touch is left as by a plain write (R43; log 5). -/
theorem hostMemWrite_load {a x : Nat} (b : Byte) (hm : s.mem.wf = true)
    (hx : s.fsm = .idle ∨ inRanges (touchedRanges s) x = false) :
    (hostMemWrite a b s).mem.load x = if x = a ∧ x < s.mem.size then b else s.mem.load x := by
  rw [← Memory.load_store hm]
  by_cases ha : s.mem.size ≤ a
  · rw [hostMemWrite_above ha, Memory.store_above _ _ _ ha]
  by_cases hi : s.fsm = .idle
  · rw [hostMemWrite_idle hi]
  · rw [hostMemWrite_busy hi (Nat.not_le.mp ha), raiseHazard_mem]
    have hx : inRanges (touchedRanges s) x = false := hx.resolve_left hi
    have hsame : touchedRanges { s with mem := s.mem.store a b } = touchedRanges s :=
      touchedRanges_congr rfl rfl rfl (Memory.store_size s.mem a b)
    exact Memory.load_scrambleRanges_out _ _ _ _ (hsame ▸ hx)

end Port

/-- Settles O15: a write through `hostMemWrite`, a read through `hostMemRead`, each idle or outside the ranges. -/
theorem bufferPortReadsAndWritesOneByte : Obligations.BufferPortReadsAndWritesOneByte := by
  unfold Obligations.BufferPortReadsAndWritesOneByte
  intro s a b rest hm
  let s' : State := { s with agenda := rest }
  refine ⟨fun hag => ?_, fun hag => ?_⟩
  · refine ⟨_, step_memWrite hag, hostMemWrite_size _ _ _, hostMemWrite_wf _ _ hm,
      fun ha => hostMemWrite_above (s := s') ha b, fun hi => ?_, fun _ => hostMemWrite_frame _ _ _,
      fun x hx => hostMemWrite_load (s := s') b hm hx⟩
    rw [hostMemWrite_idle (s := s') hi]
  · refine ⟨_, step_memRead hag, hostMemRead_size _ _, fun hplain => hostMemRead_plain hplain, fun ha => ?_⟩
    have hout : inRanges (touchedRanges s') a = false :=
      Bool.eq_false_of_not_eq_true fun h => Nat.not_lt.mpr ha (lt_size_of_touched h)
    rw [hostMemRead_plain (.inr hout)]
    exact Memory.load_above _ _ ha

/-- Settles O16: the write keeps the command waiting with the ranges it had, and the command then completes. -/
theorem hostWriteWhileBusySparesOtherBytes : Obligations.HostWriteWhileBusySparesOtherBytes := by
  unfold Obligations.HostWriteWhileBusySparesOtherBytes
  intro s a b rest hm hf hag
  let s' : State := { s with agenda := rest }
  have hbusy : s'.fsm ≠ .idle := by simp [s', hf]
  have hcheck : (hostMemWrite a b s').fsm = .check := by rw [hostMemWrite_frame]; exact hf
  obtain ⟨u, hu, hidle, hdone, hhazard, hkept⟩ := engineMove_check_completes hcheck
  rw [hostMemWrite_touchedRanges] at hkept
  refine ⟨_, u, step_memWrite hag, hu, hostMemWrite_frame _ _ _, hostMemWrite_size _ _ _, fun ha => ?_,
    fun ha => hostMemWrite_above (s := s') ha b, hidle, hdone, hhazard,
    fun x hx => ⟨hostMemWrite_load (s := s') b hm (.inr hx), hkept x hx⟩⟩
  rw [hostMemWrite_busy hbusy ha, raiseHazard_hazard]

end Sys2Proof.Machine
end

section
/-! Decoding by the numbers of a word's three fields, and the illegal space (R60 to R64). -/

namespace Sys2Proof

section Fields

variable (w : Word)

theorem opField_toNat : (opField w).toNat = w.toNat % 256 := by
  rw [opField, BitVec.extractLsb'_toNat, Nat.shiftRight_zero]

theorem argField_eq : argField w = w.toNat / 256 % 16 := by
  rw [argField, BitVec.extractLsb'_toNat, Nat.shiftRight_eq_div_pow]

theorem opField_eq_addRoundKey_iff : opField w = 0x18 ↔ w.toNat % 256 = 0x18 := by
  rw [← BitVec.toNat_inj, opField_toNat]; rfl

theorem rsvField_eq_zero_iff : rsvField w = 0 ↔ w.toNat / 4096 = 0 := by
  have hw : w.toNat < 2 ^ 32 := w.isLt
  have hmod : (rsvField w).toNat = w.toNat / 4096 % 2 ^ 20 := by
    rw [rsvField, BitVec.extractLsb'_toNat, Nat.shiftRight_eq_div_pow]
  rw [← BitVec.toNat_inj, hmod, Nat.mod_eq_of_lt (by omega)]; rfl

end Fields

section Commands

/-- ARG is a 4-bit field (R60): a command can be encoded exactly when its ARG fits. -/
theorem wf_iff_argOf_lt (i : Instr) : i.wf = true ↔ argOf i < 16 := by
  cases i with
  | addRoundKey r => simp only [Instr.wf, argOf, decide_eq_true_iff]
  | _ => decide

/-- Only `ADD_ROUND_KEY` has a nonzero ARG (R62). -/
theorem argOf_eq_zero {i : Instr} (h : opcodeOf i ≠ 0x18) : argOf i = 0 := by
  cases i with
  | addRoundKey r => exact absurd rfl h
  | _ => rfl

/-- The OP column of the opcode map (R62). -/
def assignedOpcodes : List Nat :=
  [0x00, 0x01, 0x10, 0x11, 0x12, 0x13, 0x14, 0x15, 0x16, 0x17, 0x18, 0x20, 0x21, 0x30, 0x31, 0x32,
    0x33, 0x40, 0x41, 0x42, 0x43]

variable {op : Byte} {arg : Nat}

theorem opcodeCommand_eq_some_iff {i : Instr} :
    opcodeCommand op arg = some i ↔ opcodeOf i = op.toNat ∧ (op.toNat = 0x18 → argOf i = arg) := by
  constructor
  · intro h
    unfold opcodeCommand at h
    split at h <;> cases h <;> simp [*, opcodeOf, argOf]
  · rintro ⟨hop, harg⟩
    unfold opcodeCommand
    rw [← hop] at harg ⊢
    cases i with
    | addRoundKey r => rw [← harg rfl]; rfl
    | _ => rfl

theorem opcodeCommand_eq_none_iff : opcodeCommand op arg = none ↔ op.toNat ∉ assignedOpcodes := by
  unfold opcodeCommand
  split <;> simp_all [assignedOpcodes]

end Commands

section Decoding

variable {w : Word} {i : Instr}

/-- A word is a command when it passes the three tests of R63. -/
theorem decode_eq_command_iff_tests : decode w = .command i ↔
    rsvField w = 0 ∧ opcodeCommand (opField w) (argField w) = some i ∧ (opField w ≠ 0x18 → argField w = 0) := by
  unfold decode
  split
  · next hrsv => exact iff_of_false nofun fun ⟨h, _⟩ => hrsv h
  · next hrsv =>
    split
    · next hop => exact iff_of_false nofun fun ⟨_, h, _⟩ => nomatch hop.symm.trans h
    · next j hop =>
      split
      · next harg => exact iff_of_false nofun fun ⟨_, _, h⟩ => harg.2 (h harg.1)
      · next harg =>
        have hpass : opField w ≠ 0x18 → argField w = 0 := fun h => not_not.mp fun ha => harg ⟨h, ha⟩
        rw [hop, Decoded.command.injEq, Option.some.injEq]
        exact ⟨fun h => ⟨not_not.mp hrsv, h, hpass⟩, fun ⟨_, h, _⟩ => h⟩

/-- Decoding is total: a word is illegal when it is no command. -/
theorem exists_decode_eq_illegal_iff_not_command : (∃ y, decode w = .illegal y) ↔ ∀ i, decode w ≠ .command i := by
  cases decode w <;> simp

/-- A word is illegal when it fails one of the three tests of R63. -/
theorem exists_decode_eq_illegal_iff_tests : (∃ y, decode w = .illegal y) ↔
    rsvField w ≠ 0 ∨ opcodeCommand (opField w) (argField w) = none ∨ (opField w ≠ 0x18 ∧ argField w ≠ 0) := by
  simp only [exists_decode_eq_illegal_iff_not_command, Ne, decode_eq_command_iff_tests]
  cases opcodeCommand (opField w) (argField w) with
  | none => simp
  | some j =>
    simp only [Option.some.injEq, reduceCtorEq, false_or, ← Classical.not_imp, ← not_and_or]
    exact ⟨fun h ⟨hrsv, harg⟩ => h j ⟨hrsv, rfl, harg⟩, fun h i ⟨hrsv, _, harg⟩ => h ⟨hrsv, harg⟩⟩

/-- A word is a command exactly when RSV is 0 and OP and ARG are the command's (R60, R63). -/
theorem decode_eq_command_iff : decode w = .command i ↔
    w.toNat / 4096 = 0 ∧ opcodeOf i = w.toNat % 256 ∧ argOf i = w.toNat / 256 % 16 := by
  rw [decode_eq_command_iff_tests, opcodeCommand_eq_some_iff, rsvField_eq_zero_iff, Ne, opField_eq_addRoundKey_iff,
    opField_toNat, argField_eq]
  refine and_congr_right fun _ => ⟨fun ⟨⟨hop, harg⟩, hzero⟩ => ⟨hop, ?_⟩, fun ⟨hop, harg⟩ => ?_⟩
  · by_cases h : w.toNat % 256 = 0x18
    · exact harg h
    · rw [argOf_eq_zero (hop ▸ h), hzero h]
  · exact ⟨⟨hop, fun _ => harg⟩, fun h => harg ▸ argOf_eq_zero (hop ▸ h)⟩

/-- The three tests of R63 in the numbers of the fields. -/
theorem exists_decode_eq_illegal_iff : (∃ y, decode w = .illegal y) ↔
    w.toNat / 4096 ≠ 0 ∨ w.toNat % 256 ∉ assignedOpcodes ∨ (w.toNat % 256 ≠ 0x18 ∧ w.toNat / 256 % 16 ≠ 0) := by
  rw [exists_decode_eq_illegal_iff_tests, opcodeCommand_eq_none_iff, Ne, rsvField_eq_zero_iff, Ne,
    opField_eq_addRoundKey_iff, opField_toNat, argField_eq]

end Decoding

theorem encode_toNat (i : Instr) : (encode i).toNat = (opcodeOf i + 256 * argOf i) % 2 ^ 32 :=
  BitVec.toNat_ofNat _ _

/-- A command has one word: encoding what a word decodes to gives the word back (R60, R62). -/
theorem encode_of_decode_eq {w : Word} {i : Instr} (h : decode w = .command i) : encode i = w := by
  obtain ⟨hrsv, hop, harg⟩ := decode_eq_command_iff.mp h
  have hw : w.toNat < 2 ^ 32 := w.isLt
  apply BitVec.eq_of_toNat_eq
  rw [encode_toNat, hop, harg]
  omega

/-- The unassigned opcodes as the ranges R64 lists. -/
theorem not_mem_assignedOpcodes_iff {n : Nat} : n ∉ assignedOpcodes ↔
    ((0x02 ≤ n ∧ n ≤ 0x0F) ∨ (0x19 ≤ n ∧ n ≤ 0x1F) ∨ (0x22 ≤ n ∧ n ≤ 0x2F) ∨ (0x34 ≤ n ∧ n ≤ 0x3F) ∨ 0x44 ≤ n) := by
  simp only [assignedOpcodes, List.mem_cons, List.not_mem_nil, or_false]
  omega

end Sys2Proof
end

section
/-! The encoding's statements: the opcode map, the decoder's totality and what an illegal word does (R62 to R64). -/

namespace Sys2Proof.Machine

/-- A round above NR is refused when the command runs (R159, R236). -/
theorem checkAddRoundKey_above_nr {s : State} {round : Nat} (hk : s.keyValid = true) (hr : s.nr.toNat < round) :
    checkAddRoundKey round s = .illegalCommand := by
  simp [checkAddRoundKey, firstError, hk, hr]

/-- Settles O2: each clause read off the numbers of the word's fields, the failing round off its check. -/
theorem decodeFollowsTheOpcodeMap : Obligations.DecodeFollowsTheOpcodeMap := by
  unfold Obligations.DecodeFollowsTheOpcodeMap
  refine ⟨fun w => exists_decode_eq_illegal_iff, fun w i hd => ?_, fun s w hrsv hop => ⟨?_, fun hk hr => ?_⟩⟩
  · obtain ⟨-, hop, harg⟩ := decode_eq_command_iff.mp hd
    have hwf : i.wf = true := by rw [wf_iff_argOf_lt, harg]; exact Nat.mod_lt _ (by decide)
    exact ⟨hop, harg, hwf, encode_of_decode_eq hd⟩
  · exact decode_eq_command_iff.mpr ⟨hrsv, hop.symm, rfl⟩
  · have hcheck := checkAddRoundKey_above_nr hk hr
    refine ⟨_, exec_addRoundKey_error (by rw [hcheck]; decide), ?_⟩
    rw [raiseError_err, hcheck]

/-- Settles O5: acceptance of any word, R64's ranges for the tests of R63, and the completion of an illegal word. -/
theorem illegalWordsTouchOnlyStatus : Obligations.IllegalWordsTouchOnlyStatus := by
  unfold Obligations.IllegalWordsTouchOnlyStatus
  refine ⟨fun s v hi => ?_, fun w => ?_, fun s y hag hf hh hd => ?_⟩
  · have haccept : writeReg .cmd v s = accept v s := writeCmd_idle hi v
    rw [haccept]
    exact ⟨rfl, rfl⟩
  · rw [exists_decode_eq_illegal_iff, not_mem_assignedOpcodes_iff, and_comm (a := w.toNat % 256 ≠ 0x18)]
  · have hnone : (raiseError .illegalCommand s).hazard = false := hh
    rw [step_nil hag, engineMove_check hf, runCommand_illegal hd, settleOutcome_next, settle_of_no_hazard _ hnone]
    rfl

/-- The number `0x18 | (r << 8)` is (R62). -/
theorem addRoundKeyWord_toNat :
    ∀ r : Nat, r < 16 → (0x00000018#32 ||| (BitVec.ofNat 32 r <<< 8)).toNat = 0x18 + 256 * r := by
  decide

/-- Settles O3: a row's word has RSV 0 and the row's OP and ARG. -/
theorem opcodeMapWords : Obligations.OpcodeMapWords := by
  unfold Obligations.OpcodeMapWords
  have hround (r : Nat) (hr : r < 16) :
      decode (0x00000018#32 ||| (BitVec.ofNat 32 r <<< 8)) = .command (.addRoundKey r) := by
    rw [decode_eq_command_iff, addRoundKeyWord_toNat r hr]
    simp only [opcodeOf, argOf]
    omega
  refine ⟨?_, ?_, ?_, ?_, ?_, ?_, ?_, ?_, ?_, ?_, hround, ?_, ?_, ?_, ?_, ?_, ?_, ?_, ?_, ?_, ?_⟩ <;>
    exact decode_eq_command_iff.mpr (by decide)

end Sys2Proof.Machine
end

section
/-! The field GF(2^8) of the multiplier (R100 to R104): doubling and the product loop are additive, every byte is built
from 0 by doublings and additions of 1, and so the field laws follow by induction on a factor. -/

namespace Sys2Proof.Machine

section ConditionalXor

variable {n : Nat}

/-- A conditional addition whose condition and operand are sums is the sum of two conditional additions. -/
theorem ite_xor_cond (c d : Bool) (x y m : BitVec n) :
    (if (c ^^ d) = true then (x ^^^ y) ^^^ m else x ^^^ y) =
      (if c = true then x ^^^ m else x) ^^^ (if d = true then y ^^^ m else y) := by
  cases c <;> cases d
  · rfl
  · exact BitVec.xor_assoc x y m
  · change x ^^^ y ^^^ m = x ^^^ m ^^^ y
    ac_rfl
  · change x ^^^ y = x ^^^ m ^^^ (y ^^^ m)
    rw [BitVec.xor_comm y m, ← BitVec.xor_assoc, BitVec.xor_assoc x m m, BitVec.xor_self, BitVec.xor_zero]

/-- A conditional addition of a sum to a sum is the sum of two conditional additions. -/
theorem ite_xor_xor (c : Prop) [Decidable c] (p q x y : BitVec n) :
    (if c then (p ^^^ q) ^^^ (x ^^^ y) else p ^^^ q) =
      (if c then p ^^^ x else p) ^^^ (if c then q ^^^ y else q) := by
  split
  · ac_rfl
  · rfl

end ConditionalXor

section Doubling

@[simp] theorem gfDouble_zero : gfDouble 0 = 0 := rfl

theorem gfDouble_xor (a b : Byte) : gfDouble (a ^^^ b) = gfDouble a ^^^ gfDouble b := by
  unfold gfDouble
  rw [BitVec.getLsbD_xor, BitVec.shiftLeft_xor_distrib, ite_xor_cond]

/-- A byte is twice its upper seven bits, and 1 more if it is odd. -/
theorem eq_gfDouble_shiftRight_or (a : Byte) : a = gfDouble (a >>> 1) ∨ a = gfDouble (a >>> 1) ^^^ 1 := by
  revert a; decide

/-- Horner's scheme for bytes as polynomials: a property of 0 that doubling and adding 1 keep holds of every byte. -/
theorem gfDouble_induction {P : Byte → Prop} (zero : P 0) (double : ∀ a, P a → P (gfDouble a))
    (add_one : ∀ a, P a → P (a ^^^ 1)) (a : Byte) : P a := by
  by_cases ha : a = 0
  · exact ha ▸ zero
  · have hlt : (a >>> 1).toNat < a.toNat := by
      have hpos : a.toNat ≠ 0 := fun h => ha (BitVec.eq_of_toNat_eq h)
      rw [BitVec.toNat_ushiftRight, Nat.shiftRight_eq_div_pow]
      omega
    have hhalf : P (a >>> 1) := gfDouble_induction zero double add_one (a >>> 1)
    rcases eq_gfDouble_shiftRight_or a with h | h
    · exact h ▸ double _ hhalf
    · exact h ▸ add_one _ (double _ hhalf)
termination_by a.toNat

end Doubling

section Loop

/-- The product loop is additive in the multiplicand and the product so far. -/
theorem gfMultLoop_xor (n i : Nat) (a a' b p p' : Byte) :
    gfMultLoop n i (a ^^^ a') b (p ^^^ p') = gfMultLoop n i a b p ^^^ gfMultLoop n i a' b p' := by
  induction n generalizing i a a' p p' with
  | zero => rfl
  | succ n ih => rw [gfMultLoop, gfDouble_xor, ite_xor_xor, ih, gfMultLoop, gfMultLoop]

/-- The product loop commutes with doubling. -/
theorem gfMultLoop_gfDouble (n i : Nat) (a b p : Byte) :
    gfMultLoop n i (gfDouble a) b (gfDouble p) = gfDouble (gfMultLoop n i a b p) := by
  induction n generalizing i a p with
  | zero => rfl
  | succ n ih => rw [gfMultLoop, gfMultLoop, ← ih, ← gfDouble_xor, apply_ite gfDouble]

/-- Iterations that meet only zero bits of the multiplier keep the product so far. -/
theorem gfMultLoop_of_bits_clear (n i : Nat) (a b p : Byte) (h : ∀ k, i ≤ k → b.getLsbD k = false) :
    gfMultLoop n i a b p = p := by
  induction n generalizing i a with
  | zero => rfl
  | succ n ih =>
    rw [gfMultLoop, h i le_rfl]
    exact ih (i + 1) _ fun k hk => h k (Nat.le_of_succ_le hk)

/-- The loop may stop once the remaining bits of the multiplier are zero. -/
theorem gfMultLoop_add_of_bits_clear (m n i : Nat) (a b p : Byte) (h : ∀ k, i + m ≤ k → b.getLsbD k = false) :
    gfMultLoop (m + n) i a b p = gfMultLoop m i a b p := by
  induction m generalizing i a p with
  | zero => rw [Nat.zero_add, gfMultLoop_of_bits_clear n i a b p h, gfMultLoop]
  | succ m ih =>
    rw [Nat.succ_add, gfMultLoop, gfMultLoop]
    exact ih (i + 1) _ _ fun k hk => h k (by omega)

end Loop

section Product

theorem gfMult_xor_left (a a' b : Byte) : gfMult (a ^^^ a') b = gfMult a b ^^^ gfMult a' b :=
  gfMultLoop_xor 8 0 a a' b 0 0

theorem gfMult_gfDouble_left (a b : Byte) : gfMult (gfDouble a) b = gfDouble (gfMult a b) :=
  gfMultLoop_gfDouble 8 0 a b 0

@[simp] theorem gfMult_zero_left (b : Byte) : gfMult 0 b = 0 := by
  have hsum : gfMult 0 b = gfMult 0 b ^^^ gfMult 0 b := gfMult_xor_left 0 0 b
  rw [hsum, BitVec.xor_self]
  rfl

@[simp] theorem gfMult_zero_right (a : Byte) : gfMult a 0 = 0 :=
  gfMultLoop_of_bits_clear 8 0 a 0 0 fun _ _ => BitVec.getLsbD_zero

@[simp] theorem gfMult_one_left (b : Byte) : gfMult 1 b = b := by
  revert b; decide

theorem gfMult_xor_right (a b c : Byte) : gfMult a (b ^^^ c) = gfMult a b ^^^ gfMult a c := by
  induction a using gfDouble_induction with
  | zero => simp only [gfMult_zero_left]; rfl
  | double a ih => simp only [gfMult_gfDouble_left, ih, gfDouble_xor]
  | add_one a ih =>
    simp only [gfMult_xor_left, gfMult_one_left, ih]
    ac_rfl

theorem gfMult_gfDouble_right (a b : Byte) : gfMult a (gfDouble b) = gfDouble (gfMult a b) := by
  induction a using gfDouble_induction with
  | zero => simp only [gfMult_zero_left, gfDouble_zero]
  | double a ih => simp only [gfMult_gfDouble_left, ih]
  | add_one a ih => simp only [gfMult_xor_left, gfMult_one_left, ih, gfDouble_xor]

@[simp] theorem gfMult_one_right (a : Byte) : gfMult a 1 = a := by
  induction a using gfDouble_induction with
  | zero => exact gfMult_zero_left 1
  | double a ih => rw [gfMult_gfDouble_left, ih]
  | add_one a ih => rw [gfMult_xor_left, ih, gfMult_one_left]

theorem gfMult_comm (a b : Byte) : gfMult a b = gfMult b a := by
  induction a using gfDouble_induction with
  | zero => rw [gfMult_zero_left, gfMult_zero_right]
  | double a ih => rw [gfMult_gfDouble_left, gfMult_gfDouble_right, ih]
  | add_one a ih => rw [gfMult_xor_left, gfMult_xor_right, ih, gfMult_one_left, gfMult_one_right]

theorem gfMult_assoc (a b c : Byte) : gfMult (gfMult a b) c = gfMult a (gfMult b c) := by
  induction a using gfDouble_induction with
  | zero => simp only [gfMult_zero_left]
  | double a ih => simp only [gfMult_gfDouble_left, ih]
  | add_one a ih => simp only [gfMult_xor_left, gfMult_one_left, ih]

/-- R101: 0x02 is the polynomial `x`. -/
theorem gfMult_two_right (a : Byte) : gfMult a 0x02 = gfDouble a := by
  have htwo : (0x02 : Byte) = gfDouble 1 := rfl
  rw [htwo, gfMult_gfDouble_right, gfMult_one_right]

/-- R103: below `2^m` the first `m` iterations give the product. -/
theorem gfMult_eq_gfMultLoop_of_lt {m : Nat} (hm : m ≤ 8) (a b : Byte) (hb : b.toNat < 2 ^ m) :
    gfMult a b = gfMultLoop m 0 a b 0 := by
  have hclear (k : Nat) (hk : 0 + m ≤ k) : b.getLsbD k = false :=
    Nat.testBit_eq_false_of_lt (hb.trans_le (Nat.pow_le_pow_right (by decide) (by omega)))
  have h := gfMultLoop_add_of_bits_clear m (8 - m) 0 a b 0 hclear
  rwa [Nat.add_sub_cancel' hm] at h

end Product

section Inverse

/-- A second inverse is the first one. -/
theorem gfMult_inverse_unique {a b c : Byte} (hb : gfMult a b = 1) (hc : gfMult a c = 1) : c = b :=
  calc
    c = gfMult c (gfMult a b) := by rw [hb, gfMult_one_right]
    _ = gfMult (gfMult a c) b := by rw [← gfMult_assoc, gfMult_comm c a]
    _ = b := by rw [hc, gfMult_one_left]

/-- The power `a^n` of the field. -/
def gfPow (a : Byte) : Nat → Byte
  | 0 => 1
  | n + 1 => gfMult a (gfPow a n)

theorem gfPow_add (a : Byte) (m n : Nat) : gfPow a (m + n) = gfMult (gfPow a m) (gfPow a n) := by
  induction m with
  | zero => rw [Nat.zero_add, gfPow, gfMult_one_left]
  | succ m ih => rw [Nat.succ_add, gfPow, gfPow, ih, gfMult_assoc]

theorem gfPow_one_left (n : Nat) : gfPow 1 n = 1 := by
  induction n with
  | zero => rfl
  | succ n ih => rw [gfPow, gfMult_one_left, ih]

theorem gfPow_gfMult (a b : Byte) (n : Nat) : gfPow (gfMult a b) n = gfMult (gfPow a n) (gfPow b n) := by
  induction n with
  | zero => simp only [gfPow, gfMult_one_left]
  | succ n ih =>
    simp only [gfPow, ih, gfMult_assoc]
    rw [← gfMult_assoc b, gfMult_comm b, gfMult_assoc]

/-- Squaring is additive: the two mixed products cancel. -/
theorem gfMult_self_xor (a b : Byte) : gfMult (a ^^^ b) (a ^^^ b) = gfMult a a ^^^ gfMult b b := by
  have hmixed : gfMult a b ^^^ gfMult b a = 0 := by rw [gfMult_comm b a, BitVec.xor_self]; rfl
  calc
    gfMult (a ^^^ b) (a ^^^ b) = gfMult a a ^^^ gfMult b b ^^^ (gfMult a b ^^^ gfMult b a) := by
      rw [gfMult_xor_left, gfMult_xor_right, gfMult_xor_right]
      ac_rfl
    _ = gfMult a a ^^^ gfMult b b := by rw [hmixed]; exact BitVec.xor_zero

theorem gfPow_two_pow_succ (a : Byte) (n : Nat) :
    gfPow a (2 ^ (n + 1)) = gfMult (gfPow a (2 ^ n)) (gfPow a (2 ^ n)) := by
  rw [Nat.pow_succ, Nat.mul_two, gfPow_add]

theorem gfPow_two_pow_xor (a b : Byte) (n : Nat) :
    gfPow (a ^^^ b) (2 ^ n) = gfPow a (2 ^ n) ^^^ gfPow b (2 ^ n) := by
  induction n with
  | zero => simp only [Nat.pow_zero, gfPow, gfMult_one_right]
  | succ n ih => simp only [gfPow_two_pow_succ, ih, gfMult_self_xor]

/-- Every byte is a root of `y^256 = y`, since 0x02 is one and the roots are closed under sums and products. -/
theorem gfPow_256 (a : Byte) : gfPow a (2 ^ 8) = a := by
  induction a using gfDouble_induction with
  | zero => exact gfMult_zero_left _
  | double a ih =>
    have htwo : gfPow 0x02 (2 ^ 8) = 0x02 := by decide +kernel
    rw [← gfMult_two_right, gfPow_gfMult, ih, htwo]
  | add_one a ih => rw [gfPow_two_pow_xor, ih, gfPow_one_left]

/-- The only idempotents are 0 and 1: a modulus with two coprime factors would have more. -/
theorem eq_zero_or_one_of_gfMult_self (e : Byte) : gfMult e e = e → e = 0 ∨ e = 1 := by
  revert e; decide

/-- The power 255 of a byte is idempotent. -/
theorem gfPow_255_idempotent (a : Byte) : gfMult (gfPow a 255) (gfPow a 255) = gfPow a 255 :=
  calc
    gfMult (gfPow a 255) (gfPow a 255) = gfPow a (2 ^ 8 + 254) := (gfPow_add a 255 255).symm
    _ = gfMult a (gfPow a 254) := by rw [gfPow_add, gfPow_256]

/-- The inverse of a nonzero byte is its power 254. -/
theorem gfMult_gfPow_254 {a : Byte} (ha : a ≠ 0) : gfMult a (gfPow a 254) = 1 := by
  have hroot : gfMult a (gfPow a 255) = a := gfPow_256 a
  rcases eq_zero_or_one_of_gfMult_self _ (gfPow_255_idempotent a) with h | h
  · rw [h, gfMult_zero_right] at hroot
    exact absurd hroot.symm ha
  · exact h

end Inverse

end Sys2Proof.Machine
end

section
/-! The product loop computes the remainder of the product of polynomials (R100, R102). -/

namespace Sys2Proof.Machine

/-- One step of the division by `x^8 + x^4 + x^3 + x + 1`: clear the term `x^(k+8)` (R100). -/
def reduceTerm (k : Nat) (q : BitVec 16) : BitVec 16 :=
  if q.getLsbD (k + 8) then q ^^^ (0x11B#16 <<< k) else q

theorem polyRemainder_eq (p : BitVec 16) : polyRemainder p =
    (reduceTerm 0 (reduceTerm 1 (reduceTerm 2 (reduceTerm 3 (reduceTerm 4
      (reduceTerm 5 (reduceTerm 6 (reduceTerm 7 p)))))))).setWidth 8 := rfl

theorem reduceTerm_xor (k : Nat) (p q : BitVec 16) : reduceTerm k (p ^^^ q) = reduceTerm k p ^^^ reduceTerm k q := by
  unfold reduceTerm
  rw [BitVec.getLsbD_xor, ite_xor_cond]

theorem reduceTerm_of_bit_clear {k : Nat} {q : BitVec 16} (h : q.getLsbD (k + 8) = false) : reduceTerm k q = q := by
  rw [reduceTerm, h]; rfl

theorem reduceTerm_shiftLeft {k : Nat} (hk : k < 7) (q : BitVec 16) :
    reduceTerm (k + 1) (q <<< 1) = reduceTerm k q <<< 1 := by
  have hbit : (q <<< 1).getLsbD (k + 1 + 8) = q.getLsbD (k + 8) := by
    rw [BitVec.getLsbD_shiftLeft, decide_eq_true (show k + 1 + 8 < 16 by omega),
      decide_eq_false (show ¬k + 1 + 8 < 1 by omega), show k + 1 + 8 - 1 = k + 8 by omega]
    rfl
  unfold reduceTerm
  rw [hbit, apply_ite (fun x : BitVec 16 => x <<< 1), BitVec.shiftLeft_xor_distrib, BitVec.shiftLeft_add]

/-- Clearing `x^8` after a shift is the doubling of the low byte (R101). -/
theorem setWidth_reduceTerm_zero_shiftLeft (q : BitVec 16) :
    (reduceTerm 0 (q <<< 1)).setWidth 8 = gfDouble (q.setWidth 8) := by
  have hbit : (q <<< 1).getLsbD (0 + 8) = (q.setWidth 8).getLsbD 7 := by simp
  have hshift : (q <<< 1).setWidth 8 = q.setWidth 8 <<< 1 := by
    ext i hi
    simp
  unfold reduceTerm gfDouble
  rw [hbit, apply_ite (BitVec.setWidth 8), BitVec.setWidth_xor, hshift]
  rfl

theorem polyRemainder_xor (p q : BitVec 16) : polyRemainder (p ^^^ q) = polyRemainder p ^^^ polyRemainder q := by
  simp only [polyRemainder_eq, reduceTerm_xor, BitVec.setWidth_xor]

/-- Multiplying a polynomial of degree at most 14 by `x` doubles its remainder. -/
theorem polyRemainder_shiftLeft_one {p : BitVec 16} (h : p.getLsbD 15 = false) :
    polyRemainder (p <<< 1) = gfDouble (polyRemainder p) := by
  have htop : reduceTerm 7 p = p := reduceTerm_of_bit_clear h
  rw [polyRemainder_eq, polyRemainder_eq, htop, ← setWidth_reduceTerm_zero_shiftLeft]
  simp [reduceTerm_shiftLeft]

theorem polyRemainder_setWidth (a : Byte) : polyRemainder (a.setWidth 16) = a := by
  have hhigh (k : Nat) : reduceTerm k (a.setWidth 16) = a.setWidth 16 :=
    reduceTerm_of_bit_clear (by simp)
  simp only [polyRemainder_eq, hhigh]
  simp

/-- The loop's invariant: after `i` iterations the multiplicand is the remainder of `a * x^i` and the product so far
the remainder of the sum of the terms met. -/
theorem gfMultLoop_polyRemainder (n i : Nat) (h : i + n ≤ 8) (a b : Byte) (p : BitVec 16) :
    gfMultLoop n i (polyRemainder (a.setWidth 16 <<< i)) b (polyRemainder p) =
      polyRemainder ((List.range' i n).foldl
        (fun p i => if b.getLsbD i then p ^^^ (a.setWidth 16 <<< i) else p) p) := by
  induction n generalizing i p with
  | zero => rfl
  | succ n ih =>
    have hdeg : (a.setWidth 16 <<< i).getLsbD 15 = false := by
      simp [BitVec.getLsbD_of_ge a (15 - i) (by omega)]
    rw [gfMultLoop, ← polyRemainder_shiftLeft_one hdeg, ← BitVec.shiftLeft_add, ← polyRemainder_xor,
      ← apply_ite polyRemainder, ih (i + 1) (by omega), List.range'_succ, List.foldl_cons]

/-- R100: `gf_mult` is the product of polynomials modulo `x^8 + x^4 + x^3 + x + 1`. -/
theorem gfMult_eq_polyRemainder (a b : Byte) : gfMult a b = polyRemainder (polyProduct a b) := by
  have h := gfMultLoop_polyRemainder 8 0 le_rfl a b 0
  rwa [BitVec.shiftLeft_zero, polyRemainder_setWidth] at h

end Sys2Proof.Machine
end

section
/-! The commands `GF_MUL` and `GF_DOUBLE` (R105, R106). -/

namespace Sys2Proof.Machine

/-- Settles O25: the loop's invariant keeps multiplicand and product as remainders of polynomials. -/
theorem gfMulIsPolynomialMultiplication : Obligations.GfMulIsPolynomialMultiplication := by
  unfold Obligations.GfMulIsPolynomialMultiplication
  refine fun s => ⟨_, exec_gfMul s, ?_, complete_err _ _⟩
  rw [complete_res, gfMulEffect_res, gfMult_eq_polyRemainder]

/-- Settles O26: 0x02 is the double of 1, and a product commutes with doubling. -/
theorem gfDoubleIsTheProductWithTwo : Obligations.GfDoubleIsTheProductWithTwo := by
  unfold Obligations.GfDoubleIsTheProductWithTwo
  refine ⟨decode_eq_command_iff.mpr (by decide), fun s => ⟨_, exec_gfDouble s, ?_, ?_, ?_⟩, by decide⟩
  · simp only [complete, gfDoubleEffect]
  · rw [complete_res, gfDoubleEffect_res, gfDouble]
  · rw [complete_res, gfDoubleEffect_res, gfMult_two_right]

/-- Settles O27: each law by Horner's induction on a factor, and the inverse as the power 254. -/
theorem fieldLaws : Obligations.FieldLaws := by
  unfold Obligations.FieldLaws
  exact ⟨gfMult_comm, gfMult_assoc, gfMult_xor_right, fun a => ⟨gfMult_one_left a, gfMult_zero_left a⟩,
    fun a ha => ⟨gfPow a 254, gfMult_gfPow_254 ha, fun _ => gfMult_inverse_unique (gfMult_gfPow_254 ha)⟩⟩

/-- Settles O28: below 0x20 the last three iterations meet zero bits only. -/
theorem fullMultiplierAgreesWithFiveBits : Obligations.FullMultiplierAgreesWithFiveBits := by
  unfold Obligations.FullMultiplierAgreesWithFiveBits
  exact ⟨fun a b hb => gfMult_eq_gfMultLoop_of_lt (by decide) a b hb, by decide⟩

/-- Settles O24: the completion of `GF_MUL`, and its corner cases as laws of the field. -/
theorem gfMulStoresTheProduct : Obligations.GfMulStoresTheProduct := by
  unfold Obligations.GfMulStoresTheProduct
  refine ⟨decode_eq_command_iff.mpr (by decide), fun s => ⟨_, exec_gfMul s, ?_, ?_⟩,
    fun a => ⟨gfMult_zero_left a, gfMult_zero_right a, gfMult_one_right a⟩, by decide⟩
  · simp only [complete, gfMulEffect]
  · rw [regValue, complete_res, gfMulEffect_res]

end Sys2Proof.Machine
end

section
/-! The substitution tables (R110 to R115): the inverse table undoes the forward one, and the forward one is the affine
map of the field inverse. -/

namespace Sys2Proof.Machine

section Inverse

theorem leftInverse_invSboxAt_sboxAt : Function.LeftInverse invSboxAt sboxAt := by
  unfold Function.LeftInverse
  decide

/-- R112: on the finitely many bytes a map with a left inverse is onto, so the inverse is two-sided. -/
theorem rightInverse_invSboxAt_sboxAt : Function.RightInverse invSboxAt sboxAt :=
  have : Finite Byte := .of_equiv _ BitVec.equivFin.symm.toEquiv
  have hinv := leftInverse_invSboxAt_sboxAt
  hinv.rightInverse_of_surjective (Finite.injective_iff_surjective.mp hinv.injective)

/-- R112: no byte is a fixed point of `SBOX`. -/
theorem sboxAt_ne_self : ∀ x : Byte, sboxAt x ≠ x := by decide

/-- R112: `SBOX` maps no byte to its complement. -/
theorem sboxAt_ne_complement : ∀ x : Byte, sboxAt x ≠ x ^^^ 0xFF := by decide

end Inverse

section Affine

/-- The inverse of R113's affine map. -/
def sboxAffineInv (b : Byte) : Byte := b.rotateLeft 1 ^^^ b.rotateLeft 3 ^^^ b.rotateLeft 6 ^^^ 0x05

theorem sboxAffine_sboxAffineInv : ∀ b : Byte, sboxAffine (sboxAffineInv b) = b := by decide

/-- The affine map taken back from the table entry of a nonzero byte leaves a field inverse of the byte. -/
theorem gfMult_sboxAffineInv_sboxAt : ∀ x : Byte, x ≠ 0 → gfMult x (sboxAffineInv (sboxAt x)) = 1 := by decide

/-- R113 for a byte with an inverse: the inverse is unique, so it is the one the table entry holds. -/
theorem sboxAt_eq_sboxAffine {x y : Byte} (hxy : gfMult x y = 1) : sboxAt x = sboxAffine y := by
  have hx : x ≠ 0 := by
    rintro rfl
    rw [gfMult_zero_left] at hxy
    exact absurd hxy (by decide)
  have hy : sboxAffineInv (sboxAt x) = y := gfMult_inverse_unique hxy (gfMult_sboxAffineInv_sboxAt x hx)
  rw [← hy, sboxAffine_sboxAffineInv]

end Affine

/-- A command that completes after storing the byte `v` in RES leaves `v` there and changes, besides RES, STATUS and the
state machine's phase only (R32, R204). -/
theorem exec_stores_res {i : Instr} {s : State} {v : Byte}
    (h : exec i s = .next (complete .ok { s with res := v })) :
    ∃ t, exec i s = .next t ∧ t = { s with res := v, err := .ok, done := true, fsm := .idle } ∧
      regValue .res t = v.setWidth 32 :=
  ⟨_, h, by simp only [complete], by rw [regValue, complete_res]⟩

/-- Settles O31: the table entry, taken back through the affine map, is the unique field inverse. -/
theorem sboxIsTheAffineMapOfTheInverse : Obligations.SboxIsTheAffineMapOfTheInverse := by
  unfold Obligations.SboxIsTheAffineMapOfTheInverse
  exact ⟨by decide, fun _ _ => sboxAt_eq_sboxAffine⟩

/-- Settles O29: both commands store a byte in RES and complete. -/
theorem sboxCommandsStoreTheTableEntry : Obligations.SboxCommandsStoreTheTableEntry := by
  unfold Obligations.SboxCommandsStoreTheTableEntry
  exact ⟨decode_eq_command_iff.mpr (by decide), decode_eq_command_iff.mpr (by decide),
    fun s => ⟨exec_stores_res (exec_sbox s), exec_stores_res (exec_invSbox s)⟩,
    rfl, rfl, rfl, rfl, rfl, rfl, leftInverse_invSboxAt_sboxAt⟩

/-- Settles O30: a left inverse on a finite type is two-sided; the other two clauses are read off the forward table. -/
theorem substitutionTablesAreInverse : Obligations.SubstitutionTablesAreInverse := by
  unfold Obligations.SubstitutionTablesAreInverse
  exact fun x => ⟨leftInverse_invSboxAt_sboxAt x, rightInverse_invSboxAt_sboxAt x, sboxAt_ne_self x,
    sboxAt_ne_complement x⟩

end Sys2Proof.Machine
end

section
/-! The round constants (R120): the doublings of 0x8D return to it after 51 steps. -/

namespace Sys2Proof.Machine

theorem rcon_succ (j : Nat) : rcon (j + 1) = gfDouble (rcon j) := rfl

theorem rcon_51 : rcon 51 = rcon 0 := by decide +kernel

/-- Each constant is a function of the one before, so the sequence repeats once 0x8D comes back (R120). -/
theorem rcon_periodic : Function.Periodic rcon 51 := by
  intro j
  induction j with
  | zero => exact rcon_51
  | succ j ih => rw [Nat.add_right_comm, rcon_succ, ih, rcon_succ]

/-- Settles O32: the period starts at 0x8D already, and 51 and 255 are multiples of it. -/
theorem roundConstants : Obligations.RoundConstants := by
  unfold Obligations.RoundConstants
  exact ⟨rfl, rcon_succ, by decide, fun j _ => rcon_periodic j, rcon_periodic 1, rcon_51, rcon_periodic.nat_mul_eq 5⟩

end Sys2Proof.Machine
end

section
/-! The key expansion word by word (R123): one iteration writes one word, so every word of the finished schedule is the
one its own iteration computed from words that were final by then. -/

namespace Sys2Proof.Machine

section Words

variable (nk : Nat) {i j : Nat} (w : Schedule)

theorem keyWord_eq_getElem (h : i < 60) : keyWord w i = w[i] := by
  simp [keyWord, Vector.getD, h]

theorem keyWord_expandStep_self (h : i < 60) :
    keyWord (expandStep nk i w) i = keyWordXor (keyWord w (i - nk)) (expandTemp nk i (keyWord w (i - 1))) := by
  rw [keyWord_eq_getElem _ h, expandStep, Vector.getElem_setIfInBounds_self]

theorem keyWord_expandStep_of_ne (h : j ≠ i) : keyWord (expandStep nk i w) j = keyWord w j := by
  by_cases hj : j < 60
  · rw [keyWord_eq_getElem _ hj, keyWord_eq_getElem _ hj, expandStep, Vector.getElem_setIfInBounds_ne _ h.symm]
  · simp [keyWord, Vector.getD, hj]

/-- The iterations from word `i` on write no word below it. -/
theorem keyWord_expandFrom_of_lt (n : Nat) (h : j < i) : keyWord (expandFrom nk n i w) j = keyWord w j := by
  induction n generalizing i w with
  | zero => rfl
  | succ n ih => rw [expandFrom, ih _ (by omega), keyWord_expandStep_of_ne nk w (by omega)]

/-- Every word the iterations write satisfies the recurrence in the schedule they leave (R123). -/
theorem keyWord_expandFrom {n : Nat} (hnk : 0 < nk) (hi : nk ≤ i) (hij : i ≤ j) (hj : j < i + n) (hn : i + n ≤ 60) :
    keyWord (expandFrom nk n i w) j = keyWordXor (keyWord (expandFrom nk n i w) (j - nk))
      (expandTemp nk j (keyWord (expandFrom nk n i w) (j - 1))) := by
  induction n generalizing i w with
  | zero => omega
  | succ n ih =>
    rw [expandFrom]
    rcases hij.eq_or_lt with rfl | hlt
    · have hkept (k : Nat) (hk : k < i) : keyWord (expandFrom nk n (i + 1) (expandStep nk i w)) k = keyWord w k := by
        rw [keyWord_expandFrom_of_lt nk _ n (by omega), keyWord_expandStep_of_ne nk w (by omega)]
      rw [keyWord_expandFrom_of_lt nk _ n (by omega), keyWord_expandStep_self nk w (by omega), hkept _ (by omega),
        hkept _ (by omega)]
    · exact ih (expandStep nk i w) (by omega) hlt (by omega) (by omega)

end Words

section Key

variable (m : Memory) (a : Nat) (w : Schedule) {n : Nat}

theorem keyWordAt_getElem (j : Nat) (k : Fin 4) : (keyWordAt m a j)[k] = m.load (a + (4 * j + k.val)) := by
  simp [keyWordAt]

theorem keyWord_loadKeyWords {nk j : Nat} (hj : j < nk) (hnk : nk ≤ 60) :
    keyWord (loadKeyWords m a nk w) j = keyWordAt m a j := by
  rw [keyWord_eq_getElem _ (by omega), loadKeyWords, Vector.getElem_ofFn, if_pos hj]

/-- The first `Nk` words of the expanded schedule are the key's (R46, R123). -/
theorem keyWord_expandKey_key {j : Nat} (hj : j < nkOf n) : keyWord (expandKey m a n w) j = keyWordAt m a j := by
  rw [expandKey, keyWord_expandFrom_of_lt _ _ _ hj, keyWord_loadKeyWords m a w hj ((nkOf_le n).trans (by decide))]

/-- The other words of the expanded schedule, below `4*(Nr+1)`, satisfy the recurrence (R123). -/
theorem keyWord_expandKey {i : Nat} (hnk : 0 < nkOf n) (hi : nkOf n ≤ i) (hlt : i < 4 * (nrOf n + 1)) :
    keyWord (expandKey m a n w) i = keyWordXor (keyWord (expandKey m a n w) (i - nkOf n))
      (expandTemp (nkOf n) i (keyWord (expandKey m a n w) (i - 1))) := by
  have := nrOf_le n
  exact keyWord_expandFrom _ _ hnk le_rfl hi (by omega) (by omega)

/-- NK of a key of legal length (R8). -/
theorem four_mul_nkOf (h : n ∈ [16, 24, 32]) : 4 * nkOf n = n := by
  revert n; decide

/-- NR of a key of legal length (R8). -/
theorem nrOf_eq_nkOf_add (h : n ∈ [16, 24, 32]) : nrOf n = nkOf n + 6 := by
  revert n; decide

end Key

end Sys2Proof.Machine
end

section
/-! The outcomes of `KEY_EXPAND` and the schedule it leaves (R123, R126). -/

namespace Sys2Proof.Machine

variable {s : State}

/-- The test of R231 is that the length is one of the three. -/
theorem keyLengthTest_eq (n : Nat) : (n == 16 || n == 24 || n == 32) = decide (n ∈ [16, 24, 32]) := by
  simp [Bool.beq_eq_decide_eq, Bool.or_assoc]

theorem checkKeyExpand_of_keyLength (h : s.keyBytes ∉ [16, 24, 32]) : checkKeyExpand s = .invalidKeyLength := by
  rw [checkKeyExpand, keyLengthTest_eq, decide_eq_false h]
  rfl

theorem checkKeyExpand_of_keyRange (hl : s.keyBytes ∈ [16, 24, 32]) (hr : s.mem.size < s.keyBase + s.keyBytes) :
    checkKeyExpand s = .badAddress := by
  have hpos : s.keyBytes ≠ 0 := fun h => absurd (h ▸ hl) (by decide)
  have hfit : s.mem.inBounds s.keyBase s.keyBytes = false := decide_eq_false (by omega)
  rw [checkKeyExpand, keyLengthTest_eq, decide_eq_true hl, hfit]
  rfl

theorem checkKeyExpand_passes (hl : s.keyBytes ∈ [16, 24, 32]) (hr : s.keyBase + s.keyBytes ≤ s.mem.size) :
    checkKeyExpand s = .ok :=
  (checkKeyExpand_ok_iff s).mpr ⟨by simpa using hl, .inr hr⟩

/-- A `KEY_EXPAND` whose checks fail unloads the key, keeps W and changes STATUS (R126, R238 item 4). -/
theorem exec_keyExpand_fails {e : ErrCode} (hc : checkKeyExpand s = e) (he : e ≠ .ok) :
    exec .keyExpand s = .next { s with
      keyValid := false, nk := 0, nr := 0, err := e, done := true, fsm := .idle } := by
  subst hc
  simp only [exec_keyExpand_error he, raiseKeyError, raiseError, complete]

/-- NK and NR hold the parameters of every key length (R17). -/
theorem keyExpandEffect_toNat (s : State) :
    (keyExpandEffect s).nk.toNat = nkOf s.keyBytes ∧ (keyExpandEffect s).nr.toNat = nrOf s.keyBytes := by
  have := nkOf_le s.keyBytes
  have := nrOf_le s.keyBytes
  rw [keyExpandEffect_nk, keyExpandEffect_nr, BitVec.toNat_ofNat, BitVec.toNat_ofNat]
  omega

/-- Settles O33: the checks in their order, and the key's parameters by its length. -/
theorem keyExpandOutcomes : Obligations.KeyExpandOutcomes := by
  unfold Obligations.KeyExpandOutcomes
  refine ⟨decode_eq_command_iff.mpr (by decide), fun s => ⟨fun hl => ?_, fun hl hr => ?_, fun hl hr => ?_⟩⟩
  · exact exec_keyExpand_fails (checkKeyExpand_of_keyLength hl) (by decide)
  · exact exec_keyExpand_fails (checkKeyExpand_of_keyRange hl hr) (by decide)
  · obtain ⟨hnk, hnr⟩ := keyExpandEffect_toNat s
    refine ⟨_, exec_keyExpand_ok (checkKeyExpand_passes hl hr), ?_, ?_, ?_⟩
    · simp only [complete, keyExpandEffect, setKeyParams, State.keyBase, State.keyBytes]
    · rw [complete_nk, hnk]; exact four_mul_nkOf hl
    · rw [complete_nr, complete_nk, hnr, hnk]; exact nrOf_eq_nkOf_add hl

/-- Settles O34: the key's words, and the recurrence of the expansion at the key's own Nk and Nr. -/
theorem keyExpandScheduleRecurrence : Obligations.KeyExpandScheduleRecurrence := by
  unfold Obligations.KeyExpandScheduleRecurrence
  intro s nk nr hkey hl hr
  have hparams : 4 * nk ∈ [16, 24, 32] ∧ 0 < nk ∧ nkOf (4 * nk) = nk ∧ nrOf (4 * nk) = nr := by
    simp only [List.mem_cons, Prod.mk.injEq, List.not_mem_nil, or_false] at hkey
    rcases hkey with ⟨rfl, rfl⟩ | ⟨rfl, rfl⟩ | ⟨rfl, rfl⟩ <;> decide
  obtain ⟨hlegal, hpos, hnk, hnr⟩ := hparams
  have hlen : s.keyBytes = 4 * nk := hl
  have hw : (keyExpandEffect s).w = expandKey s.mem s.keyBase (4 * nk) s.w := by rw [keyExpandEffect_w, hlen]
  obtain ⟨htnk, htnr⟩ := keyExpandEffect_toNat s
  refine ⟨_, exec_keyExpand_ok (checkKeyExpand_passes (hlen ▸ hlegal) (hlen ▸ hr)), ?_, ?_, ?_, ?_⟩
  · rw [complete_nk, htnk, hlen, hnk]
  · rw [complete_nr, htnr, hlen, hnr]
  · intro j k hj
    rw [complete_w, hw, keyWord_expandKey_key _ _ _ (by rwa [hnk]), keyWordAt_getElem]
    rfl
  · intro i hi hlt
    have hrec := keyWord_expandKey s.mem s.keyBase s.w (n := 4 * nk) (i := i)
    rw [hnk, hnr] at hrec
    rw [complete_w, hw, hrec hpos hi hlt]
    rfl

end Sys2Proof.Machine
end

section
/-! Who owns the key schedule (R127): W, NK, NR and KEY_VALID through every command and every move but those of
`KEY_EXPAND`, reset and power. -/

namespace Sys2Proof.Machine

/-- `t` has the key schedule of `s`: W, NK, NR and KEY_VALID. -/
def KeepsSchedule (s t : State) : Prop :=
  t.w = s.w ∧ t.nk = s.nk ∧ t.nr = s.nr ∧ t.keyValid = s.keyValid

section

variable {s t u : State}

theorem KeepsSchedule.refl (s : State) : KeepsSchedule s s := ⟨rfl, rfl, rfl, rfl⟩

theorem KeepsSchedule.trans (h : KeepsSchedule s t) (h' : KeepsSchedule t u) : KeepsSchedule s u := by
  obtain ⟨hw, hnk, hnr, hv⟩ := h
  obtain ⟨hw', hnk', hnr', hv'⟩ := h'
  exact ⟨hw'.trans hw, hnk'.trans hnk, hnr'.trans hnr, hv'.trans hv⟩

end

section Commands

variable {s t : State} {i : Instr}

/-- Only `KEY_EXPAND` writes W (R127). -/
theorem exec_keeps_w (hi : i ≠ .keyExpand) (h : exec i s = .next t) : t.w = s.w := by
  cases completes_of_exec h with
  | success hc hp => cases i <;> simp [commandEffect] at hi ⊢
  | checkFailed hc => unfold commandError; rw [if_neg hi]; split <;> simp
  | badPadding hc b hb hp => simp

theorem exec_keepsSchedule (hi : i ≠ .keyExpand) (h : exec i s = .next t) : KeepsSchedule s t := by
  obtain ⟨hv, hnk, hnr⟩ := exec_keeps_key hi h
  exact ⟨exec_keeps_w hi h, hnk, hnr, hv⟩

theorem runCommand_keepsSchedule (hl : s.latched ≠ .command .keyExpand) (h : runCommand s = .next t) :
    KeepsSchedule s t := by
  cases hd : decode s.lat.cmd with
  | illegal y =>
    rw [runCommand_illegal hd] at h
    cases h
    exact .refl s
  | command i =>
    rw [runCommand_command hd] at h
    exact exec_keepsSchedule (fun hi => hl (by rw [State.latched, hd, hi])) h

end Commands

section StateMachine

variable {s : State}

theorem startCommand_w (i : Instr) (s : State) : (startCommand i s).w = s.w := by cases i <;> rfl

theorem tickCheck_w (s : State) : (tickCheck s).w = s.w := by
  unfold tickCheck
  split
  · rfl
  · split
    · exact startCommand_w _ s
    · rfl

theorem xformEffect_w (i : Instr) (s : State) : (xformEffect i s).w = s.w := by cases i <;> simp [xformEffect]

theorem tickXform_w (s : State) : (tickXform s).w = s.w := by
  unfold tickXform
  split
  · rfl
  · exact xformEffect_w _ s

theorem tickBlockIn_w (s : State) : (tickBlockIn s).w = s.w := by
  have hdec (cbc : Bool) : (tickBlockInDecrypt cbc s).w = s.w := by unfold tickBlockInDecrypt; split <;> rfl
  unfold tickBlockIn
  split
  · rfl
  · rfl
  · exact hdec _
  · exact hdec _
  · rfl

theorem leaveDecRound_w (s : State) : (leaveDecRound s).w = s.w := by
  unfold leaveDecRound
  split
  · split <;> rfl
  · split <;> rfl
  · rfl

theorem tickDecRound_w (s : State) : (tickDecRound s).w = s.w := by
  unfold tickDecRound
  split
  · exact leaveDecRound_w _
  · rfl

theorem tickPadCheck_w (s : State) : (tickPadCheck s).w = s.w := by unfold tickPadCheck; split <;> rfl

theorem tickBlockOut_w (s : State) : (tickBlockOut s).w = s.w := by
  have hdec (cbc : Bool) : (tickBlockOutDec cbc s).w = s.w := by unfold tickBlockOutDec; split <;> rfl
  unfold tickBlockOut
  split
  · rfl
  · rfl
  · exact hdec _
  · exact hdec _
  · rfl

theorem tickFinish_w (s : State) : (tickFinish s).w = s.w := by
  unfold tickFinish
  split
  · split <;> rfl
  · split <;> rfl
  · split <;> rfl
  · split <;> rfl
  · split <;> rfl
  · rfl

/-- Only KLOAD and KEXP write W, and only for `KEY_EXPAND` (R207). -/
theorem tick_w (hl : s.latched ≠ .command .keyExpand) : (tick s).w = s.w := by
  unfold tick
  split
  · rfl
  · exact tickCheck_w s
  · exact tickXform_w s
  · rw [tickKload, if_neg hl]
  · rw [tickKexp, if_neg hl]
  · exact tickBlockIn_w s
  · rfl
  · exact tickDecRound_w s
  · exact tickPadCheck_w s
  · exact tickBlockOut_w s
  · exact tickFinish_w s

/-- The latched operands stand until the next acceptance (R201, R212). -/
theorem tick_lat (s : State) : (tick s).lat = s.lat := by
  by_cases hn : s.fsm = .finish
  · simpa only [tick, hn] using (tickFinish_frame s).lat
  · exact (tick_frame hn).lat

theorem tick_keepsSchedule (hl : s.latched ≠ .command .keyExpand) : KeepsSchedule s (tick s) := by
  by_cases hn : s.fsm = .finish
  · obtain ⟨hv, hnk, hnr⟩ := tickFinish_keeps_key hl
    exact ⟨tick_w hl, by simpa only [tick, hn] using ⟨hnk, hnr, hv⟩⟩
  · have hf := tick_frame hn
    exact ⟨tick_w hl, hf.nk, hf.nr, hf.keyValid⟩

theorem ticks_keepsSchedule (n : Nat) (hl : s.latched ≠ .command .keyExpand) : KeepsSchedule s (ticks n s) := by
  induction n generalizing s with
  | zero => exact .refl s
  | succ n ih => exact (tick_keepsSchedule hl).trans (ih (by rwa [State.latched, tick_lat]))

end StateMachine

section Moves

variable {s t : State}

theorem settle_keepsSchedule (s : State) : KeepsSchedule s (settle s) := by
  rw [settle_frame]
  exact .refl s

/-- The engine's move, while idle or with another command latched (R127). -/
theorem engineMove_keepsSchedule (hk : s.fsm = .idle ∨ s.latched ≠ .command .keyExpand)
    (h : engineMove s = .next t) : KeepsSchedule s t := by
  rcases hk with hi | hl
  · rw [engineMove_idle hi] at h
    cases h
    exact .refl s
  rcases engineMove_cases h with ⟨-, rfl⟩ | ⟨-, u, hu, rfl⟩ | rfl
  · exact .refl t
  · exact (runCommand_keepsSchedule hl hu).trans (settle_keepsSchedule u)
  · exact (ticks_keepsSchedule _ hl).trans (settle_keepsSchedule _)

/-- One step of the state machine, while idle or with another command latched (R127). -/
theorem tickMove_keepsSchedule (hk : s.fsm = .idle ∨ s.latched ≠ .command .keyExpand) :
    KeepsSchedule s (settle (tick s)) := by
  rcases hk with hi | hl
  · rw [tick_idle s hi]
    exact settle_keepsSchedule s
  · exact (tick_keepsSchedule hl).trans (settle_keepsSchedule _)

theorem writeReg_keepsSchedule (r : RegName) (v : Word) (s : State) : KeepsSchedule s (writeReg r v s) := by
  cases r with
  | cmd => simp only [writeReg, writeCmd]; split <;> exact .refl s
  | _ => exact .refl s

/-- No host access changes the key schedule, whatever runs (R127). -/
theorem hostAccess_keepsSchedule {m : Move} (hm : isHostAccess m = true) (h : performMove m s = .next t) :
    KeepsSchedule s t := by
  cases m with
  | regWrite width off v => rw [performMove_regWrite h]; exact writeReg_keepsSchedule _ v s
  | regRead width off => rw [performMove_regRead h, readReg_frame]; exact .refl s
  | memWrite a b => cases h; rw [hostMemWrite_frame]; exact .refl s
  | memRead a => cases h; unfold hostMemRead; split <;> exact .refl s
  | wait n => cases h; rw [waitRead_frame]; exact .refl s
  | hardReset => cases hm
  | powerCycle => cases hm
  | engine => cases hm
  | tick => cases hm

/-- A move that is no reset, no power-on and no part of `KEY_EXPAND` (R127). -/
theorem performMove_keepsSchedule {m : Move}
    (hk : s.fsm = .idle ∨ s.latched ≠ .command .keyExpand ∨ isHostAccess m = true) (hr : m ≠ .hardReset)
    (hp : m ≠ .powerCycle) (h : performMove m s = .next t) : KeepsSchedule s t := by
  by_cases hm : isHostAccess m = true
  · exact hostAccess_keepsSchedule hm h
  replace hk := hk.imp_right fun h => h.resolve_right hm
  cases m with
  | engine => exact engineMove_keepsSchedule hk h
  | tick => cases h; exact tickMove_keepsSchedule hk
  | hardReset => exact absurd rfl hr
  | powerCycle => exact absurd rfl hp
  | _ => exact absurd rfl hm

end Moves

/-- Settles O35, command by command and move by move. -/
theorem onlyKeyExpandWritesTheSchedule : Obligations.OnlyKeyExpandWritesTheSchedule := by
  unfold Obligations.OnlyKeyExpandWritesTheSchedule
  refine ⟨fun i s t hi h => exec_keepsSchedule hi h, fun s t h hk hr hp => ?_⟩
  cases ha : s.agenda with
  | nil =>
    rw [ha] at hk
    exact engineMove_keepsSchedule (hk.imp_right fun h => h.resolve_right nofun) (step_nil ha ▸ h)
  | cons m rest =>
    rw [ha] at hk hr hp
    exact performMove_keepsSchedule (s := { s with agenda := rest }) hk (fun hm => hr (congrArg some hm))
      (fun hm => hp (congrArg some hm)) (step_cons ha ▸ h)

end Sys2Proof.Machine
end

section
/-! The State by columns and rows (R15): what each round transformation leaves in every cell (R140 to R146). -/

namespace Sys2Proof.Machine

section Cells

variable {b b' : Block} {c r : Nat}

theorem cell_eq_getElem (hc : c < 4) (hr : r < 4) : cell b c r = b[4 * c + r] := by
  have hi : 4 * c + r < 16 := by omega
  simp [cell, Vector.getD, hi]

/-- A State is determined by its cells. -/
theorem eq_of_cell_eq (h : ∀ c r, c < 4 → r < 4 → cell b c r = cell b' c r) : b = b' := by
  refine Vector.ext fun i hi => ?_
  have hcell := h (i / 4) (i % 4) (by omega) (by omega)
  rw [cell_eq_getElem (by omega) (by omega), cell_eq_getElem (by omega) (by omega)] at hcell
  simpa only [Nat.div_add_mod] using hcell

/-- Cell `(c, r)` of a State given byte by byte is the byte of index `4*c + r`. -/
theorem cell_ofFn (f : Fin 16 → Byte) (hc : c < 4) (hr : r < 4) :
    cell (Vector.ofFn f) c r = f ⟨4 * c + r, by omega⟩ := by
  rw [cell_eq_getElem hc hr, Vector.getElem_ofFn]

/-- The column of index `4*c + r`. -/
theorem four_mul_add_div (c : Nat) (hr : r < 4) : (4 * c + r) / 4 = c := by omega

/-- The row of index `4*c + r`. -/
theorem four_mul_add_mod (c : Nat) (hr : r < 4) : (4 * c + r) % 4 = r := by omega

end Cells

section Transforms

variable (b : Block) {c r : Nat}

@[simp] theorem subBytes_getElem (i : Nat) (h : i < 16) : (subBytes b)[i] = sboxAt b[i] := by
  rw [subBytes, Vector.getElem_ofFn]; rfl

@[simp] theorem invSubBytes_getElem (i : Nat) (h : i < 16) : (invSubBytes b)[i] = invSboxAt b[i] := by
  rw [invSubBytes, Vector.getElem_ofFn]; rfl

theorem cell_subBytes (hc : c < 4) (hr : r < 4) : cell (subBytes b) c r = sboxAt (cell b c r) := by
  rw [cell_eq_getElem hc hr, cell_eq_getElem hc hr, subBytes_getElem]

theorem cell_invSubBytes (hc : c < 4) (hr : r < 4) : cell (invSubBytes b) c r = invSboxAt (cell b c r) := by
  rw [cell_eq_getElem hc hr, cell_eq_getElem hc hr, invSubBytes_getElem]

theorem cell_shiftRows (hc : c < 4) (hr : r < 4) : cell (shiftRows b) c r = cell b ((c + r) % 4) r := by
  rw [shiftRows, cell_ofFn _ hc hr, four_mul_add_div c hr, four_mul_add_mod c hr]

theorem cell_invShiftRows (hc : c < 4) (hr : r < 4) : cell (invShiftRows b) c r = cell b ((c + 4 - r) % 4) r := by
  rw [invShiftRows, cell_ofFn _ hc hr, four_mul_add_div c hr, four_mul_add_mod c hr]

/-- Row `r` moves `r` columns on (R144). -/
theorem cell_invShiftRows_add_mod (hc : c < 4) (hr : r < 4) : cell (invShiftRows b) ((c + r) % 4) r = cell b c r := by
  have hcolumn : ((c + r) % 4 + 4 - r) % 4 = c := by omega
  rw [cell_invShiftRows b (Nat.mod_lt _ (by decide)) hr, hcolumn]

theorem cell_mixWith (m : List (List Byte)) (hc : c < 4) (hr : r < 4) : cell (mixWith m b) c r =
    gfMult (matrixEntry m r 0) (cell b c 0) ^^^ gfMult (matrixEntry m r 1) (cell b c 1) ^^^
      gfMult (matrixEntry m r 2) (cell b c 2) ^^^ gfMult (matrixEntry m r 3) (cell b c 3) := by
  rw [mixWith, cell_ofFn _ hc hr, four_mul_add_div c hr, four_mul_add_mod c hr]

theorem cell_addRoundKey (w : Schedule) (round : Nat) (hc : c < 4) (hr : r < 4) :
    cell (addRoundKey w round b) c r = cell b c r ^^^ (keyWord w (4 * round + c))[r] := by
  rw [addRoundKey, cell_ofFn _ hc hr, four_mul_add_div c hr, four_mul_add_mod c hr, cell_eq_getElem hc hr]
  simp [Vector.getD, hr]

end Transforms

end Sys2Proof.Machine
end

section
/-! The round transformations are inverse pairs (R147). -/

namespace Sys2Proof.Machine

section Bytes

variable (b : Block)

@[simp] theorem invSubBytes_subBytes : invSubBytes (subBytes b) = b :=
  Vector.ext fun i hi => by rw [invSubBytes_getElem, subBytes_getElem, leftInverse_invSboxAt_sboxAt]

@[simp] theorem subBytes_invSubBytes : subBytes (invSubBytes b) = b :=
  Vector.ext fun i hi => by rw [subBytes_getElem, invSubBytes_getElem, rightInverse_invSboxAt_sboxAt]

/-- Row `r` is moved `r` columns forth and back. -/
@[simp] theorem invShiftRows_shiftRows : invShiftRows (shiftRows b) = b :=
  eq_of_cell_eq fun c r hc hr => by
    have hcolumn : ((c + 4 - r) % 4 + r) % 4 = c := by omega
    rw [cell_invShiftRows _ hc hr, cell_shiftRows _ (Nat.mod_lt _ (by decide)) hr, hcolumn]

@[simp] theorem shiftRows_invShiftRows : shiftRows (invShiftRows b) = b :=
  eq_of_cell_eq fun c r hc hr => by
    rw [cell_shiftRows _ hc hr, cell_invShiftRows_add_mod _ hc hr]

/-- A byte substitution does not see where its byte stands. -/
theorem subBytes_shiftRows : subBytes (shiftRows b) = shiftRows (subBytes b) :=
  eq_of_cell_eq fun c r hc hr => by
    rw [cell_subBytes _ hc hr, cell_shiftRows _ hc hr, cell_shiftRows _ hc hr,
      cell_subBytes _ (Nat.mod_lt _ (by decide)) hr]

theorem invSubBytes_invShiftRows : invSubBytes (invShiftRows b) = invShiftRows (invSubBytes b) :=
  eq_of_cell_eq fun c r hc hr => by
    rw [cell_invSubBytes _ hc hr, cell_invShiftRows _ hc hr, cell_invShiftRows _ hc hr,
      cell_invSubBytes _ (Nat.mod_lt _ (by decide)) hr]

@[simp] theorem addRoundKey_addRoundKey (w : Schedule) (round : Nat) :
    addRoundKey w round (addRoundKey w round b) = b :=
  eq_of_cell_eq fun c r hc hr => by
    rw [cell_addRoundKey _ w round hc hr, cell_addRoundKey _ w round hc hr, BitVec.xor_assoc, BitVec.xor_self,
      BitVec.xor_zero]

end Bytes

section Columns

/-- Entry `[r][j]` of the product of two matrices over GF(2^8). -/
def matrixProductEntry (m n : List (List Byte)) (r j : Nat) : Byte :=
  gfMult (matrixEntry m r 0) (matrixEntry n 0 j) ^^^ gfMult (matrixEntry m r 1) (matrixEntry n 1 j) ^^^
    gfMult (matrixEntry m r 2) (matrixEntry n 2 j) ^^^ gfMult (matrixEntry m r 3) (matrixEntry n 3 j)

/-- Two matrices applied one after the other are their product. -/
theorem cell_mixWith_mixWith (m n : List (List Byte)) (b : Block) {c r : Nat} (hc : c < 4) (hr : r < 4) :
    cell (mixWith m (mixWith n b)) c r =
      gfMult (matrixProductEntry m n r 0) (cell b c 0) ^^^ gfMult (matrixProductEntry m n r 1) (cell b c 1) ^^^
        gfMult (matrixProductEntry m n r 2) (cell b c 2) ^^^ gfMult (matrixProductEntry m n r 3) (cell b c 3) := by
  have hcolumn (k : Nat) (hk : k < 4) := cell_mixWith b n hc hk
  rw [cell_mixWith _ m hc hr, hcolumn 0 (by decide), hcolumn 1 (by decide), hcolumn 2 (by decide),
    hcolumn 3 (by decide)]
  simp only [matrixProductEntry, gfMult_xor_left, gfMult_xor_right, gfMult_assoc]
  ac_rfl

/-- An entry of the identity matrix keeps or drops its term. -/
theorem gfMult_ite_one_zero (p : Prop) [Decidable p] (x : Byte) :
    gfMult (if p then 1 else 0) x = if p then x else 0 := by
  split
  · exact gfMult_one_left x
  · exact gfMult_zero_left x

/-- A matrix whose product with another is the identity undoes it on every column. -/
theorem mixWith_mixWith_of_inverse {m n : List (List Byte)}
    (h : ∀ r < 4, ∀ j < 4, matrixProductEntry m n r j = if r = j then 1 else 0) (b : Block) :
    mixWith m (mixWith n b) = b :=
  eq_of_cell_eq fun c r hc hr => by
    rw [cell_mixWith_mixWith m n b hc hr, h r hr 0 (by decide), h r hr 1 (by decide), h r hr 2 (by decide),
      h r hr 3 (by decide)]
    simp only [gfMult_ite_one_zero]
    match r, hr with
    | 0, _ | 1, _ | 2, _ | 3, _ => simp

theorem invMixMatrix_mixMatrix :
    ∀ r < 4, ∀ j < 4, matrixProductEntry invMixMatrix mixMatrix r j = if r = j then 1 else 0 := by decide

theorem mixMatrix_invMixMatrix :
    ∀ r < 4, ∀ j < 4, matrixProductEntry mixMatrix invMixMatrix r j = if r = j then 1 else 0 := by decide

@[simp] theorem invMixColumns_mixColumns (b : Block) : invMixColumns (mixColumns b) = b :=
  mixWith_mixWith_of_inverse invMixMatrix_mixMatrix b

@[simp] theorem mixColumns_invMixColumns (b : Block) : mixColumns (invMixColumns b) = b :=
  mixWith_mixWith_of_inverse mixMatrix_invMixMatrix b

end Columns

/-- Settles O39: the tables' inverses byte by byte, the shifts' cell by cell, and the matrices' by their products. -/
theorem transformsAreInversePairs : Obligations.TransformsAreInversePairs := by
  unfold Obligations.TransformsAreInversePairs
  exact fun b w r => ⟨invSubBytes_subBytes b, subBytes_invSubBytes b, invShiftRows_shiftRows b,
    shiftRows_invShiftRows b, invMixColumns_mixColumns b, mixColumns_invMixColumns b, addRoundKey_addRoundKey b w r,
    subBytes_shiftRows b, invSubBytes_invShiftRows b⟩

end Sys2Proof.Machine
end

section
/-! `Cipher` and `InvCipher`: the order of their rounds, and that each undoes the other (R148 to R150). -/

namespace Sys2Proof.Machine

variable (w : Schedule)

section Order

theorem encRounds_eq_foldl (n r : Nat) (b : Block) :
    encRounds w n r b = (List.range n).foldl (fun b k => encRound w (k + r) b) b := by
  induction n generalizing r b with
  | zero => rfl
  | succ n ih =>
    rw [encRounds, ih, List.range_succ_eq_map, List.foldl_cons, List.foldl_map, Nat.zero_add]
    simp only [Nat.succ_add, Nat.add_succ]

theorem decRounds_eq_foldl (n : Nat) (b : Block) :
    decRounds w n b = (List.range n).foldl (fun b k => decRound w (n - k) b) b := by
  induction n generalizing b with
  | zero => rfl
  | succ n ih =>
    rw [decRounds, ih, List.range_succ_eq_map, List.foldl_cons, List.foldl_map, Nat.sub_zero]
    simp only [Nat.succ_sub_succ_eq_sub]

end Order

section Inverse

variable (b : Block)

@[simp] theorem decRound_encRound (r : Nat) : decRound w r (encRound w r b) = b := by
  simp only [decRound, encRound, addRoundKey_addRoundKey, invMixColumns_mixColumns, invShiftRows_shiftRows,
    invSubBytes_subBytes]

@[simp] theorem encRound_decRound (r : Nat) : encRound w r (decRound w r b) = b := by
  simp only [decRound, encRound, subBytes_invSubBytes, shiftRows_invShiftRows, mixColumns_invMixColumns,
    addRoundKey_addRoundKey]

@[simp] theorem decFirstRound_encFinalRound (nr : Nat) : decFirstRound w nr (encFinalRound w nr b) = b := by
  simp only [decFirstRound, encFinalRound, addRoundKey_addRoundKey, invShiftRows_shiftRows, invSubBytes_subBytes]

@[simp] theorem encFinalRound_decFirstRound (nr : Nat) : encFinalRound w nr (decFirstRound w nr b) = b := by
  simp only [decFirstRound, encFinalRound, subBytes_invSubBytes, shiftRows_invShiftRows, addRoundKey_addRoundKey]

/-- `n + 1` middle rounds of `Cipher` are `n` of them and then round `n + 1`, the one `InvCipher` undoes first. -/
theorem encRounds_succ_last (n : Nat) : encRounds w (n + 1) 1 b = encRound w (n + 1) (encRounds w n 1 b) := by
  rw [encRounds_eq_foldl, encRounds_eq_foldl, List.range_succ, List.foldl_append, List.foldl_cons, List.foldl_nil]

@[simp] theorem decRounds_encRounds (n : Nat) : decRounds w n (encRounds w n 1 b) = b := by
  induction n with
  | zero => rfl
  | succ n ih => rw [encRounds_succ_last, decRounds, decRound_encRound, ih]

@[simp] theorem encRounds_decRounds (n : Nat) : encRounds w n 1 (decRounds w n b) = b := by
  induction n generalizing b with
  | zero => rfl
  | succ n ih => rw [encRounds_succ_last, decRounds, ih, encRound_decRound]

@[simp] theorem invCipher_cipher (nr : Nat) : invCipher w nr (cipher w nr b) = b := by
  rw [invCipher, cipher, decFirstRound_encFinalRound, decRounds_encRounds, addRoundKey_addRoundKey]

@[simp] theorem cipher_invCipher (nr : Nat) : cipher w nr (invCipher w nr b) = b := by
  rw [invCipher, cipher, addRoundKey_addRoundKey, encRounds_decRounds, encFinalRound_decFirstRound]

end Inverse

/-- Settles O41: the recursions over the middle rounds are folds over the numbers of the rounds. -/
theorem cipherAppliesItsRoundsInOrder : Obligations.CipherAppliesItsRoundsInOrder := by
  unfold Obligations.CipherAppliesItsRoundsInOrder
  refine fun w nr b _ => ⟨?_, ?_⟩
  · rw [cipher, encRounds_eq_foldl]
    simp only [encRound, encFinalRound, cipherByRounds]
  · rw [invCipher, decRounds_eq_foldl]
    simp only [decRound, decFirstRound, invCipherByRounds]

/-- Settles O43: each round is undone by the round of the same number, the rounds in the opposite order. -/
theorem invCipherUndoesCipher : Obligations.InvCipherUndoesCipher := by
  unfold Obligations.InvCipherUndoesCipher
  exact fun w nr b => ⟨invCipher_cipher w b nr, cipher_invCipher w b nr⟩

end Sys2Proof.Machine
end

section
/-! The commands of the round pipeline on `S` (R151 to R161). -/

namespace Sys2Proof.Machine

/-- An error that only a check raises changes STATUS alone (R204, R230). -/
theorem raiseError_eq_onlyStatus (e : ErrCode) (s : State) : raiseError e s = onlyStatus e s := by
  simp only [raiseError, complete, onlyStatus]

section Checks

variable {s : State}

theorem checkStateLoad_of_outside (h : s.mem.size < s.srcBase + 16) : checkStateLoad s = .badAddress := by
  have hfit : s.mem.inBounds s.srcBase 16 = false := decide_eq_false (by omega)
  rw [checkStateLoad, hfit]
  rfl

theorem checkStateStore_of_outside (h : s.mem.size < s.dstBase + 16) : checkStateStore s = .badAddress := by
  have hfit : s.mem.inBounds s.dstBase 16 = false := decide_eq_false (by omega)
  rw [checkStateStore, hfit]
  rfl

theorem checkKeyLoaded_of_no_key (h : s.keyValid = false) : checkKeyLoaded s = .keyNotLoaded := by
  rw [checkKeyLoaded, h]
  rfl

/-- The key is checked before the round (R240). -/
theorem checkAddRoundKey_of_no_key (round : Nat) (h : s.keyValid = false) :
    checkAddRoundKey round s = .keyNotLoaded := by
  rw [checkAddRoundKey, h]
  rfl

end Checks

section Written

variable {m m' : Memory} {a : Nat} {b : Block}

/-- A block written is read back byte by byte (R45). -/
theorem BytesWritten.load_block (h : BytesWritten m m' a b.toList) (i : Fin 16) : m'.load (a + i.val) = b[i] := by
  obtain ⟨-, -, hload⟩ := h
  rw [hload, if_pos (by simp), Nat.add_sub_cancel_left]
  simp

theorem BytesWritten.load_outside {v : List Byte} (h : BytesWritten m m' a v) {x : Nat}
    (hx : ¬(a ≤ x ∧ x < a + v.length)) : m'.load x = m.load x := by
  obtain ⟨-, -, hload⟩ := h
  rw [hload, if_neg hx]

end Written

/-- Settles O36: the range check, and the block read at the source. -/
theorem stateLoadReadsSixteenBytes : Obligations.StateLoadReadsSixteenBytes := by
  unfold Obligations.StateLoadReadsSixteenBytes
  refine ⟨decode_eq_command_iff.mpr (by decide), fun s => ⟨fun hout => ?_, fun hin => ?_⟩⟩
  · have hcheck : checkStateLoad s = .badAddress := checkStateLoad_of_outside hout
    rw [exec_stateLoad_error (by rw [hcheck]; decide), hcheck, raiseError_eq_onlyStatus]
  · refine ⟨_, exec_stateLoad_ok ((checkStateLoad_ok_iff s).mpr hin), ?_, fun i => ?_⟩
    · simp only [complete, stateLoadEffect]
    · rw [complete_sreg, stateLoadEffect_sreg]
      exact Memory.loadBlock_getElem s.mem s.srcBase i i.isLt

/-- Settles O37: the range check, and the block written at the destination. -/
theorem stateStoreWritesSixteenBytes : Obligations.StateStoreWritesSixteenBytes := by
  unfold Obligations.StateStoreWritesSixteenBytes
  refine ⟨decode_eq_command_iff.mpr (by decide), fun s => ⟨fun hout => ?_, fun hin hwf => ?_⟩⟩
  · have hcheck : checkStateStore s = .badAddress := checkStateStore_of_outside hout
    rw [exec_stateStore_error (by rw [hcheck]; decide), hcheck, raiseError_eq_onlyStatus]
  · have hwritten : BytesWritten s.mem (complete .ok (stateStoreEffect s)).mem s.dstBase s.sreg.toList := by
      rw [complete_mem, stateStoreEffect_mem]
      exact bytesWritten_storeBlock s.mem s.dstBase s.sreg hwf hin
    refine ⟨_, exec_stateStore_ok ((checkStateStore_ok_iff s).mpr hin), ?_, hwritten, hwritten.load_block,
      fun x hx => hwritten.load_outside (by rwa [Vector.length_toList])⟩
    simp only [complete, stateStoreEffect]

section Transforms

variable {i : Instr} {f : Block → Block} {s : State}

/-- A command that applies `f` to `S` and completes changes, besides `S`, STATUS and the state machine's phase only
(R204). -/
theorem exec_replaces_sreg (h : exec i s = .next (complete .ok (transformEffect f s))) :
    ∃ t, exec i s = .next t ∧ t = { s with sreg := t.sreg, err := .ok, done := true, fsm := .idle } ∧
      t.sreg = f s.sreg :=
  ⟨_, h, by simp only [complete, transformEffect], by rw [complete_sreg, transformEffect_sreg]⟩

end Transforms

/-- Settles O38: each command replaces `S` by its transform, and the cells of the transform are the rule's. -/
theorem singleTransformsReplaceS : Obligations.SingleTransformsReplaceS := by
  unfold Obligations.SingleTransformsReplaceS
  refine ⟨?_, fun s => ⟨?_, ?_, ?_, ?_, ?_, ?_⟩⟩
  · refine ⟨?_, ?_, ?_, ?_, ?_, ?_⟩ <;> exact decode_eq_command_iff.mpr (by decide)
  · obtain ⟨t, ht, hframe, hs⟩ := exec_replaces_sreg (exec_subBytes s)
    exact ⟨t, ht, hframe, fun i => hs ▸ subBytes_getElem s.sreg i i.isLt⟩
  · obtain ⟨t, ht, hframe, hs⟩ := exec_replaces_sreg (exec_invSubBytes s)
    exact ⟨t, ht, hframe, fun i => hs ▸ invSubBytes_getElem s.sreg i i.isLt⟩
  · obtain ⟨t, ht, hframe, hs⟩ := exec_replaces_sreg (exec_shiftRows s)
    exact ⟨t, ht, hframe, fun c r => hs ▸ cell_shiftRows s.sreg c.isLt r.isLt⟩
  · obtain ⟨t, ht, hframe, hs⟩ := exec_replaces_sreg (exec_invShiftRows s)
    exact ⟨t, ht, hframe, fun c r => hs ▸ cell_invShiftRows_add_mod s.sreg c.isLt r.isLt⟩
  · obtain ⟨t, ht, hframe, hs⟩ := exec_replaces_sreg (exec_mixColumns s)
    have hrow (c : Fin 4) (r : Nat) (hr : r < 4) := cell_mixWith s.sreg mixMatrix c.isLt hr
    refine ⟨t, ht, hframe, fun c => ?_⟩
    rw [hs, mixColumns, hrow c 0 (by decide), hrow c 1 (by decide), hrow c 2 (by decide), hrow c 3 (by decide)]
    simp only [matrixEntry, mixMatrix, List.getD_cons_zero, List.getD_cons_succ, gfMult_one_left, and_self]
  · obtain ⟨t, ht, hframe, hs⟩ := exec_replaces_sreg (exec_invMixColumns s)
    have hrow (c : Fin 4) (r : Nat) (hr : r < 4) := cell_mixWith s.sreg invMixMatrix c.isLt hr
    refine ⟨t, ht, hframe, fun c => ?_⟩
    rw [hs, invMixColumns, hrow c 0 (by decide), hrow c 1 (by decide), hrow c 2 (by decide), hrow c 3 (by decide)]
    exact ⟨rfl, rfl, rfl, rfl⟩

/-- Settles O40: the checks in their order, and the cells of `addRoundKey`. -/
theorem addRoundKeyXorsOneSlice : Obligations.AddRoundKeyXorsOneSlice := by
  unfold Obligations.AddRoundKeyXorsOneSlice
  obtain ⟨-, -, -, -, -, -, -, -, -, -, hdecode, -⟩ := opcodeMapWords
  refine ⟨hdecode, fun s r => ⟨fun hk => ?_, fun hk hr => ?_, fun hk hr => ?_⟩⟩
  · have hcheck : checkAddRoundKey r s = .keyNotLoaded := checkAddRoundKey_of_no_key r hk
    rw [exec_addRoundKey_error (by rw [hcheck]; decide), hcheck, raiseError_eq_onlyStatus]
  · have hcheck : checkAddRoundKey r s = .illegalCommand := checkAddRoundKey_above_nr hk hr
    rw [exec_addRoundKey_error (by rw [hcheck]; decide), hcheck, raiseError_eq_onlyStatus]
  · have hpass : checkAddRoundKey r s = .ok := (checkAddRoundKey_ok_iff r s).mpr ⟨hk, hr⟩
    obtain ⟨t, ht, hframe, hs⟩ := exec_replaces_sreg (exec_addRoundKey_ok hpass)
    exact ⟨t, ht, hframe, fun c k => hs ▸ cell_addRoundKey s.sreg s.w r c.isLt k.isLt⟩

/-- Settles O42: the key check, and that `Cipher` and `InvCipher` undo each other. -/
theorem cipherBlockCommands : Obligations.CipherBlockCommands := by
  unfold Obligations.CipherBlockCommands
  refine ⟨decode_eq_command_iff.mpr (by decide), decode_eq_command_iff.mpr (by decide), fun s =>
    ⟨fun hk => ?_, fun hk => ?_⟩⟩
  · have hcheck : checkKeyLoaded s = .keyNotLoaded := checkKeyLoaded_of_no_key hk
    have hfails : checkKeyLoaded s ≠ .ok := by rw [hcheck]; decide
    rw [exec_cipherBlock_error hfails, exec_invCipherBlock_error hfails, hcheck, raiseError_eq_onlyStatus]
    exact ⟨rfl, rfl⟩
  · have hcheck (f : Block → Block) : checkKeyLoaded (complete .ok (transformEffect f s)) = .ok :=
      (checkKeyLoaded_ok_iff _).mpr (by rw [complete_keyValid, transformEffect_keyValid, hk])
    have hpass : checkKeyLoaded s = .ok := (checkKeyLoaded_ok_iff s).mpr hk
    refine ⟨_, _, exec_cipherBlock_ok hpass, ?_, exec_invCipherBlock_ok hpass, ?_,
      ⟨_, exec_invCipherBlock_ok (hcheck _), ?_⟩, ⟨_, exec_cipherBlock_ok (hcheck _), ?_⟩⟩
    · simp only [complete, transformEffect]
    · simp only [complete, transformEffect]
    · simp [invCipher_cipher]
    · simp [cipher_invCipher]

end Sys2Proof.Machine
end

section
/-! How a mode command ends when it does not succeed: the first error of its checks in the order of R240, or a bad
padding (R238). -/

namespace Sys2Proof.Machine

/-- An error of a mode command changes STATUS and OUT_LEN alone (R238 item 5). -/
theorem raiseModeError_eq_onlyStatus (e : ErrCode) (s : State) :
    raiseModeError e s = onlyStatus e { s with outLen := 0 } := by
  simp only [raiseModeError, raiseError, complete, onlyStatus]

section Completion

variable {i : Instr} {s : State} {e : ErrCode} {b : Block}

theorem exec_mode_checkFailed (hi : isMode i = true) (hc : commandCheck i s = e) (he : e ≠ .ok) :
    exec i s = .next (onlyStatus e { s with outLen := 0 }) := by
  subst hc
  obtain ⟨t, ht, hcompletes⟩ := exec_completes i s
  cases hcompletes with
  | success hok => exact absurd hok he
  | badPadding hok => exact absurd hok he
  | checkFailed =>
    have hkey : i ≠ .keyExpand := by rintro rfl; cases hi
    rw [ht, commandError, if_neg hkey, if_pos hi, raiseModeError_eq_onlyStatus]

theorem exec_mode_badPadding (hc : commandCheck i s = .ok) (hb : finalBlock i s = some b) (hp : ¬goodPadding b) :
    exec i s = .next (onlyStatus .badPadding { s with outLen := 0, sreg := b, hold := b }) := by
  have hbad : padOK b = false := Bool.eq_false_of_not_eq_true fun h => hp ((padOK_iff b).mp h)
  obtain ⟨t, ht, hcompletes⟩ := exec_completes i s
  cases hcompletes with
  | success hok hgood => simp [hgood b hb] at hbad
  | checkFailed hfail => exact absurd hc hfail
  | badPadding hok b' hb' =>
    obtain rfl : b = b' := Option.some.inj (hb.symm.trans hb')
    rw [ht]
    simp only [raiseModeError, raiseError, complete, onlyStatus, precheckEffect]

end Completion

section Checks

variable (s : State)

/-- The range checks of a command raise one error between them (R237). -/
theorem firstError_ranges (l : List (Nat × Nat)) :
    firstError (l.map fun r => (!s.mem.inBounds r.1 r.2, .badAddress)) =
      if ∀ r ∈ l, rangeFits s r.1 r.2 then .ok else .badAddress := by
  induction l with
  | nil => simp [firstError]
  | cons r l ih =>
    rw [List.map_cons, firstError, ih]
    by_cases hr : rangeFits s r.1 r.2
    · rw [(rangeCheck_iff s r.1 r.2).mpr hr]
      simp only [List.forall_mem_cons, hr, true_and, Bool.false_eq_true, if_false]
    · have hfails : (!s.mem.inBounds r.1 r.2) = true := by
        simpa using fun h => hr ((rangeCheck_iff s r.1 r.2).mp h)
      rw [if_pos hfails, if_neg fun h => hr (h r List.mem_cons_self)]

theorem checkEcbEnc_eq : checkEcbEnc s =
    if s.keyValid = false then .keyNotLoaded
    else if ¬(rangeFits s s.srcBase s.srcBytes ∧ rangeFits s s.dstBase (encBytes s.srcBytes)) then .badAddress
    else .ok := by
  have hranges := firstError_ranges s [(s.srcBase, s.srcBytes), (s.dstBase, encBytes s.srcBytes)]
  rw [ite_not, checkEcbEnc, firstError]
  simpa using congrArg (if s.keyValid = false then ErrCode.keyNotLoaded else ·) hranges

theorem checkEcbDec_eq : checkEcbDec s =
    if s.keyValid = false then .keyNotLoaded
    else if s.srcBytes = 0 ∨ s.srcBytes % 16 ≠ 0 then .badCiphertextLength
    else if ¬(rangeFits s s.srcBase s.srcBytes ∧ rangeFits s s.dstBase s.srcBytes) then .badAddress
    else .ok := by
  have hranges := firstError_ranges s [(s.srcBase, s.srcBytes), (s.dstBase, s.srcBytes)]
  rw [ite_not, checkEcbDec, firstError, firstError]
  simpa using congrArg (fun e => if s.keyValid = false then ErrCode.keyNotLoaded
    else if s.srcBytes = 0 ∨ s.srcBytes % 16 ≠ 0 then .badCiphertextLength else e) hranges

theorem checkCbcEnc_eq : checkCbcEnc s =
    if s.keyValid = false then .keyNotLoaded
    else if s.ivBytes ≠ 16 then .missingOrBadIV
    else if ¬(rangeFits s s.ivBase 16 ∧ rangeFits s s.srcBase s.srcBytes ∧
      rangeFits s s.dstBase (encBytes s.srcBytes)) then .badAddress
    else .ok := by
  have hranges := firstError_ranges s [(s.ivBase, 16), (s.srcBase, s.srcBytes), (s.dstBase, encBytes s.srcBytes)]
  rw [ite_not (p := _ ∧ _), checkCbcEnc, firstError, firstError]
  simpa using congrArg (fun e => if s.keyValid = false then ErrCode.keyNotLoaded
    else if s.ivBytes ≠ 16 then .missingOrBadIV else e) hranges

theorem checkCbcDec_eq : checkCbcDec s =
    if s.keyValid = false then .keyNotLoaded
    else if s.srcBytes = 0 ∨ s.srcBytes % 16 ≠ 0 then .badCiphertextLength
    else if s.ivBytes ≠ 16 then .missingOrBadIV
    else if ¬(rangeFits s s.ivBase 16 ∧ rangeFits s s.srcBase s.srcBytes ∧ rangeFits s s.dstBase s.srcBytes) then
      .badAddress
    else .ok := by
  have hranges := firstError_ranges s [(s.ivBase, 16), (s.srcBase, s.srcBytes), (s.dstBase, s.srcBytes)]
  rw [ite_not (p := _ ∧ _), checkCbcDec, firstError, firstError, firstError]
  simpa using congrArg (fun e => if s.keyValid = false then ErrCode.keyNotLoaded
    else if s.srcBytes = 0 ∨ s.srcBytes % 16 ≠ 0 then .badCiphertextLength
    else if s.ivBytes ≠ 16 then .missingOrBadIV else e) hranges

end Checks

end Sys2Proof.Machine
end

section
/-! Sequences of memories, each the one before with one more block written: what is kept, what is read back, and what is
read before writing reaches it (R53, R192). -/

namespace Sys2Proof.Machine

/-- In the memories `m 0, m 1, …` block `c i` is written at `dst + 16*i`, for `i` from 0 to `N - 1` (R53). -/
def BlocksWritten (m : Nat → Memory) (c : Nat → Block) (dst N : Nat) : Prop :=
  ∀ i, i < N → BytesWritten (m i) (m (i + 1)) (dst + 16 * i) (c i).toList

section Sequences

variable {m : Nat → Memory} {c : Nat → Block} {src n dst N i j : Nat}

theorem BlocksWritten.mono (h : BlocksWritten m c dst N) (hi : i ≤ N) : BlocksWritten m c dst i :=
  fun j hj => h j (by omega)

theorem BlocksWritten.congr {d : Nat → Block} (h : BlocksWritten m c dst N) (hcd : ∀ i < N, c i = d i) :
    BlocksWritten m d dst N :=
  fun i hi => hcd i hi ▸ h i hi

/-- Every byte outside the blocks written stays. -/
theorem BlocksWritten.load_outside (h : BlocksWritten m c dst N) {x : Nat} (hx : ¬(dst ≤ x ∧ x < dst + 16 * N)) :
    (m N).load x = (m 0).load x := by
  induction N with
  | zero => rfl
  | succ N ih =>
    rw [(h N N.lt_succ_self).load_outside (by rw [Vector.length_toList]; omega)]
    exact ih (h.mono N.le_succ) (by omega)

/-- Each block written stays as it was written: the blocks after it lie above it. -/
theorem BlocksWritten.load_written (h : BlocksWritten m c dst N) (hi : i < N) (hj : j < 16) :
    (m N).load (dst + 16 * i + j) = (c i)[j] := by
  induction N with
  | zero => omega
  | succ N ih =>
    have hlast := h N N.lt_succ_self
    rcases Nat.lt_succ_iff_lt_or_eq.mp hi with hlt | rfl
    · rw [hlast.load_outside (by rw [Vector.length_toList]; omega)]
      exact ih (h.mono N.le_succ) hlt
    · exact hlast.load_block ⟨j, hj⟩

theorem BlocksWritten.loadBlock_written (h : BlocksWritten m c dst N) (hi : i < N) :
    (m N).loadBlock (dst + 16 * i) = c i :=
  Vector.ext fun j hj => (Memory.loadBlock_getElem _ _ j hj).trans (h.load_written hi hj)

/-- After `i` blocks the source from its block `i` on is untouched, unless writing overtakes reading (R192). -/
theorem BlocksWritten.load_source (h : BlocksWritten m c dst N) (hover : noOverrun src n dst) (hi : i ≤ N) {k : Nat}
    (hk : 16 * i ≤ k) (hkn : k < n) : (m i).load (src + k) = (m 0).load (src + k) :=
  (h.mono hi).load_outside (by rcases hover with h | h <;> omega)

theorem BlocksWritten.paddedBlock_source (h : BlocksWritten m c dst N) (hover : noOverrun src n dst) (hi : i ≤ N) :
    paddedBlock (m i) src n i = paddedBlock (m 0) src n i := by
  refine Vector.ext fun j hj => ?_
  simp only [paddedBlock, Vector.getElem_ofFn]
  split
  · next hlt => exact h.load_source hover hi (by omega) hlt
  · rfl

theorem BlocksWritten.loadBlock_source (h : BlocksWritten m c dst N) (hover : noOverrun src n dst) (hi : i ≤ N)
    (hn : 16 * (i + 1) ≤ n) : (m i).loadBlock (src + 16 * i) = (m 0).loadBlock (src + 16 * i) := by
  refine Vector.ext fun j hj => ?_
  rw [Memory.loadBlock_getElem, Memory.loadBlock_getElem, Nat.add_assoc]
  exact h.load_source hover hi (by omega) (by omega)

end Sequences

/-- The value block `i` is chained with: the IV for block 0, else the block before it in `c` (R186, R187). -/
def chainedFrom (iv : Block) (c : Nat → Block) (i : Nat) : Block := if i = 0 then iv else c (i - 1)

@[simp] theorem chainedFrom_zero (iv : Block) (c : Nat → Block) : chainedFrom iv c 0 = iv := rfl

@[simp] theorem chainedFrom_succ (iv : Block) (c : Nat → Block) (i : Nat) : chainedFrom iv c (i + 1) = c i := rfl

theorem chainedFrom_congr {iv : Block} {c d : Nat → Block} {i : Nat} (h : ∀ j < i, c j = d j) :
    chainedFrom iv c i = chainedFrom iv d i := by
  cases i with
  | zero => rfl
  | succ i => exact h i i.lt_succ_self

end Sys2Proof.Machine
end

section
/-! The loops of the four mode commands, block by block (R184 to R187, R194). -/

namespace Sys2Proof.Machine

/-- A loop whose iterations leave their output block in `S` and store it writes those blocks in order. -/
theorem forBlocks_blocksWritten {body : Nat → Pass → Pass} {dst N : Nat} {p : Pass}
    (hbody : ∀ k p, (body k p).mem = p.mem.storeBlock (dst + 16 * k) (body k p).sreg) (hwf : p.mem.wf = true)
    (hfit : dst + 16 * N ≤ p.mem.size) :
    BlocksWritten (fun k => (forBlocks body k 0 p).mem) (fun k => (forBlocks body (k + 1) 0 p).sreg) dst N := by
  intro i hi
  have hkeeps : (forBlocks body i 0 p).mem.size = p.mem.size ∧ (forBlocks body i 0 p).mem.wf = true := by
    refine forBlocks_mem body (fun m => m.size = p.mem.size ∧ m.wf = true) (fun k q hq => ?_) i 0 p ⟨rfl, hwf⟩
    rw [hbody, Memory.storeBlock_size]
    exact ⟨hq.1, Memory.storeBlock_wf _ _ _ hq.2⟩
  simp only [forBlocks_succ, Nat.zero_add]
  rw [hbody]
  exact bytesWritten_storeBlock _ _ _ hkeeps.2 (by omega)

section Iterations

variable (w : Schedule) (nr src n dst k : Nat) (p : Pass)

theorem ecbEncBlock_mem : (ecbEncBlock w nr src n dst k p).mem =
    p.mem.storeBlock (dst + 16 * k) (ecbEncBlock w nr src n dst k p).sreg := by simp only [ecbEncBlock]

theorem cbcEncBlock_mem : (cbcEncBlock w nr src n dst k p).mem =
    p.mem.storeBlock (dst + 16 * k) (cbcEncBlock w nr src n dst k p).sreg := by simp only [cbcEncBlock]

theorem ecbDecBlock_mem : (ecbDecBlock w nr src dst k p).mem =
    p.mem.storeBlock (dst + 16 * k) (ecbDecBlock w nr src dst k p).sreg := by simp only [ecbDecBlock]

theorem cbcDecBlock_mem : (cbcDecBlock w nr src dst k p).mem =
    p.mem.storeBlock (dst + 16 * k) (cbcDecBlock w nr src dst k p).sreg := by simp only [cbcDecBlock]

end Iterations

variable (s : State)

/-- The loop of `ECB_ENC` after `k` blocks. -/
def ecbEncAfter (k : Nat) : Pass :=
  forBlocks (ecbEncBlock s.w s.nr.toNat s.srcBase s.srcBytes s.dstBase) k 0 ⟨s.mem, s.sreg, s.prev⟩

/-- The loop of `CBC_ENC` after `k` blocks. -/
def cbcEncAfter (k : Nat) : Pass :=
  forBlocks (cbcEncBlock s.w s.nr.toNat s.srcBase s.srcBytes s.dstBase) k 0 ⟨s.mem, s.sreg, s.mem.loadBlock s.ivBase⟩

/-- The main pass of `ECB_DEC` after `k` blocks. -/
def ecbDecAfter (k : Nat) : Pass :=
  forBlocks (ecbDecBlock s.w s.nr.toNat s.srcBase s.dstBase) k 0 ⟨s.mem, s.sreg, s.prev⟩

/-- The main pass of `CBC_DEC` after `k` blocks. -/
def cbcDecAfter (k : Nat) : Pass :=
  forBlocks (cbcDecBlock s.w s.nr.toNat s.srcBase s.dstBase) k 0 ⟨s.mem, s.sreg, s.mem.loadBlock s.ivBase⟩

/-! After all their blocks these are the model's loops. -/

theorem ecbEncAfter_encBlocks : ecbEncAfter s (encBlocks s.srcBytes) = ecbEncPass s := rfl
theorem cbcEncAfter_encBlocks : cbcEncAfter s (encBlocks s.srcBytes) = cbcEncPass s := rfl
theorem ecbDecAfter_decBlocks : ecbDecAfter s (decBlocks s.srcBytes - 1) = ecbDecPass s := rfl
theorem cbcDecAfter_decBlocks : cbcDecAfter s (decBlocks s.srcBytes - 1) = cbcDecPass s := rfl

theorem ecbEncAfter_succ (k : Nat) : ecbEncAfter s (k + 1) =
    ecbEncBlock s.w s.nr.toNat s.srcBase s.srcBytes s.dstBase k (ecbEncAfter s k) := by
  rw [ecbEncAfter, forBlocks_succ, Nat.zero_add, ← ecbEncAfter]

theorem cbcEncAfter_succ (k : Nat) : cbcEncAfter s (k + 1) =
    cbcEncBlock s.w s.nr.toNat s.srcBase s.srcBytes s.dstBase k (cbcEncAfter s k) := by
  rw [cbcEncAfter, forBlocks_succ, Nat.zero_add, ← cbcEncAfter]

theorem ecbDecAfter_succ (k : Nat) : ecbDecAfter s (k + 1) =
    ecbDecBlock s.w s.nr.toNat s.srcBase s.dstBase k (ecbDecAfter s k) := by
  rw [ecbDecAfter, forBlocks_succ, Nat.zero_add, ← ecbDecAfter]

theorem cbcDecAfter_succ (k : Nat) : cbcDecAfter s (k + 1) =
    cbcDecBlock s.w s.nr.toNat s.srcBase s.dstBase k (cbcDecAfter s k) := by
  rw [cbcDecAfter, forBlocks_succ, Nat.zero_add, ← cbcDecAfter]

/-- The chaining value of `CBC_ENC` is the output block before (R186). -/
theorem cbcEncAfter_prev (k : Nat) :
    (cbcEncAfter s k).prev = chainedFrom (s.mem.loadBlock s.ivBase) (fun j => (cbcEncAfter s (j + 1)).sreg) k := by
  cases k with
  | zero => rfl
  | succ k => simp only [chainedFrom_succ, cbcEncAfter_succ, cbcEncBlock]

/-- The chaining value of `CBC_DEC` is the input block before, as it was read (R187). -/
theorem cbcDecAfter_prev (k : Nat) : (cbcDecAfter s k).prev =
    chainedFrom (s.mem.loadBlock s.ivBase) (fun j => (cbcDecAfter s j).mem.loadBlock (s.srcBase + 16 * j)) k := by
  cases k with
  | zero => rfl
  | succ k => simp only [chainedFrom_succ, cbcDecAfter_succ, cbcDecBlock]

theorem ecbEncAfter_sreg {k : Nat} (hk : k < encBlocks s.srcBytes) : (ecbEncAfter s (k + 1)).sreg =
    cipher s.w s.nr.toNat (paddedBlock (ecbEncAfter s k).mem s.srcBase s.srcBytes k) := by
  rw [ecbEncAfter_succ, ecbEncBlock, messageBlock_eq_paddedBlock _ _ _ _ hk]

theorem cbcEncAfter_sreg {k : Nat} (hk : k < encBlocks s.srcBytes) : (cbcEncAfter s (k + 1)).sreg =
    cipher s.w s.nr.toNat (blockXor (paddedBlock (cbcEncAfter s k).mem s.srcBase s.srcBytes k)
      (chainedFrom (s.mem.loadBlock s.ivBase) (fun j => (cbcEncAfter s (j + 1)).sreg) k)) := by
  rw [cbcEncAfter_succ, cbcEncBlock, messageBlock_eq_paddedBlock _ _ _ _ hk, cbcEncAfter_prev]

theorem ecbDecAfter_sreg (k : Nat) : (ecbDecAfter s (k + 1)).sreg =
    invCipher s.w s.nr.toNat ((ecbDecAfter s k).mem.loadBlock (s.srcBase + 16 * k)) := by
  rw [ecbDecAfter_succ, ecbDecBlock]

theorem cbcDecAfter_sreg (k : Nat) : (cbcDecAfter s (k + 1)).sreg =
    blockXor (invCipher s.w s.nr.toNat ((cbcDecAfter s k).mem.loadBlock (s.srcBase + 16 * k)))
      (chainedFrom (s.mem.loadBlock s.ivBase) (fun j => (cbcDecAfter s j).mem.loadBlock (s.srcBase + 16 * j)) k) := by
  rw [cbcDecAfter_succ, cbcDecBlock, cbcDecAfter_prev]

/-- An encryption's destination holds at least one block, so a range in bounds ends in the memory (R51, R183). -/
theorem add_blocks_le_size {s : State} {base n : Nat} (h : rangeFits s base (encBytes n)) :
    base + 16 * encBlocks n ≤ s.mem.size := by
  unfold rangeFits encBytes encBlocks at *
  omega

/-- The final block of a decryption's destination starts in the memory (R51, R185). -/
theorem lastDst_le_size {s : State} (hn : s.srcBytes ≠ 0 ∧ s.srcBytes % 16 = 0)
    (h : rangeFits s s.dstBase s.srcBytes) : s.lastDst ≤ s.mem.size := by
  unfold rangeFits State.lastDst decBlocks at *
  omega

section Written

variable {s}

theorem ecbEncAfter_blocksWritten (hc : checkEcbEnc s = .ok) (hwf : s.mem.wf = true) :
    BlocksWritten (fun k => (ecbEncAfter s k).mem) (fun k => (ecbEncAfter s (k + 1)).sreg)
      s.dstBase (encBlocks s.srcBytes) := by
  obtain ⟨-, -, hdst⟩ := (checkEcbEnc_ok_iff s).mp hc
  exact forBlocks_blocksWritten (ecbEncBlock_mem _ _ _ _ _) hwf (add_blocks_le_size hdst)

theorem cbcEncAfter_blocksWritten (hc : checkCbcEnc s = .ok) (hwf : s.mem.wf = true) :
    BlocksWritten (fun k => (cbcEncAfter s k).mem) (fun k => (cbcEncAfter s (k + 1)).sreg)
      s.dstBase (encBlocks s.srcBytes) := by
  obtain ⟨-, -, -, -, hdst⟩ := (checkCbcEnc_ok_iff s).mp hc
  exact forBlocks_blocksWritten (cbcEncBlock_mem _ _ _ _ _) hwf (add_blocks_le_size hdst)

theorem ecbDecAfter_blocksWritten (hc : checkEcbDec s = .ok) (hwf : s.mem.wf = true) :
    BlocksWritten (fun k => (ecbDecAfter s k).mem) (fun k => (ecbDecAfter s (k + 1)).sreg)
      s.dstBase (decBlocks s.srcBytes - 1) := by
  obtain ⟨-, hn, -, hdst⟩ := (checkEcbDec_ok_iff s).mp hc
  exact forBlocks_blocksWritten (ecbDecBlock_mem _ _ _ _) hwf (lastDst_le_size hn hdst)

theorem cbcDecAfter_blocksWritten (hc : checkCbcDec s = .ok) (hwf : s.mem.wf = true) :
    BlocksWritten (fun k => (cbcDecAfter s k).mem) (fun k => (cbcDecAfter s (k + 1)).sreg)
      s.dstBase (decBlocks s.srcBytes - 1) := by
  obtain ⟨-, hn, -, -, -, hdst⟩ := (checkCbcDec_ok_iff s).mp hc
  exact forBlocks_blocksWritten (cbcDecBlock_mem _ _ _ _) hwf (lastDst_le_size hn hdst)

end Written

end Sys2Proof.Machine
end

section
/-! `ECB_ENC` and `CBC_ENC`: their errors and their runs (R184, R186). -/

namespace Sys2Proof.Machine

/-- `S` ends as the last ciphertext block (R184). -/
theorem ecbEncPass_sreg (s : State) : (ecbEncPass s).sreg = cipher s.w s.nr.toNat
    (paddedBlock (ecbEncAfter s (s.srcBytes / 16)).mem s.srcBase s.srcBytes (s.srcBytes / 16)) :=
  ecbEncAfter_sreg s (Nat.lt_succ_self _)

/-- PREV ends as the last ciphertext block, as `S` does (R186). -/
theorem cbcEncPass_prev (s : State) : (cbcEncPass s).prev = (cbcEncPass s).sreg := by
  rw [← cbcEncAfter_encBlocks, cbcEncAfter_prev, encBlocks, chainedFrom_succ]

/-- Settles O44: the errors of the checks in their order, and the loop block by block. -/
theorem ecbEncRuns : Obligations.EcbEncRuns := by
  unfold Obligations.EcbEncRuns
  refine ⟨decode_eq_command_iff.mpr (by decide), ?_⟩
  rintro s n src dst N rfl rfl rfl rfl
  refine ⟨fun hk => ?_, fun hk hfit => ?_, fun hk hsrc hdst hwf => ?_⟩
  · exact exec_mode_checkFailed rfl ((checkEcbEnc_eq s).trans (if_pos hk)) (by decide)
  · have hcheck : checkEcbEnc s = .badAddress :=
      (checkEcbEnc_eq s).trans ((if_neg (by simp [hk])).trans (if_pos hfit))
    exact exec_mode_checkFailed rfl hcheck (by decide)
  · have hc : checkEcbEnc s = .ok := (checkEcbEnc_ok_iff s).mpr ⟨hk, hsrc, hdst⟩
    refine ⟨_, fun k => (ecbEncAfter s k).mem, exec_ecbEnc_ok hc, rfl, ?_, ?_,
      fun hs => exec_enc_outLen (.inl rfl) rfl hs (exec_ecbEnc_ok hc), fun x hx => ?_⟩
    · exact (ecbEncAfter_blocksWritten hc hwf).congr fun i hi => ecbEncAfter_sreg s hi
    · simp only [complete, ecbEncEffect, setOutLen, ecbEncPass_sreg]
      rfl
    · rw [complete_mem, ecbEncEffect_mem]
      exact (encPasses_load_outside hx).1

/-- Settles O45: the errors of the checks in their order, and the loop block by block, each output block being the next
chaining value. -/
theorem cbcEncRuns : Obligations.CbcEncRuns := by
  unfold Obligations.CbcEncRuns
  refine ⟨decode_eq_command_iff.mpr (by decide), ?_⟩
  rintro s n src dst iv N rfl rfl rfl rfl rfl
  refine ⟨fun hk => ?_, fun hk hiv => ?_, fun hk hiv hfit => ?_, fun hk hiv hivFits hsrc hdst hwf => ?_⟩
  · exact exec_mode_checkFailed rfl ((checkCbcEnc_eq s).trans (if_pos hk)) (by decide)
  · have hcheck : checkCbcEnc s = .missingOrBadIV :=
      (checkCbcEnc_eq s).trans ((if_neg (by simp [hk])).trans (if_pos hiv))
    exact exec_mode_checkFailed rfl hcheck (by decide)
  · have hcheck : checkCbcEnc s = .badAddress :=
      (checkCbcEnc_eq s).trans ((if_neg (by simp [hk])).trans ((if_neg (not_not.mpr hiv)).trans (if_pos hfit)))
    exact exec_mode_checkFailed rfl hcheck (by decide)
  · have hc : checkCbcEnc s = .ok := (checkCbcEnc_ok_iff s).mpr ⟨hk, hiv, hivFits, hsrc, hdst⟩
    have hwritten := cbcEncAfter_blocksWritten hc hwf
    refine ⟨_, fun k => (cbcEncAfter s k).mem, fun k => (cbcEncAfter s (k + 1)).sreg, exec_cbcEnc_ok hc, rfl,
      fun i hi => ⟨cbcEncAfter_sreg s hi, hwritten i hi⟩, ?_,
      fun hs => exec_enc_outLen (.inr rfl) rfl hs (exec_cbcEnc_ok hc), fun x hx => ?_⟩
    · simp only [complete, cbcEncEffect, setOutLen, cbcEncPass_prev]
      rfl
    · rw [complete_mem, cbcEncEffect_mem]
      exact (encPasses_load_outside hx).2

end Sys2Proof.Machine
end

section
/-! `ECB_DEC` and `CBC_DEC`: their errors, their padding check and their runs (R185, R187). -/

namespace Sys2Proof.Machine

section FinalBlock

variable {s : State} {m : Memory} {b : Block}

/-- The unpadded final block is written at its place, which the range check covers (R51, R185). -/
theorem bytesWritten_finalBlock (hn : s.srcBytes ≠ 0 ∧ s.srcBytes % 16 = 0) (hfit : rangeFits s s.dstBase s.srcBytes)
    (hwf : m.wf = true) (hsize : m.size = s.mem.size) (b : Block) :
    BytesWritten m (m.storeBytes s.lastDst (unpadded b)) s.lastDst (unpadded b) := by
  have hend := lastDst_add_unpadded_le hn b
  refine bytesWritten_storeBytes _ _ _ hwf (.inr ?_)
  unfold rangeFits at hfit
  omega

/-- With good padding the final block ends where the message ends (R182, R185). -/
theorem lastDst_add_unpadded (hn : s.srcBytes ≠ 0 ∧ s.srcBytes % 16 = 0) (hb : goodPadding b) :
    s.lastDst + (unpadded b).length = s.dstBase + (s.srcBytes - b[15].toNat) := by
  obtain ⟨-, hle, -⟩ := hb
  rw [unpadded_length]
  unfold State.lastDst decBlocks
  omega

/-- Outside the bytes of the message the final write leaves what the pass before it left. -/
theorem load_unpadded_outside (hn : s.srcBytes ≠ 0 ∧ s.srcBytes % 16 = 0) (hb : goodPadding b) {x : Nat}
    (hx : ¬(s.dstBase ≤ x ∧ x < s.dstBase + (s.srcBytes - b[15].toNat))) :
    (m.storeBytes s.lastDst (unpadded b)).load x = m.load x ∧ ¬(s.dstBase ≤ x ∧ x < s.lastDst) := by
  have hend := lastDst_add_unpadded hn hb
  have hstart := dstBase_le_lastDst s
  exact ⟨Memory.load_storeBytes_out _ _ _ _ (by omega), by omega⟩

end FinalBlock

/-- Settles O46: the errors of the checks in their order, the padding of the final block, and the loop over the blocks
before it. -/
theorem ecbDecRuns : Obligations.EcbDecRuns := by
  unfold Obligations.EcbDecRuns
  refine ⟨decode_eq_command_iff.mpr (by decide), ?_⟩
  rintro s n src dst N h rfl rfl rfl rfl hh
  obtain rfl : h = ecbDecHold s := hh
  have hpass (hk : s.keyValid = true) (hn : s.srcBytes ≠ 0) (hmod : s.srcBytes % 16 = 0)
      (hsrc : rangeFits s s.srcBase s.srcBytes) (hdst : rangeFits s s.dstBase s.srcBytes) : checkEcbDec s = .ok :=
    (checkEcbDec_ok_iff s).mpr ⟨hk, ⟨hn, hmod⟩, hsrc, hdst⟩
  refine ⟨fun hk => ?_, fun hk hlen => ?_, fun hk hn hmod hfit => ?_, fun hk hn hmod hsrc hdst hpad => ?_,
    fun hk hn hmod hsrc hdst hpad hwf => ?_⟩
  · exact exec_mode_checkFailed rfl ((checkEcbDec_eq s).trans (if_pos hk)) (by decide)
  · have hcheck : checkEcbDec s = .badCiphertextLength :=
      (checkEcbDec_eq s).trans ((if_neg (by simp [hk])).trans (if_pos hlen))
    exact exec_mode_checkFailed rfl hcheck (by decide)
  · have hlen : ¬(s.srcBytes = 0 ∨ s.srcBytes % 16 ≠ 0) := not_or.mpr ⟨hn, not_not.mpr hmod⟩
    have hcheck : checkEcbDec s = .badAddress :=
      (checkEcbDec_eq s).trans ((if_neg (by simp [hk])).trans ((if_neg hlen).trans (if_pos hfit)))
    exact exec_mode_checkFailed rfl hcheck (by decide)
  · exact exec_mode_badPadding (hpass hk hn hmod hsrc hdst) rfl hpad
  · have hc := hpass hk hn hmod hsrc hdst
    have hexec := exec_ecbDec_ok hc ((padOK_iff _).mpr hpad)
    have hwritten := (ecbDecAfter_blocksWritten hc hwf).congr fun i _ => ecbDecAfter_sreg s i
    refine ⟨_, fun k => (ecbDecAfter s k).mem, hexec, rfl, fun i hi => hwritten i (Nat.lt_sub_of_add_lt hi), ?_, ?_,
      exec_dec_outLen (.inl rfl) rfl hexec, fun x hx => ?_⟩
    · rw [complete_mem, ecbDecEffect_mem]
      obtain ⟨-, -, hsize, -⟩ := passes_size s
      obtain ⟨-, -, hwf', -⟩ := passes_wf s hwf
      exact bytesWritten_finalBlock ⟨hn, hmod⟩ hdst hwf' hsize _
    · simp only [complete, ecbDecEffect, setOutLen, precheckEffect]
    · rw [complete_mem, ecbDecEffect_mem]
      obtain ⟨hlast, hbefore⟩ := load_unpadded_outside ⟨hn, hmod⟩ hpad hx
      exact hlast.trans (decPasses_load_outside hbefore).1

/-- Settles O47: the errors of the checks in their order, the padding of the final block, and the loop over the blocks
before it, chained by the ciphertext as it was read. -/
theorem cbcDecRuns : Obligations.CbcDecRuns := by
  unfold Obligations.CbcDecRuns
  refine ⟨decode_eq_command_iff.mpr (by decide), ?_⟩
  rintro s n src dst iv N h rfl rfl rfl rfl rfl hh
  obtain rfl : h = cbcDecHold s := hh
  have hpass (hk : s.keyValid = true) (hn : s.srcBytes ≠ 0) (hmod : s.srcBytes % 16 = 0) (hiv : s.ivBytes = 16)
      (hivFits : rangeFits s s.ivBase 16) (hsrc : rangeFits s s.srcBase s.srcBytes)
      (hdst : rangeFits s s.dstBase s.srcBytes) : checkCbcDec s = .ok :=
    (checkCbcDec_ok_iff s).mpr ⟨hk, ⟨hn, hmod⟩, hiv, hivFits, hsrc, hdst⟩
  refine ⟨fun hk => ?_, fun hk hlen => ?_, fun hk hn hmod hiv => ?_, fun hk hn hmod hiv hfit => ?_,
    fun hk hn hmod hiv hivFits hsrc hdst hpad => ?_, fun hk hn hmod hiv hivFits hsrc hdst hpad hwf => ?_⟩
  · exact exec_mode_checkFailed rfl ((checkCbcDec_eq s).trans (if_pos hk)) (by decide)
  · have hcheck : checkCbcDec s = .badCiphertextLength :=
      (checkCbcDec_eq s).trans ((if_neg (by simp [hk])).trans (if_pos hlen))
    exact exec_mode_checkFailed rfl hcheck (by decide)
  · have hlen : ¬(s.srcBytes = 0 ∨ s.srcBytes % 16 ≠ 0) := not_or.mpr ⟨hn, not_not.mpr hmod⟩
    have hcheck : checkCbcDec s = .missingOrBadIV :=
      (checkCbcDec_eq s).trans ((if_neg (by simp [hk])).trans ((if_neg hlen).trans (if_pos hiv)))
    exact exec_mode_checkFailed rfl hcheck (by decide)
  · have hlen : ¬(s.srcBytes = 0 ∨ s.srcBytes % 16 ≠ 0) := not_or.mpr ⟨hn, not_not.mpr hmod⟩
    have hcheck : checkCbcDec s = .badAddress :=
      (checkCbcDec_eq s).trans ((if_neg (by simp [hk])).trans
        ((if_neg hlen).trans ((if_neg (not_not.mpr hiv)).trans (if_pos hfit))))
    exact exec_mode_checkFailed rfl hcheck (by decide)
  · exact exec_mode_badPadding (hpass hk hn hmod hiv hivFits hsrc hdst) rfl hpad
  · have hc := hpass hk hn hmod hiv hivFits hsrc hdst
    have hexec := exec_cbcDec_ok hc ((padOK_iff _).mpr hpad)
    have hwritten := (cbcDecAfter_blocksWritten hc hwf).congr fun i _ => cbcDecAfter_sreg s i
    refine ⟨_, fun k => (cbcDecAfter s k).mem, hexec, rfl, fun i hi => hwritten i (Nat.lt_sub_of_add_lt hi), ?_, ?_,
      exec_dec_outLen (.inr rfl) rfl hexec, fun x hx => ?_⟩
    · rw [complete_mem, cbcDecEffect_mem]
      obtain ⟨-, -, -, hsize⟩ := passes_size s
      obtain ⟨-, -, -, hwf'⟩ := passes_wf s hwf
      exact bytesWritten_finalBlock ⟨hn, hmod⟩ hdst hwf' hsize _
    · simp only [complete, cbcDecEffect, setOutLen, precheckEffect]
      rfl
    · rw [complete_mem, cbcDecEffect_mem]
      obtain ⟨hlast, hbefore⟩ := load_unpadded_outside ⟨hn, hmod⟩ hpad hx
      exact hlast.trans (decPasses_load_outside hbefore).2

end Sys2Proof.Machine
end

section
/-! The ciphertext an encryption leaves where writing does not overtake reading (R192): `Cipher` of the blocks of the
padded message as it was, and what follows from that for equal blocks and for a changed block (R190, R193). -/

namespace Sys2Proof.Machine

section Ciphertext

variable {s : State} {i : Nat}

theorem ecbEncPass_ciphertext (hc : checkEcbEnc s = .ok) (hwf : s.mem.wf = true)
    (hover : noOverrun s.srcBase s.srcBytes s.dstBase) (hi : i < encBlocks s.srcBytes) :
    (ecbEncPass s).mem.loadBlock (s.dstBase + 16 * i) =
      cipher s.w s.nr.toNat (paddedBlock s.mem s.srcBase s.srcBytes i) := by
  have hwritten := ecbEncAfter_blocksWritten hc hwf
  calc (ecbEncPass s).mem.loadBlock (s.dstBase + 16 * i)
      = (ecbEncAfter s (i + 1)).sreg := hwritten.loadBlock_written hi
    _ = cipher s.w s.nr.toNat (paddedBlock (ecbEncAfter s i).mem s.srcBase s.srcBytes i) := ecbEncAfter_sreg s hi
    _ = cipher s.w s.nr.toNat (paddedBlock s.mem s.srcBase s.srcBytes i) :=
      congrArg _ (hwritten.paddedBlock_source hover hi.le)

theorem cbcEncPass_ciphertext (hc : checkCbcEnc s = .ok) (hwf : s.mem.wf = true)
    (hover : noOverrun s.srcBase s.srcBytes s.dstBase) (hi : i < encBlocks s.srcBytes) :
    (cbcEncPass s).mem.loadBlock (s.dstBase + 16 * i) =
      cipher s.w s.nr.toNat (blockXor (paddedBlock s.mem s.srcBase s.srcBytes i) (chainedFrom (s.mem.loadBlock s.ivBase)
        (fun j => (cbcEncPass s).mem.loadBlock (s.dstBase + 16 * j)) i)) := by
  have hwritten := cbcEncAfter_blocksWritten hc hwf
  have hread (j : Nat) (hj : j < encBlocks s.srcBytes) :
      (cbcEncPass s).mem.loadBlock (s.dstBase + 16 * j) = (cbcEncAfter s (j + 1)).sreg :=
    hwritten.loadBlock_written hj
  have hsource : paddedBlock (cbcEncAfter s i).mem s.srcBase s.srcBytes i =
      paddedBlock s.mem s.srcBase s.srcBytes i := hwritten.paddedBlock_source hover hi.le
  rw [hread i hi, cbcEncAfter_sreg s hi, hsource, chainedFrom_congr fun j hj => hread j (hj.trans hi)]

end Ciphertext

/-- Settles O48: the ciphertext each encryption leaves. -/
theorem ciphertextIsTheCipherOfThePaddedMessage : Obligations.CiphertextIsTheCipherOfThePaddedMessage := by
  unfold Obligations.CiphertextIsTheCipherOfThePaddedMessage
  rintro s n src dst rfl rfl rfl hwf hover
  refine ⟨fun hc => ⟨_, exec_ecbEnc_ok hc, rfl, fun i hi => ?_⟩, fun hc => ⟨_, exec_cbcEnc_ok hc, rfl, fun i hi => ?_⟩⟩
  · rw [complete_mem, ecbEncEffect_mem]
    exact ecbEncPass_ciphertext hc hwf hover hi
  · rw [complete_mem, cbcEncEffect_mem]
    exact cbcEncPass_ciphertext hc hwf hover hi

/-- Settles O51: each ciphertext block is `Cipher` of its plaintext block alone. -/
theorem ecbEqualBlocksGiveEqualCiphertext : Obligations.EcbEqualBlocksGiveEqualCiphertext := by
  unfold Obligations.EcbEqualBlocksGiveEqualCiphertext
  intro s s' i i' hw hnr hall hi hi' heq
  obtain ⟨hwf, hc, hover⟩ := hall s (by simp)
  obtain ⟨hwf', hc', hover'⟩ := hall s' (by simp)
  refine ⟨_, _, exec_ecbEnc_ok hc, exec_ecbEnc_ok hc', ?_⟩
  rw [complete_mem, ecbEncEffect_mem, complete_mem, ecbEncEffect_mem, ecbEncPass_ciphertext hc hwf hover hi,
    ecbEncPass_ciphertext hc' hwf' hover' hi', hw, hnr, heq]

section Diffusion

theorem cipher_injective (w : Schedule) (nr : Nat) : Function.Injective (cipher w nr) :=
  Function.LeftInverse.injective fun b => invCipher_cipher w b nr

theorem blockXor_left_injective (b : Block) : Function.Injective fun a => blockXor a b :=
  Function.LeftInverse.injective (g := fun a => blockXor a b) fun a => blockXor_blockXor a b

theorem blockXor_right_injective (a : Block) : Function.Injective (blockXor a) := fun b b' h =>
  blockXor_left_injective a (by simpa only [blockXor_comm _ a] using h)

variable {E : Block → Block} {iv : Block} {P P' c c' : Nat → Block} {N i : Nat}

/-- Two chains under one IV over plaintext that agrees before block `i` agree before block `i`. -/
theorem chain_eq_before (hc : ∀ j < N, c j = E (blockXor (P j) (chainedFrom iv c j)))
    (hc' : ∀ j < N, c' j = E (blockXor (P' j) (chainedFrom iv c' j))) (hP : ∀ j < i, P j = P' j) (hi : i ≤ N) :
    ∀ j < i, c j = c' j := by
  intro j
  induction j using Nat.strong_induction_on with
  | _ j ih =>
    intro hj
    rw [hc j (by omega), hc' j (by omega), hP j hj, chainedFrom_congr fun k hk => ih k hk (hk.trans hj)]

/-- If the plaintext differs in block `i` alone, every ciphertext block from `i` on differs: block `i` by its plaintext,
each later one by the block before it. -/
theorem chain_ne_from (hE : Function.Injective E) (hc : ∀ j < N, c j = E (blockXor (P j) (chainedFrom iv c j)))
    (hc' : ∀ j < N, c' j = E (blockXor (P' j) (chainedFrom iv c' j))) (hP : ∀ j ≠ i, P j = P' j) (hne : P i ≠ P' i)
    (j : Nat) (hij : i ≤ j) (hj : j < N) : c j ≠ c' j := by
  have hbefore := chain_eq_before hc hc' (fun k hk => hP k hk.ne) (hij.trans hj.le)
  induction j, hij using Nat.le_induction with
  | base =>
    rw [hc i hj, hc' i hj, chainedFrom_congr hbefore]
    exact fun h => hne (blockXor_left_injective _ (hE h))
  | succ j hij ih =>
    rw [hc _ hj, hc' _ hj, hP (j + 1) (by omega), chainedFrom_succ, chainedFrom_succ]
    exact fun h => ih (by omega) (blockXor_right_injective _ (hE h))

/-- Padded blocks agree where the message's bytes do: the padding depends on the length alone (R181). -/
theorem paddedBlock_congr {m m' : Memory} {a a' n j : Nat}
    (h : ∀ k < n, k / 16 = j → m.load (a + k) = m'.load (a' + k)) : paddedBlock m a n j = paddedBlock m' a' n j := by
  refine Vector.ext fun l hl => ?_
  simp only [paddedBlock, Vector.getElem_ofFn]
  split
  · next hlt => exact h _ hlt (by omega)
  · rfl

/-- Byte `k` of the message is in block `k / 16` of the padded message (R181). -/
theorem paddedBlock_getElem_message (m : Memory) (a : Nat) {n k : Nat} (hk : k < n) :
    (paddedBlock m a n (k / 16))[k % 16] = m.load (a + k) := by
  simp only [paddedBlock, Vector.getElem_ofFn]
  rw [Nat.div_add_mod, if_pos hk]

end Diffusion

/-- Settles O52: the two chains agree up to block `i`, differ at it, and the difference carries on. -/
theorem cbcDiffusion : Obligations.CbcDiffusion := by
  unfold Obligations.CbcDiffusion
  rintro s s' n i rfl hn hw hnr hiv hall hsame ⟨k, hk, rfl, hdiff⟩
  obtain ⟨hwf, hc, hover⟩ := hall s (by simp)
  obtain ⟨hwf', hc', hover'⟩ := hall s' (by simp)
  have hchain (j : Nat) (hj : j < encBlocks s.srcBytes) := cbcEncPass_ciphertext hc hwf hover hj
  have hchain' (j : Nat) (hj : j < encBlocks s.srcBytes) := cbcEncPass_ciphertext hc' hwf' hover' (hn ▸ hj)
  simp only [← hw, ← hnr, ← hiv, hn] at hchain'
  have hblocks (j : Nat) (hj : j ≠ k / 16) :
      paddedBlock s.mem s.srcBase s.srcBytes j = paddedBlock s'.mem s'.srcBase s.srcBytes j :=
    paddedBlock_congr fun l hl hlj => hsame l hl (hlj ▸ hj)
  have hblock :
      paddedBlock s.mem s.srcBase s.srcBytes (k / 16) ≠ paddedBlock s'.mem s'.srcBase s.srcBytes (k / 16) := by
    intro h
    refine hdiff ?_
    rw [← paddedBlock_getElem_message s.mem s.srcBase hk, ← paddedBlock_getElem_message s'.mem s'.srcBase hk, h]
  have hle : k / 16 ≤ encBlocks s.srcBytes := by unfold encBlocks; omega
  refine ⟨_, _, exec_cbcEnc_ok hc, exec_cbcEnc_ok hc', ?_, ?_⟩ <;>
    simp only [complete_mem, cbcEncEffect_mem]
  · exact chain_eq_before hchain hchain' (fun j hj => hblocks j hj.ne) hle
  · exact chain_ne_from (cipher_injective _ _) hchain hchain' hblocks hblock

end Sys2Proof.Machine
end

section
/-! Decrypting what an encryption wrote gives back the message (R191). -/

namespace Sys2Proof.Machine

section Padding

variable (m : Memory) (a n : Nat)

theorem paddedBlock_getElem_padding {i j : Nat} (hj : j < 16) (h : n ≤ 16 * i + j) :
    (paddedBlock m a n i)[j] = BitVec.ofNat 8 (padLength n) := by
  simp only [paddedBlock, Vector.getElem_ofFn]
  rw [if_neg (by omega), padLength]

/-- The last byte of the padded message is the number of pad bytes (R181). -/
theorem paddedBlock_last_toNat : (paddedBlock m a n (n / 16))[15].toNat = padLength n := by
  have hle := (padLength_bounds n).2
  rw [paddedBlock_getElem_padding m a n (by decide) (by omega), BitVec.toNat_ofNat]
  omega

/-- The final block of a padded message is well padded (R181, R182). -/
theorem goodPadding_paddedBlock : goodPadding (paddedBlock m a n (n / 16)) := by
  obtain ⟨hge, hle⟩ := padLength_bounds n
  unfold goodPadding
  rw [paddedBlock_last_toNat]
  refine ⟨hge, hle, fun j hj => ?_⟩
  have hpad : n ≤ 16 * (n / 16) + j.val := by unfold padLength at hj; omega
  exact (paddedBlock_getElem_padding m a n j.isLt hpad).trans
    (paddedBlock_getElem_padding m a n (by decide) (by omega)).symm

end Padding

section Decryption

variable {s : State} {i : Nat}

/-- What `ECB_DEC` makes of block `i` of the source as it is before the command (R185). -/
def ecbDecPlain (s : State) (i : Nat) : Block := invCipher s.w s.nr.toNat (s.mem.loadBlock (s.srcBase + 16 * i))

/-- What `CBC_DEC` makes of block `i` of the source as it is before the command (R187). -/
def cbcDecPlain (s : State) (i : Nat) : Block :=
  blockXor (invCipher s.w s.nr.toNat (s.mem.loadBlock (s.srcBase + 16 * i)))
    (chainedFrom (s.mem.loadBlock s.ivBase) (fun j => s.mem.loadBlock (s.srcBase + 16 * j)) i)

theorem ecbDecHold_eq_plain (s : State) : ecbDecHold s = ecbDecPlain s (decBlocks s.srcBytes - 1) := rfl

theorem cbcDecHold_eq_plain (h : decBlocks s.srcBytes ≠ 0) :
    cbcDecHold s = cbcDecPlain s (decBlocks s.srcBytes - 1) := by
  obtain ⟨N, hN⟩ := Nat.exists_eq_succ_of_ne_zero h
  have hchain : cbcDecChain s = chainedFrom (s.mem.loadBlock s.ivBase)
      (fun j => s.mem.loadBlock (s.srcBase + 16 * j)) (decBlocks s.srcBytes - 1) := by
    rw [cbcDecChain, hN]
    cases N with
    | zero => rfl
    | succ N => exact if_neg (by omega)
  rw [cbcDecHold, hchain]
  rfl

/-- Where writing does not overtake reading, the main pass writes the plaintext of the source as it was (R192). -/
theorem ecbDecAfter_plain (hc : checkEcbDec s = .ok) (hwf : s.mem.wf = true)
    (hover : noOverrun s.srcBase s.srcBytes s.dstBase) :
    BlocksWritten (fun k => (ecbDecAfter s k).mem) (ecbDecPlain s) s.dstBase (decBlocks s.srcBytes - 1) := by
  have hwritten := ecbDecAfter_blocksWritten hc hwf
  refine hwritten.congr fun i hi => ?_
  have hsource : (ecbDecAfter s i).mem.loadBlock (s.srcBase + 16 * i) = s.mem.loadBlock (s.srcBase + 16 * i) :=
    hwritten.loadBlock_source hover hi.le (by unfold decBlocks at hi; omega)
  rw [ecbDecAfter_sreg, hsource, ecbDecPlain]

theorem cbcDecAfter_plain (hc : checkCbcDec s = .ok) (hwf : s.mem.wf = true)
    (hover : noOverrun s.srcBase s.srcBytes s.dstBase) :
    BlocksWritten (fun k => (cbcDecAfter s k).mem) (cbcDecPlain s) s.dstBase (decBlocks s.srcBytes - 1) := by
  have hwritten := cbcDecAfter_blocksWritten hc hwf
  have hsource (j : Nat) (hj : j < decBlocks s.srcBytes - 1) :
      (cbcDecAfter s j).mem.loadBlock (s.srcBase + 16 * j) = s.mem.loadBlock (s.srcBase + 16 * j) :=
    hwritten.loadBlock_source hover hj.le (by unfold decBlocks at hj; omega)
  refine hwritten.congr fun i hi => ?_
  rw [cbcDecAfter_sreg, hsource i hi, chainedFrom_congr fun j hj => hsource j (hj.trans hi), cbcDecPlain]

theorem unpadded_getD (b : Block) {j : Nat} (hj : j < 16 - b[15].toNat) : (unpadded b).getD j 0 = b[j] := by
  rw [List.getD_eq_getElem _ _ (by rwa [unpadded_length])]
  simp [unpadded]

/-- The main pass and the write of the unpadded final block leave the message, if the blocks they write are those of the
padded message (R181, R185). -/
theorem load_message {M : Nat → Memory} {P : Nat → Block} {m m' : Memory} {a dst n L k : Nat} (hL : L = n / 16)
    (hP : ∀ i ≤ n / 16, P i = paddedBlock m a n i) (hwritten : BlocksWritten M P dst L)
    (hfinal : BytesWritten (M L) m' (dst + 16 * L) (unpadded (P L))) (hk : k < n) :
    m'.load (dst + k) = m.load (a + k) := by
  subst hL
  have hlast : (P (n / 16))[15].toNat = padLength n := by rw [hP _ le_rfl, paddedBlock_last_toNat]
  have hbyte : (P (k / 16))[k % 16] = m.load (a + k) := by
    rw [hP _ (Nat.div_le_div_right hk.le), paddedBlock_getElem_message m a hk]
  have haddr : dst + k = dst + 16 * (k / 16) + k % 16 := by omega
  have hj : k % 16 < 16 := Nat.mod_lt _ (by decide)
  rcases (Nat.div_le_div_right hk.le : k / 16 ≤ n / 16).lt_or_eq with hlt | heq
  · rw [hfinal.load_outside (by omega), haddr, hwritten.load_written hlt hj, hbyte]
  · have hin : k % 16 < 16 - (P (n / 16))[15].toNat := by rw [hlast, padLength]; omega
    obtain ⟨-, -, hload⟩ := hfinal
    rw [hload, if_pos (by rw [unpadded_length]; omega), haddr, heq, Nat.add_sub_cancel_left, unpadded_getD _ hin]
    simpa only [heq] using hbyte

/-- A padded message has one block more than the message has whole blocks (R181, R183). -/
theorem decBlocks_encBytes (n : Nat) : decBlocks (encBytes n) = n / 16 + 1 := by
  unfold decBlocks encBytes encBlocks
  omega

/-- A decryption whose final block is that of a padded message reports the message's length (R183, R185). -/
theorem outLen_of_padded {c : Instr} {t : State} {m : Memory} {a n : Nat} (hi : c = .ecbDec ∨ c = .cbcDec)
    (hexec : exec c s = .next t) (he : t.err = .ok) (hlen : s.srcBytes = encBytes n)
    (hhold : t.hold = paddedBlock m a n (n / 16)) : t.outLen.toNat = n := by
  rw [exec_dec_outLen hi he hexec, hhold, paddedBlock_last_toNat, ← State.srcBytes, hlen, encBytes_eq,
    Nat.add_sub_cancel]

/-- `ECB_DEC` of a source whose blocks decrypt to those of a padded message gives the message (R185). -/
theorem exec_ecbDec_of_padded {m : Memory} {a n : Nat} (hc : checkEcbDec s = .ok) (hwf : s.mem.wf = true)
    (hover : noOverrun s.srcBase s.srcBytes s.dstBase) (hlen : s.srcBytes = encBytes n)
    (hP : ∀ i ≤ n / 16, ecbDecPlain s i = paddedBlock m a n i) :
    ∃ u, exec .ecbDec s = .next u ∧ u.err = .ok ∧ u.outLen.toNat = n ∧
      ∀ k, k < n → u.mem.load (s.dstBase + k) = m.load (a + k) := by
  obtain ⟨-, hn, -, hdst⟩ := (checkEcbDec_ok_iff s).mp hc
  have hL : decBlocks s.srcBytes - 1 = n / 16 := by rw [hlen, decBlocks_encBytes, Nat.add_sub_cancel]
  have hhold : ecbDecHold s = paddedBlock m a n (n / 16) := by rw [ecbDecHold_eq_plain, hL, hP _ le_rfl]
  have hexec := exec_ecbDec_ok hc ((padOK_iff _).mpr (hhold ▸ goodPadding_paddedBlock m a n))
  refine ⟨_, hexec, rfl, ?_, fun k hk => ?_⟩
  · exact outLen_of_padded (.inl rfl) hexec rfl hlen (by rw [complete_hold, ecbDecEffect_hold, hhold])
  · rw [complete_mem, ecbDecEffect_mem]
    obtain ⟨-, -, hsize, -⟩ := passes_size s
    obtain ⟨-, -, hwf', -⟩ := passes_wf s hwf
    exact load_message hL hP (ecbDecAfter_plain hc hwf hover) (bytesWritten_finalBlock hn hdst hwf' hsize _) hk

/-- `CBC_DEC` of a source whose blocks decrypt and unchain to those of a padded message gives the message (R187). -/
theorem exec_cbcDec_of_padded {m : Memory} {a n : Nat} (hc : checkCbcDec s = .ok) (hwf : s.mem.wf = true)
    (hover : noOverrun s.srcBase s.srcBytes s.dstBase) (hlen : s.srcBytes = encBytes n)
    (hP : ∀ i ≤ n / 16, cbcDecPlain s i = paddedBlock m a n i) :
    ∃ u, exec .cbcDec s = .next u ∧ u.err = .ok ∧ u.outLen.toNat = n ∧
      ∀ k, k < n → u.mem.load (s.dstBase + k) = m.load (a + k) := by
  obtain ⟨-, hn, -, -, -, hdst⟩ := (checkCbcDec_ok_iff s).mp hc
  have hN : decBlocks s.srcBytes = n / 16 + 1 := by rw [hlen, decBlocks_encBytes]
  have hL : decBlocks s.srcBytes - 1 = n / 16 := by rw [hN, Nat.add_sub_cancel]
  have hplain := cbcDecHold_eq_plain (s := s) (by omega)
  have hhold : cbcDecHold s = paddedBlock m a n (n / 16) := by rw [hplain, hL, hP _ le_rfl]
  have hexec := exec_cbcDec_ok hc ((padOK_iff _).mpr (hhold ▸ goodPadding_paddedBlock m a n))
  refine ⟨_, hexec, rfl, ?_, fun k hk => ?_⟩
  · exact outLen_of_padded (.inr rfl) hexec rfl hlen (by rw [complete_hold, cbcDecEffect_hold, hhold])
  · rw [complete_mem, cbcDecEffect_mem]
    obtain ⟨-, -, -, hsize⟩ := passes_size s
    obtain ⟨-, -, -, hwf'⟩ := passes_wf s hwf
    exact load_message hL hP (cbcDecAfter_plain hc hwf hover)
      (hplain ▸ bytesWritten_finalBlock hn hdst hwf' hsize _) hk

end Decryption

section ReadingBack

/-- The state `t` after an encryption from `s`, with the operands of a decryption of its output to `back` latched. -/
def readingBack (s t : State) (back : Nat) : State :=
  { t with lat := { t.lat with srcAddr := s.lat.dstAddr, srcLen := t.outLen, dstAddr := BitVec.ofNat 32 back } }

theorem readingBack_mem (s t : State) (back : Nat) : (readingBack s t back).mem = t.mem := rfl
theorem readingBack_w (s t : State) (back : Nat) : (readingBack s t back).w = t.w := rfl
theorem readingBack_nr (s t : State) (back : Nat) : (readingBack s t back).nr = t.nr := rfl
theorem readingBack_srcBase (s t : State) (back : Nat) : (readingBack s t back).srcBase = s.dstBase := rfl
theorem readingBack_ivBase (s t : State) (back : Nat) : (readingBack s t back).ivBase = t.lat.ivAddr.toNat := rfl
theorem readingBack_ivBytes (s t : State) (back : Nat) : (readingBack s t back).ivBytes = t.lat.ivLen.toNat := rfl

variable {s t : State} {back : Nat}

theorem readingBack_dstBase (h : back < 2 ^ 32) : (readingBack s t back).dstBase = back := by
  simp only [readingBack, State.dstBase, BitVec.toNat_ofNat, Nat.mod_eq_of_lt h]

/-- The decryption's lengths and ranges pass its checks (R185, R187). -/
theorem readingBack_ranges (hlen : (readingBack s t back).srcBytes = encBytes s.srcBytes)
    (hback : (readingBack s t back).dstBase = back) (hsize : t.mem.size = s.mem.size)
    (hdst : rangeFits s s.dstBase (encBytes s.srcBytes)) (hfit : back + encBytes s.srcBytes ≤ s.mem.size) :
    ((readingBack s t back).srcBytes ≠ 0 ∧ (readingBack s t back).srcBytes % 16 = 0) ∧
      rangeFits (readingBack s t back) (readingBack s t back).srcBase (readingBack s t back).srcBytes ∧
      rangeFits (readingBack s t back) (readingBack s t back).dstBase (readingBack s t back).srcBytes := by
  unfold rangeFits at *
  rw [hlen, hback, readingBack_mem, readingBack_srcBase, hsize]
  exact ⟨by unfold encBytes encBlocks; omega, hdst, .inr hfit⟩

/-- An encryption that has completed has left the key as its own checks found it, so the decryption's pass too. -/
theorem checkEcbDec_readingBack (hexec : exec .ecbEnc s = .next t) (hc : checkEcbEnc s = .ok)
    (hlen : (readingBack s t back).srcBytes = encBytes s.srcBytes) (hback : (readingBack s t back).dstBase = back)
    (hfit : back + encBytes s.srcBytes ≤ s.mem.size) : checkEcbDec (readingBack s t back) = .ok := by
  obtain ⟨hk, -, hdst⟩ := (checkEcbEnc_ok_iff s).mp hc
  obtain ⟨hkey, -, -⟩ := exec_keeps_key (by decide) hexec
  exact (checkEcbDec_ok_iff _).mpr
    ⟨hkey.trans hk, readingBack_ranges hlen hback (exec_frame hexec).size hdst hfit⟩

theorem checkCbcDec_readingBack (hexec : exec .cbcEnc s = .next t) (hc : checkCbcEnc s = .ok)
    (hlen : (readingBack s t back).srcBytes = encBytes s.srcBytes) (hback : (readingBack s t back).dstBase = back)
    (hfit : back + encBytes s.srcBytes ≤ s.mem.size) : checkCbcDec (readingBack s t back) = .ok := by
  obtain ⟨hk, hiv, hivFits, -, hdst⟩ := (checkCbcEnc_ok_iff s).mp hc
  obtain ⟨hkey, -, -⟩ := exec_keeps_key (by decide) hexec
  have hframe := exec_frame hexec
  have hiv' : (readingBack s t back).ivBytes = 16 := by rw [readingBack_ivBytes, hframe.lat]; exact hiv
  have hivFits' : rangeFits (readingBack s t back) (readingBack s t back).ivBase 16 := by
    unfold rangeFits
    rw [readingBack_ivBase, readingBack_mem, hframe.lat, hframe.size]
    exact hivFits
  obtain ⟨hn, hranges⟩ := readingBack_ranges hlen hback hframe.size hdst hfit
  exact (checkCbcDec_ok_iff _).mpr ⟨hkey.trans hk, hn, hiv', hivFits', hranges⟩

variable {k : Nat}

/-- `InvCipher` undoes the `Cipher` that made block `k` of the ciphertext (R150, R184). -/
theorem ecbDecPlain_readingBack (hc : checkEcbEnc s = .ok) (hwf : s.mem.wf = true)
    (hover : noOverrun s.srcBase s.srcBytes s.dstBase) (hk : k < encBlocks s.srcBytes) :
    ecbDecPlain (readingBack s (complete .ok (ecbEncEffect s)) back) k = paddedBlock s.mem s.srcBase s.srcBytes k := by
  have hplain : ecbDecPlain (readingBack s (complete .ok (ecbEncEffect s)) back) k =
      invCipher s.w s.nr.toNat ((ecbEncPass s).mem.loadBlock (s.dstBase + 16 * k)) := by
    simp only [ecbDecPlain, readingBack_mem, readingBack_w, readingBack_nr, readingBack_srcBase, complete_mem,
      complete_w, complete_nr, ecbEncEffect_mem, ecbEncEffect_w, ecbEncEffect_nr]
  rw [hplain, ecbEncPass_ciphertext hc hwf hover hk, invCipher_cipher]

/-- So it does for CBC, and the same chaining value is XORed out again (R150, R186). -/
theorem cbcDecPlain_readingBack (hc : checkCbcEnc s = .ok) (hwf : s.mem.wf = true)
    (hover : noOverrun s.srcBase s.srcBytes s.dstBase)
    (hiv : (cbcEncPass s).mem.loadBlock s.ivBase = s.mem.loadBlock s.ivBase) (hk : k < encBlocks s.srcBytes) :
    cbcDecPlain (readingBack s (complete .ok (cbcEncEffect s)) back) k = paddedBlock s.mem s.srcBase s.srcBytes k := by
  have hplain : cbcDecPlain (readingBack s (complete .ok (cbcEncEffect s)) back) k =
      blockXor (invCipher s.w s.nr.toNat ((cbcEncPass s).mem.loadBlock (s.dstBase + 16 * k)))
        (chainedFrom ((cbcEncPass s).mem.loadBlock s.ivBase)
          (fun j => (cbcEncPass s).mem.loadBlock (s.dstBase + 16 * j)) k) := by
    simp only [cbcDecPlain, readingBack_mem, readingBack_w, readingBack_nr, readingBack_srcBase, readingBack_ivBase,
      complete_mem, complete_w, complete_nr, complete_lat, cbcEncEffect_mem, cbcEncEffect_w, cbcEncEffect_nr,
      cbcEncEffect_lat]
    rfl
  rw [hplain, hiv, cbcEncPass_ciphertext hc hwf hover hk, invCipher_cipher, blockXor_blockXor]

/-- An IV outside the destination is not overwritten. -/
theorem cbcEncPass_iv (h : s.ivBase + 16 ≤ s.dstBase ∨ s.dstBase + encBytes s.srcBytes ≤ s.ivBase) :
    (cbcEncPass s).mem.loadBlock s.ivBase = s.mem.loadBlock s.ivBase := by
  refine Vector.ext fun j hj => ?_
  rw [Memory.loadBlock_getElem, Memory.loadBlock_getElem]
  exact (encPasses_load_outside (by omega)).2

end ReadingBack

/-- Settles O49: `ECB_DEC` finds at the destination `Cipher` of each block of the padded message. -/
theorem ecbRoundTrip : Obligations.EcbRoundTrip := by
  unfold Obligations.EcbRoundTrip
  rintro s n src dst back rfl rfl rfl hwf hsize hc hover hover' hfit
  have hexec := exec_ecbEnc_ok hc
  have hlen : (readingBack s _ back).srcBytes = encBytes s.srcBytes := exec_enc_outLen (.inl rfl) rfl hsize hexec
  have hback := readingBack_dstBase (s := s) (t := complete .ok (ecbEncEffect s))
    (show back < 2 ^ 32 by unfold Config.maxMemSize at hsize; omega)
  have hwf' := (exec_frame hexec).wf hwf
  rw [← readingBack_mem s _ back] at hwf'
  obtain ⟨u, hu, herr, hout, hload⟩ := exec_ecbDec_of_padded
    (checkEcbDec_readingBack hexec hc hlen hback hfit) hwf' (by rw [hlen, hback]; exact hover') hlen
    (fun k hk => ecbDecPlain_readingBack hc hwf hover (Nat.lt_succ_of_le hk))
  rw [hback] at hload
  exact ⟨_, u, hexec, hu, herr, hout, hload⟩

/-- Settles O50: `CBC_DEC` finds at the destination the chain that `CBC_ENC` made, and the IV as it was. -/
theorem cbcRoundTrip : Obligations.CbcRoundTrip := by
  unfold Obligations.CbcRoundTrip
  rintro s n src dst iv back rfl rfl rfl rfl hwf hsize hc hover hover' hfit hivKept
  have hexec := exec_cbcEnc_ok hc
  have hlen : (readingBack s _ back).srcBytes = encBytes s.srcBytes := exec_enc_outLen (.inr rfl) rfl hsize hexec
  have hback := readingBack_dstBase (s := s) (t := complete .ok (cbcEncEffect s))
    (show back < 2 ^ 32 by unfold Config.maxMemSize at hsize; omega)
  have hwf' := (exec_frame hexec).wf hwf
  rw [← readingBack_mem s _ back] at hwf'
  obtain ⟨u, hu, herr, hout, hload⟩ := exec_cbcDec_of_padded
    (checkCbcDec_readingBack hexec hc hlen hback hfit) hwf' (by rw [hlen, hback]; exact hover') hlen
    (fun k hk => cbcDecPlain_readingBack hc hwf hover (cbcEncPass_iv hivKept) (Nat.lt_succ_of_le hk))
  rw [hback] at hload
  exact ⟨_, u, hexec, hu, herr, hout, hload⟩

end Sys2Proof.Machine
end

section
/-! Acceptance of a command and its first step: a CMD write idle and busy, the word it brings, and `NOP`
(R201 to R206). -/

namespace Sys2Proof.Machine

section Acceptance

variable {s : State} {v : Word} {rest : List Move}

/-- A CMD write while idle is acceptance of the word (R201). -/
theorem step_cmdWrite_idle (hf : s.fsm = .idle) (ha : s.agenda = .regWrite .word 0x00 v :: rest) :
    step s = .next (accept v { s with agenda := rest }) := by
  have hidle : { s with agenda := rest }.fsm = .idle := hf
  rw [step_regWrite_ok (by decide) (by decide) ha, ← writeCmd_idle hidle]
  rfl

/-- A CMD write while busy only sets OVR (R202). -/
theorem step_cmdWrite_busy (hf : s.fsm ≠ .idle) (ha : s.agenda = .regWrite .word 0x00 v :: rest) :
    step s = .next { s with agenda := rest, ovr := true } := by
  have hbusy : { s with agenda := rest }.fsm ≠ .idle := hf
  rw [step_regWrite_ok (by decide) (by decide) ha]
  exact congrArg _ (writeCmd_busy hbusy v)

theorem accept_of_agenda (v : Word) (s : State) (ms : List Move) :
    accept v { s with agenda := ms } = { accept v s with agenda := ms } := rfl

/-- Once accepted, the word is what the engine runs next (R201, R203). -/
theorem step_accepted (v : Word) (s : State) :
    step { accept v s with agenda := [] } = settleOutcome (runCommand { accept v s with agenda := [] }) := by
  rw [step_nil rfl, engineMove_check rfl]

/-- No host access was forbidden since acceptance, so a command that starts at once has nothing to settle (R56(d)). -/
theorem settleOutcome_exec_of_no_hazard (i : Instr) (hz : s.hazard = false) :
    settleOutcome (exec i s) = exec i s := by
  obtain ⟨t, ht, -⟩ := exec_completes i s
  rw [ht, settleOutcome_next, settle_of_no_hazard t ((exec_frame ht).hazard.trans hz)]

end Acceptance

/-- Settles O4: from CHECK the engine's move is `runCommand`, and what follows acceptance has nothing to settle. -/
theorem stepRunsTheDecodedCommand : Obligations.StepRunsTheDecodedCommand := by
  unfold Obligations.StepRunsTheDecodedCommand
  have hstep (s : State) (i : Instr) (hf : s.fsm = .check) (hd : decode s.lat.cmd = .command i) :
      engineMove s = settleOutcome (exec i s) := by
    rw [engineMove_check hf, runCommand_command hd]
  refine ⟨fun s i hf hd => ⟨fun ha => ?_, fun ha hz => ?_, fun rest ha => ?_⟩, fun s w i hd => ⟨?_,
    withFetchWord_eq s w, fun hf ha => ?_⟩⟩
  · rw [step_nil ha, hstep s i hf hd]
  · rw [step_nil ha, hstep s i hf hd, settleOutcome_exec_of_no_hazard i hz]
  · rw [step_engine ha]
    exact hstep { s with agenda := rest } i hf hd
  · rw [withFetchWord_eq, step_accepted, runCommand_command (i := i) (by exact hd),
      settleOutcome_exec_of_no_hazard i rfl]
  · rw [withFetchWord_eq, step_cmdWrite_idle hf ha, accept_of_agenda]

/-- Settles O6: a CMD write while idle is `accept`, and an illegal word then completes with its error. -/
theorem acceptanceLatchesEveryOperand : Obligations.AcceptanceLatchesEveryOperand := by
  unfold Obligations.AcceptanceLatchesEveryOperand
  refine ⟨fun s v rest hf ha => ⟨_, step_cmdWrite_idle hf ha, rfl⟩, fun s v y hf hd => ?_⟩
  have hw : writeReg .cmd v s = accept v s := writeCmd_idle hf v
  refine ⟨raiseError .illegalCommand (accept v s), ?_, rfl, rfl, rfl⟩
  rw [hw, engineMove_check rfl, runCommand_illegal (s := accept v s) hd, settleOutcome_next, settle_of_no_hazard]
  rfl

/-- Settles O7. -/
theorem commandWriteWhileBusyIsDropped : Obligations.CommandWriteWhileBusyIsDropped := by
  unfold Obligations.CommandWriteWhileBusyIsDropped
  exact fun s v rest hf ha => step_cmdWrite_busy hf ha

/-- Settles O23: of the words with OP 0 only `NOP` itself has ARG and RSV 0. -/
theorem nopOnlyCompletes : Obligations.NopOnlyCompletes := by
  unfold Obligations.NopOnlyCompletes
  refine ⟨by decide, fun w hop hw => ?_, fun s => exec_nop s, _, exec_nop _, by decide⟩
  rw [exists_decode_eq_illegal_iff, hop]
  have hne : w.toNat ≠ 0 := fun h => hw (BitVec.eq_of_toNat_eq h)
  omega

end Sys2Proof.Machine
end

section
/-! The control state machine terminates (R211): a bound on the steps still to come falls with every step. -/

namespace Sys2Proof.Machine

/-- The number of blocks of the latched command, 0 for an illegal word (R183). -/
def latchedBlocks (s : State) : Nat :=
  match s.latched with
  | .command i => modeBlocks i s
  | .illegal _ => 0

/-- A bound on the steps from BLK_OUT of the block in hand on: at most 18 for each later block, and, while a decryption
works on its final block first, PAD_CHK and the main pass. -/
def stepsFromBlockOut (s : State) : Nat :=
  2 + 18 * (latchedBlocks s - (s.blk + 1)) + if s.scratch.precheck then 19 + 18 * latchedBlocks s else 0

/-- A bound on the steps of R207 still to come, from CHECK the bound of R211. -/
def stepsLeft (s : State) : Nat :=
  match s.fsm with
  | .idle => 0
  | .check => tickBound s
  | .xform => 2
  | .kload => 64
  | .kexp => 2 + (4 * (nrOf s.keyBytes + 1) - s.kidx)
  | .blkIn => 17 + stepsFromBlockOut s
  | .encRnd => 1 + (s.nr.toNat - s.rnd) + stepsFromBlockOut s
  | .decRnd => 1 + s.rnd + stepsFromBlockOut s
  | .padChk => 20 + 18 * latchedBlocks s
  | .blkOut => stepsFromBlockOut s
  | .finish => 1

/-- From `s` to `t` the machine stays busy and comes nearer to completion. -/
structure Progress (s t : State) : Prop where
  busy : t.fsm ≠ .idle
  less : stepsLeft t < stepsLeft s

section Bounds

variable {s t : State}

theorem latchedBlocks_of_command {i : Instr} (hl : s.latched = .command i) : latchedBlocks s = modeBlocks i s := by
  simp only [latchedBlocks, hl]

theorem latchedBlocks_congr (hl : t.lat = s.lat) : latchedBlocks t = latchedBlocks s := by
  simp only [latchedBlocks, State.latched, hl]
  split
  · exact modeBlocks_congr _ hl
  · rfl

/-- A command has at most `SRC_LEN div 16 + 1` blocks (R183). -/
theorem latchedBlocks_le (s : State) : latchedBlocks s ≤ s.srcBytes / 16 + 1 := by
  unfold latchedBlocks
  split
  · next i _ => cases i <;> simp [modeBlocks, encBlocks, decBlocks]
  · exact Nat.zero_le _

theorem stepsFromBlockOut_congr (hl : t.lat = s.lat) (hb : t.blk = s.blk)
    (hp : t.scratch.precheck = s.scratch.precheck) : stepsFromBlockOut t = stepsFromBlockOut s := by
  rw [stepsFromBlockOut, stepsFromBlockOut, latchedBlocks_congr hl, hb, hp]

theorem two_le_stepsFromBlockOut (s : State) : 2 ≤ stepsFromBlockOut s := by
  rw [stepsFromBlockOut, Nat.add_assoc]
  exact Nat.le_add_right _ _

/-! Where a step can go: each target state with what it needs of the steps left. -/

/-- FINISH is one step from completion. -/
theorem Progress.of_finish (hf : t.fsm = .finish) (h : 1 < stepsLeft s) : Progress s t :=
  ⟨by rw [hf]; decide, by simpa only [stepsLeft, hf] using h⟩

theorem Progress.of_kexp (hf : t.fsm = .kexp) (hl : t.lat = s.lat)
    (h : 2 + (4 * (nrOf s.keyBytes + 1) - t.kidx) < stepsLeft s) : Progress s t :=
  ⟨by rw [hf]; decide, by simpa only [stepsLeft, hf, State.keyBytes, hl] using h⟩

theorem Progress.of_blkIn (hf : t.fsm = .blkIn) (h : 17 + stepsFromBlockOut t < stepsLeft s) : Progress s t :=
  ⟨by rw [hf]; decide, by simpa only [stepsLeft, hf] using h⟩

theorem Progress.of_encRnd (hf : t.fsm = .encRnd)
    (h : 1 + (t.nr.toNat - t.rnd) + stepsFromBlockOut t < stepsLeft s) : Progress s t :=
  ⟨by rw [hf]; decide, by simpa only [stepsLeft, hf] using h⟩

theorem Progress.of_decRnd (hf : t.fsm = .decRnd) (h : 1 + t.rnd + stepsFromBlockOut t < stepsLeft s) :
    Progress s t :=
  ⟨by rw [hf]; decide, by simpa only [stepsLeft, hf] using h⟩

theorem Progress.of_padChk (hf : t.fsm = .padChk) (hl : t.lat = s.lat)
    (h : 20 + 18 * latchedBlocks s < stepsLeft s) : Progress s t :=
  ⟨by rw [hf]; decide, by simpa only [stepsLeft, hf, latchedBlocks_congr hl] using h⟩

theorem Progress.of_blkOut (hf : t.fsm = .blkOut) (h : stepsFromBlockOut t < stepsLeft s) : Progress s t :=
  ⟨by rw [hf]; decide, by simpa only [stepsLeft, hf] using h⟩

end Bounds

section PerState

variable {s : State}

/-- The steps from the first block in hand on, the pre-check of a decryption included. -/
theorem stepsFromBlockOut_start {t : State} (hl : t.lat = s.lat)
    (h : latchedBlocks s ≤ t.blk + 1 ∨ t.scratch.precheck = false) :
    stepsFromBlockOut t ≤ 39 + 18 * (s.srcBytes / 16) := by
  have hn := latchedBlocks_le s
  rw [stepsFromBlockOut, latchedBlocks_congr hl]
  rcases h with h | h
  · split <;> omega
  · rw [h, if_neg (by decide)]
    omega

theorem startCommand_progress {i : Instr} (hf : s.fsm = .check) (hl : s.latched = .command i) :
    Progress s (startCommand i s) := by
  have hs : stepsLeft s = 4 + 60 + (s.srcBytes / 16 + 2) * (3 + 15) := by simp only [stepsLeft, hf, tickBound]
  have hnr := s.nr.isLt
  have hmode := latchedBlocks_of_command hl
  have start (t : State) (hlat : t.lat = s.lat) (h : latchedBlocks s ≤ t.blk + 1 ∨ t.scratch.precheck = false) :
      17 + stepsFromBlockOut t < stepsLeft s := by
    have hle := stepsFromBlockOut_start hlat h
    omega
  have noBlocks (h : modeBlocks i s = 0) (n : Nat) : latchedBlocks s ≤ n := by rw [hmode, h]; exact Nat.zero_le n
  cases i with
  | keyExpand => exact ⟨nofun, by simp only [stepsLeft, startCommand] at hs ⊢; omega⟩
  | cipherBlock =>
    have h := start (startCommand .cipherBlock s) rfl (.inl (noBlocks rfl _))
    refine .of_encRnd rfl ?_
    change 1 + (s.nr.toNat - 0) + _ < _
    omega
  | invCipherBlock =>
    have h := start (startCommand .invCipherBlock s) rfl (.inl (noBlocks rfl _))
    refine .of_decRnd rfl ?_
    change 1 + s.nr.toNat + _ < _
    omega
  | ecbEnc => exact .of_blkIn rfl (start _ rfl (.inr rfl))
  | cbcEnc => exact .of_blkIn rfl (start _ rfl (.inr rfl))
  | ecbDec => exact .of_blkIn rfl (start _ rfl (.inl (by rw [hmode]; exact Nat.le_add_of_sub_le le_rfl)))
  | cbcDec => exact .of_blkIn rfl (start _ rfl (.inl (by rw [hmode]; exact Nat.le_add_of_sub_le le_rfl)))
  | _ => exact ⟨nofun, by simp only [stepsLeft, startCommand] at hs ⊢; omega⟩

theorem tickCheck_progress (hf : s.fsm = .check) : Progress s (tickCheck s) := by
  have h1 : 1 < stepsLeft s := by simp only [stepsLeft, hf, tickBound]; omega
  unfold tickCheck
  split
  · exact .of_finish rfl h1
  · split
    · exact startCommand_progress hf ‹_›
    · exact .of_finish rfl h1

theorem tickXform_progress (hf : s.fsm = .xform) : Progress s (tickXform s) := by
  have h1 : 1 < stepsLeft s := by simp only [stepsLeft, hf]; decide
  unfold tickXform
  split
  · exact .of_finish rfl h1
  · exact .of_finish rfl h1

theorem tickKload_progress (hf : s.fsm = .kload) : Progress s (tickKload s) := by
  have hs : stepsLeft s = 64 := by simp only [stepsLeft, hf]
  have hnr := nrOf_le s.keyBytes
  unfold tickKload
  split
  · exact .of_kexp (by simp only [loadKey]) (by simp only [loadKey]) (by omega)
  · exact .of_finish rfl (by omega)

theorem tickKexp_progress (hf : s.fsm = .kexp) : Progress s (tickKexp s) := by
  have hs : stepsLeft s = 2 + (4 * (nrOf s.keyBytes + 1) - s.kidx) := by simp only [stepsLeft, hf]
  have ends {t : State} (ht : t.fsm = .finish) : Progress s t := .of_finish ht (by omega)
  unfold tickKexp expandOneWord
  split
  · split
    · by_cases hk : s.kidx + 1 < 4 * (nrOf s.keyBytes + 1)
      · exact .of_kexp (if_pos hk) rfl (by simp only; omega)
      · exact ends (if_neg hk)
    · exact ends rfl
  · exact ends rfl

theorem tickBlockIn_progress (hf : s.fsm = .blkIn) : Progress s (tickBlockIn s) := by
  have hs : stepsLeft s = 17 + stepsFromBlockOut s := by simp only [stepsLeft, hf]
  have hnr := s.nr.isLt
  have enc (cbc : Bool) : Progress s (tickBlockInEnc cbc s) := by
    have he : stepsFromBlockOut (tickBlockInEnc cbc s) = stepsFromBlockOut s := stepsFromBlockOut_congr rfl rfl rfl
    refine .of_encRnd rfl ?_
    change 1 + (s.nr.toNat - 0) + _ < _
    omega
  have dec (cbc : Bool) : Progress s (tickBlockInDecrypt cbc s) := by
    have hpre : stepsFromBlockOut (tickBlockInPre cbc s) = stepsFromBlockOut s := stepsFromBlockOut_congr rfl rfl rfl
    have hdec : stepsFromBlockOut (tickBlockInDec cbc s) = stepsFromBlockOut s := stepsFromBlockOut_congr rfl rfl rfl
    unfold tickBlockInDecrypt
    split
    · refine .of_decRnd rfl ?_
      change 1 + s.nr.toNat + _ < _
      omega
    · refine .of_decRnd rfl ?_
      change 1 + s.nr.toNat + _ < _
      omega
  unfold tickBlockIn
  split
  · exact enc _
  · exact enc _
  · exact dec _
  · exact dec _
  · exact .of_finish rfl (by omega)

theorem tickEncRound_progress (hf : s.fsm = .encRnd) : Progress s (tickEncRound s) := by
  have hs : stepsLeft s = 1 + (s.nr.toNat - s.rnd) + stepsFromBlockOut s := by simp only [stepsLeft, hf]
  have h2 := two_le_stepsFromBlockOut s
  have he : stepsFromBlockOut (tickEncRound s) = stepsFromBlockOut s := stepsFromBlockOut_congr rfl rfl rfl
  by_cases hr : s.rnd < s.nr.toNat
  · have hrnd : (tickEncRound s).rnd = s.rnd + 1 := if_pos hr
    have hnr : (tickEncRound s).nr = s.nr := rfl
    exact .of_encRnd (if_pos hr) (by rw [hrnd, hnr]; omega)
  · by_cases hl : s.latched = .command .cipherBlock
    · exact .of_finish (by simp only [tickEncRound, if_neg hr, if_pos hl]) (by omega)
    · exact .of_blkOut (by simp only [tickEncRound, if_neg hr, if_neg hl]) (by omega)

/-- After the last round of a decryption: PAD_CHK, or BLK_OUT of the same block. -/
theorem leaveDecRound_progress (h : 1 + stepsFromBlockOut s ≤ stepsLeft s) : Progress s (leaveDecRound s) := by
  have h2 := two_le_stepsFromBlockOut s
  have pad {t : State} (hp : s.scratch.precheck = true) (ht : t.fsm = .padChk) (hl : t.lat = s.lat) :
      Progress s t := by
    rw [stepsFromBlockOut, if_pos hp] at h
    exact .of_padChk ht hl (by omega)
  have out {t : State} (ht : t.fsm = .blkOut) (he : stepsFromBlockOut t = stepsFromBlockOut s) : Progress s t :=
    .of_blkOut ht (by omega)
  unfold leaveDecRound
  split
  · split
    · exact pad ‹_› rfl rfl
    · exact out rfl (stepsFromBlockOut_congr rfl rfl rfl)
  · split
    · exact pad ‹_› rfl rfl
    · exact out rfl (stepsFromBlockOut_congr rfl rfl rfl)
  · exact .of_finish rfl (by omega)

theorem tickDecRound_progress (hf : s.fsm = .decRnd) : Progress s (tickDecRound s) := by
  have hs : stepsLeft s = 1 + s.rnd + stepsFromBlockOut s := by simp only [stepsLeft, hf]
  have same (b : Block) : stepsLeft { s with sreg := b } = stepsLeft s := rfl
  have same' (b : Block) (r : Nat) : stepsFromBlockOut { s with sreg := b, rnd := r } = stepsFromBlockOut s := rfl
  unfold tickDecRound
  split
  · obtain ⟨hbusy, hless⟩ := leaveDecRound_progress (s := { s with sreg := decRoundStep s.w s.nr.toNat 0 s.sreg })
      (by rw [same, same', hs]; omega)
    exact ⟨hbusy, hless.trans_eq (same _)⟩
  · refine .of_decRnd hf ?_
    rw [hs, same']
    change 1 + (s.rnd - 1) + _ < _
    omega

theorem tickPadCheck_progress (hf : s.fsm = .padChk) : Progress s (tickPadCheck s) := by
  have hs : stepsLeft s = 20 + 18 * latchedBlocks s := by simp only [stepsLeft, hf]
  unfold tickPadCheck
  split
  · have he : stepsFromBlockOut (toBlockIn 0 false s) = 2 + 18 * (latchedBlocks s - 1) := rfl
    exact .of_blkIn rfl (by omega)
  · exact .of_finish rfl (by omega)

/-- BLK_OUT goes on with the next block or ends the command. -/
theorem nextBlock_progress (hf : s.fsm = .blkOut) {t : State} (hl : t.lat = s.lat) (hb : t.blk = s.blk)
    (hp : t.scratch = s.scratch) : Progress s (nextBlock (latchedBlocks s) t) := by
  have hs : stepsLeft s = stepsFromBlockOut s := by simp only [stepsLeft, hf]
  have h2 := two_le_stepsFromBlockOut s
  by_cases hn : t.blk + 1 < latchedBlocks s
  · refine .of_blkIn (if_pos hn) ?_
    have hlat : (nextBlock (latchedBlocks s) t).lat = s.lat := hl
    have hblk : (nextBlock (latchedBlocks s) t).blk = s.blk + 1 := congrArg (· + 1) hb
    have hpre : (nextBlock (latchedBlocks s) t).scratch = s.scratch := hp
    rw [hs, stepsFromBlockOut, stepsFromBlockOut, latchedBlocks_congr hlat, hblk, hpre]
    omega
  · exact .of_finish (if_neg hn) (by omega)

theorem tickBlockOut_progress (hf : s.fsm = .blkOut) : Progress s (tickBlockOut s) := by
  have hs : stepsLeft s = stepsFromBlockOut s := by simp only [stepsLeft, hf]
  have h2 := two_le_stepsFromBlockOut s
  have next {i : Instr} (hl : s.latched = .command i) (m : Memory) (p : Block) :
      Progress s (nextBlock (modeBlocks i s) { s with mem := m, prev := p }) := by
    rw [← latchedBlocks_of_command hl]
    exact nextBlock_progress hf rfl rfl rfl
  unfold tickBlockOut
  split
  · exact next ‹_› _ _
  · exact next ‹_› _ _
  · unfold tickBlockOutDec; split <;> exact next ‹_› _ _
  · unfold tickBlockOutDec; split <;> exact next ‹_› _ _
  · exact .of_finish rfl (by omega)

end PerState

section Termination

variable {s : State}

/-- Until FINISH every step comes nearer to completion, whatever the operands (R211). -/
theorem tick_progress (hi : s.fsm ≠ .idle) (hn : s.fsm ≠ .finish) : Progress s (tick s) := by
  unfold tick
  split
  · exact absurd ‹_› hi
  · exact tickCheck_progress ‹_›
  · exact tickXform_progress ‹_›
  · exact tickKload_progress ‹_›
  · exact tickKexp_progress ‹_›
  · exact tickBlockIn_progress ‹_›
  · exact tickEncRound_progress ‹_›
  · exact tickDecRound_progress ‹_›
  · exact tickPadCheck_progress ‹_›
  · exact tickBlockOut_progress ‹_›
  · exact absurd ‹_› hn

theorem tick_finish (hf : s.fsm = .finish) : tick s = tickFinish s := by simp only [tick, hf]

theorem tick_check (hf : s.fsm = .check) : tick s = tickCheck s := by simp only [tick, hf]

theorem one_le_stepsLeft (hi : s.fsm ≠ .idle) : 1 ≤ stepsLeft s := by
  by_cases hn : s.fsm = .finish
  · simp only [stepsLeft, hn, le_refl]
  · exact (Nat.zero_le _).trans_lt (tick_progress hi hn).less

/-- A busy machine completes within the steps it has left. -/
theorem ticks_completes {n : Nat} (hi : s.fsm ≠ .idle) (hn : stepsLeft s ≤ n) :
    (ticks n s).fsm = .idle ∧ (ticks n s).done = true := by
  induction n generalizing s with
  | zero => exact absurd (one_le_stepsLeft hi) (by omega)
  | succ n ih =>
    rw [ticks]
    by_cases hf : s.fsm = .finish
    · have h := tickFinish_frame s
      rw [tick_finish hf, ticks_idle n _ h.fsm]
      exact ⟨h.fsm, h.done⟩
    · obtain ⟨hbusy, hless⟩ := tick_progress hi hf
      exact ih hbusy (by omega)

end Termination

/-- Settles O59: from CHECK the steps left are at most the bound of R211. -/
theorem stateMachineTerminates : Obligations.StateMachineTerminates := by
  unfold Obligations.StateMachineTerminates
  intro s hf
  have hbound : stepsLeft s = tickBound s := by simp only [stepsLeft, hf]
  exact ticks_completes (by rw [hf]; decide) hbound.le

end Sys2Proof.Machine
end

section
/-! Runs of the control state machine in closed form: the rounds of a block and the words of a key
(R207, R209, R210). -/

namespace Sys2Proof.Machine

theorem ticks_succ_last (n : Nat) (s : State) : ticks (n + 1) s = tick (ticks n s) := ticks_add n 1 s

/-- `k` rounds of R209 from round 0 on. -/
def encRoundsDone (w : Schedule) (nr k : Nat) (b : Block) : Block :=
  (List.range k).foldl (fun b r => encRoundStep w nr r b) b

/-- `k` rounds of R209 from round `nr` down. -/
def decRoundsDone (w : Schedule) (nr k : Nat) (b : Block) : Block :=
  (List.range k).foldl (fun b j => decRoundStep w nr (nr - j) b) b

section Rounds

variable (w : Schedule) {nr : Nat} (b : Block)

theorem encRoundsDone_succ (nr k : Nat) :
    encRoundsDone w nr (k + 1) b = encRoundStep w nr k (encRoundsDone w nr k b) := by
  rw [encRoundsDone, List.range_succ, List.foldl_append, List.foldl_cons, List.foldl_nil, ← encRoundsDone]

theorem decRoundsDone_succ (nr k : Nat) :
    decRoundsDone w nr (k + 1) b = decRoundStep w nr (nr - k) (decRoundsDone w nr k b) := by
  rw [decRoundsDone, List.range_succ, List.foldl_append, List.foldl_cons, List.foldl_nil, ← decRoundsDone]

/-- The rounds of R209 before the last are those of `Cipher`. -/
theorem encRoundsDone_middle {k : Nat} (hk : k < nr) :
    encRoundsDone w nr (k + 1) b = encRounds w k 1 (addRoundKey w 0 b) := by
  induction k with
  | zero => rfl
  | succ k ih =>
    rw [encRoundsDone_succ, ih (by omega), encRounds_succ_last, encRoundStep, if_neg (by omega), if_pos hk]

/-- All rounds of R209 are `Cipher` (R148). -/
theorem encRoundsDone_all (h : 0 < nr) : encRoundsDone w nr (nr + 1) b = cipher w nr b := by
  obtain ⟨n, rfl⟩ : ∃ n, nr = n + 1 := ⟨nr - 1, by omega⟩
  rw [encRoundsDone_succ, encRoundsDone_middle w b (Nat.lt_succ_self n), encRoundStep,
    if_neg (by omega), if_neg (by omega), cipher, Nat.add_sub_cancel]

/-- The rounds of R209 after the first, down to round 1, are those of `InvCipher`. -/
theorem decRoundsDone_middle (k : Nat) (hk : k < nr) :
    decRounds w (nr - 1 - k) (decRoundsDone w nr (k + 1) b) = decRounds w (nr - 1) (decFirstRound w nr b) := by
  induction k with
  | zero => rw [decRoundsDone_succ, decRoundStep, if_neg (by omega), if_neg (by omega)]; rfl
  | succ k ih =>
    obtain ⟨m, hm⟩ : ∃ m, nr - 1 - k = m + 1 := ⟨nr - 1 - k - 1, by omega⟩
    rw [← ih (by omega), decRoundsDone_succ w b nr (k + 1), decRoundStep, if_neg (by omega), if_pos (by omega), hm,
      decRounds, show nr - 1 - (k + 1) = m by omega, show nr - (k + 1) = m + 1 by omega]

/-- All rounds of R209 are `InvCipher` (R149). -/
theorem decRoundsDone_all (h : 0 < nr) : decRoundsDone w nr (nr + 1) b = invCipher w nr b := by
  have hmid := decRoundsDone_middle w b (nr - 1) (Nat.sub_one_lt h.ne')
  rw [Nat.sub_self, decRounds, Nat.sub_add_cancel h] at hmid
  rw [decRoundsDone_succ, hmid, Nat.sub_self]
  rfl

end Rounds

section Runs

variable {s : State}

theorem tickCheck_start {i : Instr} (hl : s.latched = .command i) (hc : commandCheck i s = .ok) :
    tickCheck s = startCommand i s := by
  simp only [tickCheck, hl, hc]

/-- `k` steps of ENC_RND count the rounds up. -/
theorem ticks_encRnd (hf : s.fsm = .encRnd) (hr : s.rnd = 0) {k : Nat} (hk : k ≤ s.nr.toNat) :
    ticks k s = { s with sreg := encRoundsDone s.w s.nr.toNat k s.sreg, rnd := k } := by
  induction k with
  | zero =>
    change s = { s with sreg := s.sreg, rnd := 0 }
    rw [← hr]
  | succ k ih =>
    rw [ticks_succ_last, ih (by omega)]
    simp only [tick, hf, tickEncRound, encRoundsDone_succ, if_pos (show k < s.nr.toNat by omega)]

/-- The last round leaves ENC_RND. -/
theorem ticks_encRnd_leave (hf : s.fsm = .encRnd) (hr : s.rnd = 0) :
    ticks (s.nr.toNat + 1) s = { s with
      sreg := encRoundsDone s.w s.nr.toNat (s.nr.toNat + 1) s.sreg
      rnd := s.nr.toNat
      fsm := if s.latched = .command .cipherBlock then .finish else .blkOut } := by
  rw [ticks_succ_last, ticks_encRnd hf hr le_rfl]
  simp only [tick, hf, tickEncRound, encRoundsDone_succ, if_neg (lt_irrefl s.nr.toNat)]
  rfl

/-- `k` steps of DEC_RND count the rounds down. -/
theorem ticks_decRnd (hf : s.fsm = .decRnd) (hr : s.rnd = s.nr.toNat) {k : Nat} (hk : k ≤ s.nr.toNat) :
    ticks k s = { s with sreg := decRoundsDone s.w s.nr.toNat k s.sreg, rnd := s.nr.toNat - k } := by
  induction k with
  | zero =>
    change s = { s with sreg := s.sreg, rnd := s.nr.toNat }
    rw [← hr]
  | succ k ih =>
    rw [ticks_succ_last, ih (by omega)]
    simp only [tick, hf, tickDecRound, decRoundsDone_succ, if_neg (show s.nr.toNat - k ≠ 0 by omega), Nat.sub_sub]

/-- The last round leaves DEC_RND. -/
theorem ticks_decRnd_leave (hf : s.fsm = .decRnd) (hr : s.rnd = s.nr.toNat) :
    ticks (s.nr.toNat + 1) s =
      leaveDecRound { s with sreg := decRoundsDone s.w s.nr.toNat (s.nr.toNat + 1) s.sreg, rnd := 0 } := by
  rw [ticks_succ_last, ticks_decRnd hf hr le_rfl]
  simp only [tick, hf, tickDecRound, decRoundsDone_succ, Nat.sub_self, if_true]

/-- With no block of a message in hand, FINISH follows. -/
theorem leaveDecRound_invCipherBlock (hl : s.latched = .command .invCipherBlock) :
    leaveDecRound s = { s with fsm := .finish } := by
  simp only [leaveDecRound, hl]

/-- `k` steps of KEXP compute `k` words (R123). -/
theorem ticks_kexp {n i k : Nat} (hf : s.fsm = .kexp) (hl : s.latched = .command .keyExpand) (hn : s.keyBytes = n)
    (hi : s.kidx = i) (hlt : i < 4 * (nrOf n + 1)) (hk : i + k ≤ 4 * (nrOf n + 1)) :
    ticks k s = { s with
      w := expandFrom (nkOf n) k i s.w
      kidx := i + k
      fsm := if i + k < 4 * (nrOf n + 1) then .kexp else .finish } := by
  subst hn hi
  induction k generalizing s with
  | zero => simp only [ticks, expandFrom, Nat.add_zero, if_pos hlt, ← hf]
  | succ k ih =>
    have htick : tick s = { s with
        w := expandStep (nkOf s.keyBytes) s.kidx s.w
        kidx := s.kidx + 1
        fsm := if s.kidx + 1 < 4 * (nrOf s.keyBytes + 1) then .kexp else .finish } := by
      simp only [tick, hf, tickKexp, if_pos hl, expandOneWord, if_pos hlt]
    rw [ticks, htick]
    by_cases hnext : s.kidx + 1 < 4 * (nrOf s.keyBytes + 1)
    · rw [if_pos hnext, ih (s := { s with
        w := expandStep (nkOf s.keyBytes) s.kidx s.w, kidx := s.kidx + 1, fsm := .kexp }) rfl hl hnext
        (show s.kidx + 1 + k ≤ 4 * (nrOf s.keyBytes + 1) by omega)]
      simp only [Nat.add_assoc, Nat.add_comm 1 k]
      rfl
    · obtain rfl : k = 0 := by omega
      rfl

end Runs

section FromCheck

variable {s : State}

/-- After CHECK a command whose checks passed starts (R208). -/
theorem tick_check_start {i : Instr} (hf : s.fsm = .check) (hl : s.latched = .command i) (hc : commandCheck i s = .ok) :
    tick s = startCommand i s := by
  rw [tick_check hf, tickCheck_start hl hc]

theorem loadKey_fsm (s : State) : (loadKey s).fsm = .kexp := by simp only [loadKey]
theorem loadKey_lat (s : State) : (loadKey s).lat = s.lat := by simp only [loadKey]
theorem loadKey_kidx (s : State) : (loadKey s).kidx = nkOf s.keyBytes := by simp only [loadKey]
theorem loadKey_w (s : State) : (loadKey s).w = loadKeyWords s.mem s.keyBase (nkOf s.keyBytes) s.w := by
  simp only [loadKey]

/-- `KEY_EXPAND` after CHECK, KLOAD and `k` steps of KEXP (R123, R207). -/
theorem ticks_keyExpand (hf : s.fsm = .check) (hl : s.latched = .command .keyExpand)
    (hc : checkKeyExpand s = .ok) {k : Nat} (hk : nkOf s.keyBytes + k ≤ 4 * (nrOf s.keyBytes + 1)) :
    ticks (2 + k) s = { startCommand .keyExpand s with
      w := expandFrom (nkOf s.keyBytes) k (nkOf s.keyBytes) (loadKeyWords s.mem s.keyBase (nkOf s.keyBytes) s.w)
      kidx := nkOf s.keyBytes + k
      fsm := if nkOf s.keyBytes + k < 4 * (nrOf s.keyBytes + 1) then .kexp else .finish } := by
  have hlt : nkOf s.keyBytes < 4 * (nrOf s.keyBytes + 1) := by
    have hlen := ((checkKeyExpand_ok_iff s).mp hc).1
    rcases hlen with h | h | h <;> rw [h] <;> decide
  have hload : ticks 2 s = loadKey (startCommand .keyExpand s) := by
    rw [ticks, tick_check_start hf hl hc]
    exact if_pos (c := (startCommand .keyExpand s).latched = .command .keyExpand) hl
  have hrun := ticks_kexp (s := loadKey (startCommand .keyExpand s)) (n := s.keyBytes) (loadKey_fsm _)
    (by rw [State.latched, loadKey_lat]; exact hl) (by rw [State.keyBytes, loadKey_lat]; rfl) (loadKey_kidx _) hlt hk
  rw [ticks_add, hload, hrun, loadKey_w]
  simp only [loadKey, startCommand, State.keyBytes, State.keyBase]
  rfl

end FromCheck

/-- Settles O60: the steps of KEXP and of a block's rounds in closed form, from the state CHECK leaves. -/
theorem stateMachineStepCounts : Obligations.StateMachineStepCounts := by
  unfold Obligations.StateMachineStepCounts
  refine ⟨fun s nk nr count hmem hf hl hlen hrange => ?_, fun s hf hk => ⟨fun hl => ⟨fun k hk' => ?_, ?_⟩,
    fun hl => ⟨fun k hk' => ?_, ?_⟩⟩⟩
  · replace hlen : s.keyBytes = 4 * nk := hlen
    have hparams : s.keyBytes ∈ [16, 24, 32] ∧ nkOf s.keyBytes = nk ∧ nrOf s.keyBytes = nr ∧
        nk + count = 4 * (nr + 1) := by
      simp only [List.mem_cons, Prod.mk.injEq, List.not_mem_nil, or_false] at hmem
      rcases hmem with ⟨rfl, rfl, rfl⟩ | ⟨rfl, rfl, rfl⟩ | ⟨rfl, rfl, rfl⟩ <;> rw [hlen] <;> decide
    obtain ⟨hkey, rfl, rfl, hcount⟩ := hparams
    have hc : checkKeyExpand s = .ok := checkKeyExpand_passes hkey (by rw [hlen]; exact hrange)
    refine ⟨by omega, ?_, fun k hk => ?_, ?_⟩
    · rw [tick_check_start hf hl hc]
      rfl
    · rw [ticks_keyExpand hf hl hc (by omega)]
      exact if_pos (by omega)
    · rw [ticks_keyExpand hf hl hc hcount.le]
      exact if_neg (by omega)
  all_goals
    have hc := (checkKeyLoaded_ok_iff s).mpr hk
    rw [Nat.add_comm, ticks, tick_check_start hf hl hc]
  · rw [ticks_encRnd rfl rfl (by exact Nat.le_of_lt_succ hk')]
    exact ⟨rfl, rfl⟩
  · exact (congrArg State.fsm (ticks_encRnd_leave (s := startCommand .cipherBlock s) rfl rfl)).trans (if_pos hl)
  · rw [ticks_decRnd rfl rfl (by exact Nat.le_of_lt_succ hk')]
    exact ⟨rfl, rfl⟩
  · have hleave := ticks_decRnd_leave (s := startCommand .invCipherBlock s) rfl rfl
    exact congrArg State.fsm (hleave.trans (leaveDecRound_invCipherBlock hl))

end Sys2Proof.Machine
end

section
/-! How a run of the state machine ends: FINISH, and what it means to refine the atomic command (R204, R206, R207). -/

namespace Sys2Proof.Machine

/-- Some number of steps of the state machine leads from `s` to `t`. -/
def Reaches (s t : State) : Prop := ∃ n, ticks n s = t

/-- What FINISH writes for a command without an error, one arm per command (R207). -/
def finishEffect (i : Instr) (s : State) : State :=
  match i with
  | .keyExpand => setKeyParams s
  | .ecbEnc | .cbcEnc => setOutLen (encBytes s.srcBytes) s
  | .ecbDec | .cbcDec => setOutLen (decLength s.srcBytes s.hold) s
  | .nop | .stateLoad | .stateStore | .subBytes | .invSubBytes | .shiftRows | .invShiftRows | .mixColumns
  | .invMixColumns | .addRoundKey _ | .cipherBlock | .invCipherBlock | .gfMul | .gfDouble | .sbox | .invSbox => s

section

variable {s t u : State} {i : Instr}

theorem Reaches.refl (s : State) : Reaches s s := ⟨0, rfl⟩

theorem Reaches.trans (h : Reaches s t) (h' : Reaches t u) : Reaches s u := by
  obtain ⟨m, rfl⟩ := h
  obtain ⟨n, rfl⟩ := h'
  exact ⟨m + n, ticks_add m n s⟩

theorem Reaches.of_tick (h : tick s = t) : Reaches s t := ⟨1, h⟩

/-- The latched operands stand through a run (R201). -/
theorem Reaches.lat (h : Reaches s t) : t.lat = s.lat := by
  obtain ⟨n, rfl⟩ := h
  induction n generalizing s with
  | zero => rfl
  | succ n ih => rw [ticks, ih, tick_lat]

theorem Reaches.latched (h : Reaches s t) : t.latched = s.latched := by rw [State.latched, h.lat, State.latched]

/-- From CHECK the bound of R211 leads to the completed state that any number of steps leads to. -/
theorem ticks_tickBound_of_reaches (hf : s.fsm = .check) (h : Reaches s u) (hu : u.fsm = .idle) :
    ticks (tickBound s) s = u := by
  obtain ⟨n, rfl⟩ := h
  have hbound : stepsLeft s = tickBound s := by simp only [stepsLeft, hf]
  obtain ⟨hidle, -⟩ := ticks_completes (s := s) (by rw [hf]; decide) hbound.le
  rcases le_total n (tickBound s) with h | h
  · obtain ⟨d, hd⟩ := Nat.exists_eq_add_of_le h
    rw [hd, ticks_add, ticks_idle d _ hu]
  · obtain ⟨d, hd⟩ := Nat.exists_eq_add_of_le h
    rw [hd, ticks_add, ticks_idle d _ hidle]

/-- It is enough to reach a state that agrees with the completed one. -/
theorem refines_of_reaches (hf : s.fsm = .check) (ht : t.fsm = .idle) (h : Reaches s u) (hs : sameButSequencer t u) :
    sameButSequencer t (ticks (tickBound s) s) := by
  rwa [ticks_tickBound_of_reaches hf h (by rw [hs]; exact ht)]

theorem tickFinish_ok (hl : s.latched = .command i) (hp : s.scratch.pending = .ok) :
    tickFinish s = complete .ok (finishEffect i s) := by
  cases i <;> simp only [tickFinish, hl, hp, finishEffect, if_true]

theorem tickFinish_error (hl : s.latched = .command i) (hp : s.scratch.pending ≠ .ok) :
    tickFinish s = commandError i s.scratch.pending s := by
  cases i <;> simp [tickFinish, hl, hp, commandError, isMode, raiseError]

/-- An error found by CHECK or PAD_CHK completes as the atomic command does (R208, R238). -/
theorem sameButSequencer_commandError (i : Instr) (e : ErrCode) (s : State) :
    sameButSequencer (commandError i e s) (commandError i e (toFinish e s)) := by
  cases i <;>
    simp only [sameButSequencer, commandError, isMode, raiseError, raiseKeyError, raiseModeError, complete, toFinish,
      reduceCtorEq, if_true, if_false, Bool.false_eq_true]

/-- From FINISH with no error pending, the command completes. -/
theorem refines_of_finish (hf : s.fsm = .check) (h : Reaches s u) (hu : u.fsm = .finish)
    (hl : s.latched = .command i) (hp : u.scratch.pending = .ok)
    (hs : sameButSequencer (complete .ok (commandEffect i s)) (complete .ok (finishEffect i u))) :
    sameButSequencer (complete .ok (commandEffect i s)) (ticks (tickBound s) s) := by
  refine refines_of_reaches hf rfl (h.trans (.of_tick ?_)) hs
  rw [tick_finish hu, tickFinish_ok (h.latched.trans hl) hp]

/-- A failed check leads through FINISH to the error's completion. -/
theorem refines_checkFailed (hf : s.fsm = .check) (hl : s.latched = .command i) (hc : commandCheck i s ≠ .ok) :
    sameButSequencer (commandError i (commandCheck i s) s) (ticks (tickBound s) s) := by
  have hcheck : tick s = toFinish (commandCheck i s) s := by simp only [tick_check hf, tickCheck, hl]
  have hfinish : tick (toFinish (commandCheck i s) s) = commandError i _ (toFinish (commandCheck i s) s) :=
    (tick_finish rfl).trans (tickFinish_error hl hc)
  refine refines_of_reaches hf ?_ ((Reaches.of_tick hcheck).trans (.of_tick hfinish))
    (sameButSequencer_commandError i _ s)
  unfold commandError
  split_ifs <;> rfl

/-- An illegal word leads through FINISH to its error. -/
theorem refines_illegal (hf : s.fsm = .check) {y : Illegal} (hl : s.latched = .illegal y) :
    sameButSequencer (raiseError .illegalCommand s) (ticks (tickBound s) s) := by
  have hcheck : tick s = toFinish .illegalCommand s := by simp only [tick_check hf, tickCheck, hl]
  have hfinish : tick (toFinish .illegalCommand s) = complete .illegalCommand (toFinish .illegalCommand s) := by
    have hl' : (toFinish .illegalCommand s).latched = .illegal y := hl
    rw [tick_finish rfl]
    simp only [tickFinish, hl']
    rfl
  exact refines_of_reaches hf rfl ((Reaches.of_tick hcheck).trans (.of_tick hfinish)) rfl

end

section WholeCommands

variable {s : State} {i : Instr}

/-- A diagnostic command's effect leaves the sequencer's fields alone. -/
theorem xformEffect_of_sequencer (i : Instr) (s : State) (f : Fsm) (sc : Scratch) :
    xformEffect i { s with fsm := f, scratch := sc } = { xformEffect i s with fsm := f, scratch := sc } := by
  cases i <;> simp only [xformEffect, stateLoadEffect, stateStoreEffect, transformEffect, addRoundKeyEffect,
    gfMulEffect, gfDoubleEffect, sboxEffect, invSboxEffect, State.srcBase, State.dstBase]

/-- A command of one XFORM step (R207). -/
theorem refines_xform (hf : s.fsm = .check) (hl : s.latched = .command i) (hc : commandCheck i s = .ok)
    (hs : startCommand i s = { s with fsm := .xform, scratch := { s.scratch with pending := .ok } })
    (he : xformEffect i s = commandEffect i s) (hfin : ∀ u, finishEffect i u = u) :
    sameButSequencer (complete .ok (commandEffect i s)) (ticks (tickBound s) s) := by
  have hxform : tick (startCommand i s) = toFinish .ok (xformEffect i (startCommand i s)) := by
    have hl' : (startCommand i s).latched = .command i := by rw [hs]; exact hl
    have hf' : (startCommand i s).fsm = .xform := by rw [hs]
    simp only [tick, hf', tickXform, hl']
  rw [hs, xformEffect_of_sequencer, he] at hxform
  have hrun : Reaches s _ := (Reaches.of_tick (tick_check_start hf hl hc)).trans (.of_tick (hs ▸ hxform))
  exact refines_of_finish hf hrun rfl hl rfl (by rw [hfin]; rfl)

/-- `NR` is at least 10 while a key is loaded (R17). -/
theorem nr_pos_of_keyInv (h : s.keyInv) (hv : s.keyValid = true) : 0 < s.nr.toNat := by
  rcases h with ⟨h, -⟩ | ⟨-, ⟨-, h⟩ | ⟨-, h⟩ | ⟨-, h⟩⟩
  · rw [h] at hv; cases hv
  all_goals rw [h]; decide

/-- All rounds of ENC_RND are `Cipher` (R148, R209). -/
theorem reaches_cipher (hf : s.fsm = .encRnd) (hr : s.rnd = 0) (hnr : 0 < s.nr.toNat) {y : Block}
    (hy : cipher s.w s.nr.toNat s.sreg = y) :
    Reaches s { s with
      sreg := y
      rnd := s.nr.toNat
      fsm := if s.latched = .command .cipherBlock then .finish else .blkOut } :=
  ⟨_, by rw [ticks_encRnd_leave hf hr, encRoundsDone_all _ _ hnr, hy]⟩

/-- All rounds of DEC_RND are `InvCipher` (R149, R209). -/
theorem reaches_invCipher (hf : s.fsm = .decRnd) (hr : s.rnd = s.nr.toNat) (hnr : 0 < s.nr.toNat) {y : Block}
    (hy : invCipher s.w s.nr.toNat s.sreg = y) : Reaches s (leaveDecRound { s with sreg := y, rnd := 0 }) :=
  ⟨_, by rw [ticks_decRnd_leave hf hr, decRoundsDone_all _ _ hnr, hy]⟩

theorem refines_cipherBlock (hf : s.fsm = .check) (hl : s.latched = .command .cipherBlock) (hk : s.keyInv)
    (hc : checkKeyLoaded s = .ok) :
    sameButSequencer (complete .ok (commandEffect .cipherBlock s)) (ticks (tickBound s) s) := by
  have hnr := nr_pos_of_keyInv hk ((checkKeyLoaded_ok_iff s).mp hc)
  have hrounds := reaches_cipher (s := startCommand .cipherBlock s) rfl rfl hnr rfl
  refine refines_of_finish hf ((Reaches.of_tick (tick_check_start hf hl hc)).trans hrounds) (if_pos hl) hl rfl ?_
  simp only [sameButSequencer, complete, commandEffect, transformEffect, finishEffect, startCommand]

theorem refines_invCipherBlock (hf : s.fsm = .check) (hl : s.latched = .command .invCipherBlock) (hk : s.keyInv)
    (hc : checkKeyLoaded s = .ok) :
    sameButSequencer (complete .ok (commandEffect .invCipherBlock s)) (ticks (tickBound s) s) := by
  have hnr := nr_pos_of_keyInv hk ((checkKeyLoaded_ok_iff s).mp hc)
  have hrounds := reaches_invCipher (s := startCommand .invCipherBlock s) rfl rfl hnr rfl
  rw [leaveDecRound_invCipherBlock (by simpa only [State.latched, startCommand] using hl)] at hrounds
  refine refines_of_finish hf ((Reaches.of_tick (tick_check_start hf hl hc)).trans hrounds) rfl hl rfl ?_
  simp only [sameButSequencer, complete, commandEffect, transformEffect, finishEffect, startCommand]

theorem refines_keyExpand (hf : s.fsm = .check) (hl : s.latched = .command .keyExpand)
    (hc : checkKeyExpand s = .ok) :
    sameButSequencer (complete .ok (commandEffect .keyExpand s)) (ticks (tickBound s) s) := by
  have hle : nkOf s.keyBytes ≤ 4 * (nrOf s.keyBytes + 1) := by
    unfold nkOf nrOf
    split_ifs <;> decide
  have hrun := ticks_keyExpand hf hl hc (Nat.add_sub_cancel' hle).le
  refine refines_of_finish hf ⟨_, hrun⟩ (if_neg (by omega)) hl rfl ?_
  simp only [sameButSequencer, complete, commandEffect, keyExpandEffect, setKeyParams, finishEffect, startCommand,
    expandKey, State.keyBytes, State.keyBase]

end WholeCommands

end Sys2Proof.Machine
end

section
/-! The state machine's run of `ECB_ENC` and `CBC_ENC`, block by block (R184, R186, R207). -/

namespace Sys2Proof.Machine

/-- The encryption of the mode. -/
def encCommand (cbc : Bool) : Instr := if cbc then .cbcEnc else .ecbEnc

/-- The loop of the mode's encryption after `k` blocks. -/
def encAfter (cbc : Bool) (s : State) (k : Nat) : Pass := if cbc then cbcEncAfter s k else ecbEncAfter s k

/-- The state at the end of block `k` of an encryption: at BLK_IN while blocks remain, then at FINISH. PREV holds the
chaining value from block 1 on, the IV being read at block 0. -/
def encState (cbc : Bool) (s : State) (k rnd : Nat) (sc : Scratch) : State := { s with
  mem := (encAfter cbc s k).mem
  sreg := (encAfter cbc s k).sreg
  prev := if k = 0 then s.prev else (encAfter cbc s k).prev
  fsm := if k < encBlocks s.srcBytes then .blkIn else .finish
  rnd := rnd
  blk := k
  scratch := sc }

section

variable {cbc : Bool} {s u : State}

/-! One block of either encryption (R184, R186): the output block, where it is written, and the next chaining value. -/

theorem encAfter_sreg_succ (cbc : Bool) (s : State) (k : Nat) : cipher s.w s.nr.toNat
    (if cbc then blockXor (messageBlock (encAfter cbc s k).mem s.srcBase s.srcBytes k) (encAfter cbc s k).prev
      else messageBlock (encAfter cbc s k).mem s.srcBase s.srcBytes k) = (encAfter cbc s (k + 1)).sreg := by
  cases cbc with
  | false => simp only [encAfter, Bool.false_eq_true, if_false, ecbEncAfter_succ, ecbEncBlock]
  | true => simp only [encAfter, if_true, cbcEncAfter_succ, cbcEncBlock]

theorem encAfter_mem_succ (cbc : Bool) (s : State) (k : Nat) : (encAfter cbc s (k + 1)).mem =
    (encAfter cbc s k).mem.storeBlock (s.dstBase + 16 * k) (encAfter cbc s (k + 1)).sreg := by
  cases cbc with
  | false => simp only [encAfter, Bool.false_eq_true, if_false, ecbEncAfter_succ, ecbEncBlock]
  | true => simp only [encAfter, if_true, cbcEncAfter_succ, cbcEncBlock]

theorem encAfter_prev_succ (cbc : Bool) (s : State) (k : Nat) : (encAfter cbc s (k + 1)).prev =
    if cbc then (encAfter cbc s (k + 1)).sreg else (encAfter cbc s k).prev := by
  cases cbc with
  | false => simp only [encAfter, Bool.false_eq_true, if_false, ecbEncAfter_succ, ecbEncBlock]
  | true => simp only [encAfter, if_true, cbcEncAfter_succ, cbcEncBlock]

/-- `ECB_ENC` leaves PREV alone (R184). -/
theorem ecbEncAfter_prev (s : State) (k : Nat) : (ecbEncAfter s k).prev = s.prev := by
  induction k with
  | zero => rfl
  | succ k ih => simp only [ecbEncAfter_succ, ecbEncBlock, ih]

/-- The chaining value BLK_IN finds for block `k`: the IV, read at block 0 of `CBC_ENC`, or PREV. -/
theorem encState_chain (cbc : Bool) (s : State) (k : Nat) :
    (if k = 0 ∧ cbc = true then (encAfter cbc s k).mem.loadBlock s.ivBase
      else if k = 0 then s.prev else (encAfter cbc s k).prev) = (encAfter cbc s k).prev := by
  cases k with
  | zero => cases cbc <;> rfl
  | succ k => simp only [Nat.succ_ne_zero, false_and, if_false]

theorem tick_blkIn_enc (hl : u.latched = .command (encCommand cbc)) (hf : u.fsm = .blkIn) :
    tick u = tickBlockInEnc cbc u := by
  cases cbc <;> simp only [tick, hf, tickBlockIn, hl, encCommand, if_true, if_false, Bool.false_eq_true]

theorem tick_blkOut_enc (hl : u.latched = .command (encCommand cbc)) (hf : u.fsm = .blkOut) :
    tick u = tickBlockOutEnc cbc u := by
  cases cbc <;> simp only [tick, hf, tickBlockOut, hl, encCommand, if_true, if_false, Bool.false_eq_true]

/-- BLK_IN, the rounds and BLK_OUT of one block of an encryption: `p` is its chaining value, `x` the block its rounds
take and `out` the block they give (R207). -/
theorem reaches_encBlock (hl : u.latched = .command (encCommand cbc)) (hf : u.fsm = .blkIn) (hnr : 0 < u.nr.toNat)
    {p x out : Block} (hp : (if u.blk = 0 ∧ cbc then u.mem.loadBlock u.ivBase else u.prev) = p)
    (hx : (if cbc then blockXor (messageBlock u.mem u.srcBase u.srcBytes u.blk) p
      else messageBlock u.mem u.srcBase u.srcBytes u.blk) = x)
    (hout : cipher u.w u.nr.toNat x = out) :
    Reaches u { u with
      mem := u.mem.storeBlock (u.dstBase + 16 * u.blk) out
      sreg := out
      prev := if cbc then out else p
      fsm := if u.blk + 1 < encBlocks u.srcBytes then .blkIn else .finish
      rnd := u.nr.toNat
      blk := u.blk + 1 } := by
  have hne : u.latched ≠ .command .cipherBlock := by rw [hl]; cases cbc <;> decide
  have hin : tick u = { u with prev := p, sreg := x, rnd := 0, fsm := .encRnd } := by
    rw [tick_blkIn_enc hl hf]
    simp only [tickBlockInEnc, hp, hx]
  have hrounds := reaches_cipher (s := { u with prev := p, sreg := x, rnd := 0, fsm := .encRnd }) rfl rfl hnr hout
  rw [if_neg (by exact hne)] at hrounds
  exact (Reaches.of_tick hin).trans (hrounds.trans (.of_tick (tick_blkOut_enc hl rfl)))

/-- The run of one block is the loop's iteration. -/
theorem reaches_encState_succ (hl : s.latched = .command (encCommand cbc)) (hnr : 0 < s.nr.toNat) {k : Nat}
    (hk : k < encBlocks s.srcBytes) (rnd : Nat) (sc : Scratch) :
    Reaches (encState cbc s k rnd sc) (encState cbc s (k + 1) s.nr.toNat sc) := by
  have hblock := reaches_encBlock (u := encState cbc s k rnd sc) hl (if_pos hk) hnr (encState_chain cbc s k) rfl
    (encAfter_sreg_succ cbc s k)
  have hnext : encState cbc s (k + 1) s.nr.toNat sc = { encState cbc s k rnd sc with
      mem := (encAfter cbc s k).mem.storeBlock (s.dstBase + 16 * k) (encAfter cbc s (k + 1)).sreg
      sreg := (encAfter cbc s (k + 1)).sreg
      prev := if cbc then (encAfter cbc s (k + 1)).sreg else (encAfter cbc s k).prev
      fsm := if k + 1 < encBlocks s.srcBytes then .blkIn else .finish
      rnd := s.nr.toNat
      blk := k + 1 } := by
    simp only [encState, Nat.succ_ne_zero, if_false, encAfter_mem_succ, encAfter_prev_succ]
  rw [hnext]
  exact hblock

/-- The run of an encryption goes through the loop's states. -/
theorem reaches_encState (hl : s.latched = .command (encCommand cbc)) (hnr : 0 < s.nr.toNat) {k : Nat}
    (hk : k ≤ encBlocks s.srcBytes) (rnd : Nat) (sc : Scratch) :
    ∃ r, Reaches (encState cbc s 0 rnd sc) (encState cbc s k r sc) := by
  induction k with
  | zero => exact ⟨rnd, .refl _⟩
  | succ k ih =>
    obtain ⟨r, hr⟩ := ih (by omega)
    exact ⟨_, hr.trans (reaches_encState_succ hl hnr (by omega) r sc)⟩

/-- After CHECK an encryption stands before its first block. -/
theorem startCommand_enc (cbc : Bool) (s : State) : startCommand (encCommand cbc) s =
    encState cbc s 0 s.rnd { s.scratch with pending := .ok, precheck := false } := by
  cases cbc <;> rfl

theorem finishEffect_enc (cbc : Bool) (u : State) :
    finishEffect (encCommand cbc) u = setOutLen (encBytes u.srcBytes) u := by
  cases cbc <;> rfl

/-- After the last block FINISH writes what the atomic command leaves (R184, R186). -/
theorem sameButSequencer_enc (cbc : Bool) (s : State) (rnd : Nat) (sc : Scratch) :
    sameButSequencer (complete .ok (commandEffect (encCommand cbc) s))
      (complete .ok (setOutLen (encBytes s.srcBytes) (encState cbc s (encBlocks s.srcBytes) rnd sc))) := by
  have hne : encBlocks s.srcBytes ≠ 0 := Nat.succ_ne_zero _
  cases cbc with
  | false =>
    have hprev : (ecbEncPass s).prev = s.prev := ecbEncAfter_prev s _
    simp only [sameButSequencer, complete, commandEffect, encCommand, encState, encAfter, setOutLen, ecbEncEffect,
      ecbEncAfter_encBlocks, Bool.false_eq_true, if_false, hne, hprev]
  | true =>
    simp only [sameButSequencer, complete, commandEffect, encCommand, encState, encAfter, setOutLen, cbcEncEffect,
      cbcEncAfter_encBlocks, if_true, if_false, hne]

theorem refines_enc (hf : s.fsm = .check) (hl : s.latched = .command (encCommand cbc)) (hk : s.keyInv)
    (hc : commandCheck (encCommand cbc) s = .ok) :
    sameButSequencer (complete .ok (commandEffect (encCommand cbc) s)) (ticks (tickBound s) s) := by
  have hv : s.keyValid = true := by
    cases cbc
    · exact ((checkEcbEnc_ok_iff s).mp hc).1
    · exact ((checkCbcEnc_ok_iff s).mp hc).1
  obtain ⟨r, hr⟩ := reaches_encState hl (nr_pos_of_keyInv hk hv) le_rfl s.rnd
    { s.scratch with pending := .ok, precheck := false }
  have hstart := (tick_check_start hf hl hc).trans (startCommand_enc cbc s)
  exact refines_of_finish hf ((Reaches.of_tick hstart).trans hr) (if_neg (lt_irrefl _)) hl rfl
    (finishEffect_enc cbc _ ▸ sameButSequencer_enc cbc s r _)

end

end Sys2Proof.Machine
end

section
/-! The state machine's run of `ECB_DEC` and `CBC_DEC`: the pre-check of the final block, then block by block
(R185, R187, R207, R208). -/

namespace Sys2Proof.Machine

/-- The decryption of the mode. -/
def decCommand (cbc : Bool) : Instr := if cbc then .cbcDec else .ecbDec

/-- The main pass of the mode's decryption after `k` blocks. -/
def decAfter (cbc : Bool) (s : State) (k : Nat) : Pass := if cbc then cbcDecAfter s k else ecbDecAfter s k

/-- `HOLD` of the mode's pre-check. -/
def decHold (cbc : Bool) (s : State) : Block := if cbc then cbcDecHold s else ecbDecHold s

/-- The locals of a decryption once its pre-check has read the final block (log 8). -/
def precheckScratch (cbc : Bool) (s : State) : Scratch where
  pending := .ok
  precheck := true
  iv := if cbc then s.mem.loadBlock s.ivBase else s.scratch.iv
  lastBlock := s.mem.loadBlock s.lastSrc
  chainBlock := if cbc then cbcDecChain s else s.scratch.chainBlock
  cipherBlock := s.scratch.cipherBlock

/-- The state at PAD_CHK. -/
def padState (cbc : Bool) (s : State) : State := { s with
  sreg := decHold cbc s
  hold := decHold cbc s
  fsm := .padChk
  rnd := 0
  blk := decBlocks s.srcBytes - 1
  scratch := precheckScratch cbc s }

/-- The state at BLK_IN of block `k` of the main pass, `b` and `c` being what the block before left in `S` and as its
input block. -/
def decState (cbc : Bool) (s : State) (k : Nat) (b c : Block) : State := { s with
  mem := (decAfter cbc s k).mem
  sreg := b
  prev := if k = 0 then s.prev else (decAfter cbc s k).prev
  hold := decHold cbc s
  fsm := .blkIn
  rnd := 0
  blk := k
  scratch := { precheckScratch cbc s with precheck := false, cipherBlock := c } }

/-- The state at FINISH once the main pass has written its last block, block `k`. -/
def decFinal (cbc : Bool) (s : State) (k : Nat) : State := { s with
  mem := (decAfter cbc s k).mem.storeBytes s.lastDst (unpadded (decHold cbc s))
  sreg := decHold cbc s
  prev := if cbc then s.mem.loadBlock s.lastSrc else (decAfter cbc s k).prev
  hold := decHold cbc s
  fsm := .finish
  rnd := 0
  blk := k + 1
  scratch := { precheckScratch cbc s with precheck := false, cipherBlock := s.mem.loadBlock s.lastSrc } }

section Loop

variable (cbc : Bool) (s : State)

/-! One block of either main pass (R185, R187): the output block, where it is written, and the next chaining value. -/

theorem decAfter_sreg_succ (k : Nat) :
    (if cbc then
      blockXor (invCipher s.w s.nr.toNat ((decAfter cbc s k).mem.loadBlock (s.srcBase + 16 * k)))
        (decAfter cbc s k).prev
    else invCipher s.w s.nr.toNat ((decAfter cbc s k).mem.loadBlock (s.srcBase + 16 * k))) =
      (decAfter cbc s (k + 1)).sreg := by
  cases cbc with
  | false => simp only [decAfter, Bool.false_eq_true, if_false, ecbDecAfter_succ, ecbDecBlock]
  | true => simp only [decAfter, if_true, cbcDecAfter_succ, cbcDecBlock]

theorem decAfter_mem_succ (k : Nat) : (decAfter cbc s (k + 1)).mem =
    (decAfter cbc s k).mem.storeBlock (s.dstBase + 16 * k) (decAfter cbc s (k + 1)).sreg := by
  cases cbc with
  | false => simp only [decAfter, Bool.false_eq_true, if_false, ecbDecAfter_succ, ecbDecBlock]
  | true => simp only [decAfter, if_true, cbcDecAfter_succ, cbcDecBlock]

theorem decAfter_prev_succ (k : Nat) : (decAfter cbc s (k + 1)).prev =
    if cbc then (decAfter cbc s k).mem.loadBlock (s.srcBase + 16 * k) else (decAfter cbc s k).prev := by
  cases cbc with
  | false => simp only [decAfter, Bool.false_eq_true, if_false, ecbDecAfter_succ, ecbDecBlock]
  | true => simp only [decAfter, if_true, cbcDecAfter_succ, cbcDecBlock]

/-- `ECB_DEC` leaves PREV alone (R185). -/
theorem ecbDecAfter_prev (k : Nat) : (ecbDecAfter s k).prev = s.prev := by
  induction k with
  | zero => rfl
  | succ k ih => simp only [ecbDecAfter_succ, ecbDecBlock, ih]

/-- The chaining value BLK_IN finds for block `k`: the IV as the pre-check read it, at block 0 of `CBC_DEC`, or PREV. -/
theorem decState_chain (k : Nat) :
    (if k = 0 ∧ cbc = true then (precheckScratch cbc s).iv
      else if k = 0 then s.prev else (decAfter cbc s k).prev) = (decAfter cbc s k).prev := by
  cases k with
  | zero => cases cbc <;> rfl
  | succ k => simp only [Nat.succ_ne_zero, false_and, if_false]

theorem finalBlock_dec : finalBlock (decCommand cbc) s = some (decHold cbc s) := by
  cases cbc <;> rfl

theorem startCommand_dec : startCommand (decCommand cbc) s = toBlockIn (decBlocks s.srcBytes - 1) true s := by
  cases cbc <;> rfl

theorem finishEffect_dec : finishEffect (decCommand cbc) s = setOutLen (decLength s.srcBytes s.hold) s := by
  cases cbc <;> rfl

end Loop

section Run

variable {cbc : Bool} {s u : State}

theorem tick_blkIn_dec (hl : u.latched = .command (decCommand cbc)) (hf : u.fsm = .blkIn) :
    tick u = tickBlockInDecrypt cbc u := by
  cases cbc <;> simp only [tick, hf, tickBlockIn, hl, decCommand, if_true, if_false, Bool.false_eq_true]

theorem tick_blkOut_dec (hl : u.latched = .command (decCommand cbc)) (hf : u.fsm = .blkOut) :
    tick u = tickBlockOutDec cbc u := by
  cases cbc <;> simp only [tick, hf, tickBlockOut, hl, decCommand, if_true, if_false, Bool.false_eq_true]

/-- BLK_OUT of a block that is not the last. -/
theorem tick_blkOut_dec_more (hl : u.latched = .command (decCommand cbc)) (hf : u.fsm = .blkOut)
    (h : u.blk + 1 < decBlocks u.srcBytes) : tick u = { u with
      mem := u.mem.storeBlock (u.dstBase + 16 * u.blk) u.sreg
      prev := if cbc then u.scratch.cipherBlock else u.prev
      fsm := .blkIn
      blk := u.blk + 1 } := by
  rw [tick_blkOut_dec hl hf, tickBlockOutDec, if_pos h]
  exact congrArg (fun f => { u with
    mem := u.mem.storeBlock (u.dstBase + 16 * u.blk) u.sreg
    prev := if cbc then u.scratch.cipherBlock else u.prev
    fsm := f
    blk := u.blk + 1 }) (if_pos h)

/-- BLK_OUT of the last block. -/
theorem tick_blkOut_dec_last (hl : u.latched = .command (decCommand cbc)) (hf : u.fsm = .blkOut)
    (h : ¬ u.blk + 1 < decBlocks u.srcBytes) : tick u = { u with
      mem := u.mem.storeBytes u.lastDst (unpadded u.hold)
      prev := if cbc then u.scratch.lastBlock else u.prev
      fsm := .finish
      blk := u.blk + 1 } := by
  rw [tick_blkOut_dec hl hf, tickBlockOutDec, if_neg h]
  exact congrArg (fun f => { u with
    mem := u.mem.storeBytes u.lastDst (unpadded u.hold)
    prev := if cbc then u.scratch.lastBlock else u.prev
    fsm := f
    blk := u.blk + 1 }) (if_neg h)

/-- After the rounds of the pre-check: the unchained final block in `S` and `HOLD`. -/
theorem leaveDecRound_precheck (hl : u.latched = .command (decCommand cbc)) (hp : u.scratch.precheck = true) {h : Block}
    (hh : (if cbc then blockXor u.sreg u.scratch.chainBlock else u.sreg) = h) :
    leaveDecRound u = { u with sreg := h, hold := h, fsm := .padChk } := by
  subst hh
  cases cbc <;> simp only [leaveDecRound, hl, hp, decCommand, if_true, if_false, Bool.false_eq_true]

theorem decOutput_congr {t : State} (b : Block) (hl : t.lat = u.lat) (hb : t.blk = u.blk) (hh : t.hold = u.hold) :
    decOutput b t = decOutput b u := by
  rw [decOutput, decOutput, hb, hh, State.srcBytes, hl, State.srcBytes]

/-- After the rounds of a block of the main pass. -/
theorem leaveDecRound_main (hl : u.latched = .command (decCommand cbc)) (hp : u.scratch.precheck = false) {out : Block}
    (hout : decOutput (if cbc then blockXor u.sreg u.prev else u.sreg) u = out) :
    leaveDecRound u = { u with sreg := out, fsm := .blkOut } := by
  subst hout
  cases cbc <;> simp only [leaveDecRound, hl, hp, decCommand, if_true, if_false, Bool.false_eq_true]

/-- The pre-check of a decryption leads to PAD_CHK with the final block in `HOLD` (R185, R187, R208). -/
theorem reaches_padState (hf : s.fsm = .check) (hl : s.latched = .command (decCommand cbc))
    (hc : commandCheck (decCommand cbc) s = .ok) (hnr : 0 < s.nr.toNat) : Reaches s (padState cbc s) := by
  have hstart := (tick_check_start hf hl hc).trans (startCommand_dec cbc s)
  have hin : tick (toBlockIn (decBlocks s.srcBytes - 1) true s) = { s with
      sreg := s.mem.loadBlock s.lastSrc
      rnd := s.nr.toNat
      blk := decBlocks s.srcBytes - 1
      fsm := .decRnd
      scratch := precheckScratch cbc s } := by
    have hchain : cbcDecChain (toBlockIn (decBlocks s.srcBytes - 1) true s) = cbcDecChain s := rfl
    have hpre : (toBlockIn (decBlocks s.srcBytes - 1) true s).scratch.precheck = true := rfl
    rw [tick_blkIn_dec (cbc := cbc) (by exact hl) rfl, tickBlockInDecrypt, if_pos hpre, tickBlockInPre, hchain]
    simp only [toBlockIn, precheckScratch, State.lastSrc, State.srcBase, State.srcBytes, State.ivBase]
  have hrounds := reaches_invCipher (s := { s with
      sreg := s.mem.loadBlock s.lastSrc
      rnd := s.nr.toNat
      blk := decBlocks s.srcBytes - 1
      fsm := .decRnd
      scratch := precheckScratch cbc s }) rfl rfl hnr rfl
  rw [leaveDecRound_precheck (h := decHold cbc s) (by simpa only [State.latched] using hl) rfl (by
    cases cbc <;> simp only [decHold, cbcDecHold, ecbDecHold, precheckScratch, if_true, if_false, Bool.false_eq_true])]
    at hrounds
  dsimp only at hrounds
  rw [padState]
  exact (Reaches.of_tick hstart).trans ((Reaches.of_tick hin).trans hrounds)

/-- A good padding leads from PAD_CHK to the first block of the main pass (R208). -/
theorem tick_padState_good (hp : padOK (decHold cbc s) = true) :
    tick (padState cbc s) = decState cbc s 0 (decHold cbc s) s.scratch.cipherBlock := by
  have h : tick (padState cbc s) = toBlockIn 0 false (padState cbc s) := if_pos hp
  have hmem : (decAfter cbc s 0).mem = s.mem := by cases cbc <;> rfl
  rw [h]
  simp only [toBlockIn, padState, decState, if_true, hmem, precheckScratch]

/-- BLK_IN and the rounds of one block of the main pass: `p` is its chaining value, `x` the input block, `sc` the locals
with it and `out` what BLK_OUT finds in `S` (R207). -/
theorem reaches_blkOut_dec (hl : u.latched = .command (decCommand cbc)) (hf : u.fsm = .blkIn)
    (hpre : u.scratch.precheck = false) (hnr : 0 < u.nr.toNat) {p x out : Block} {sc : Scratch}
    (hp : (if u.blk = 0 ∧ cbc then u.scratch.iv else u.prev) = p) (hx : decInput u = x)
    (hsc : { u.scratch with cipherBlock := x } = sc)
    (hout : decOutput (if cbc then blockXor (invCipher u.w u.nr.toNat x) p else invCipher u.w u.nr.toNat x) u = out) :
    Reaches u { u with prev := p, sreg := out, rnd := 0, fsm := .blkOut, scratch := sc } := by
  have hin : tick u = { u with prev := p, sreg := x, rnd := u.nr.toNat, fsm := .decRnd, scratch := sc } := by
    rw [tick_blkIn_dec hl hf, tickBlockInDecrypt, hpre, ← hsc]
    simp only [Bool.false_eq_true, if_false, tickBlockInDec, hp, hx]
  obtain ⟨y, hy⟩ : ∃ y, invCipher u.w u.nr.toNat x = y := ⟨_, rfl⟩
  have hrounds := reaches_invCipher
    (s := { u with prev := p, sreg := x, rnd := u.nr.toNat, fsm := .decRnd, scratch := sc }) rfl rfl hnr hy
  have hleave := leaveDecRound_main (u := { u with prev := p, sreg := y, rnd := 0, fsm := .decRnd, scratch := sc })
    (cbc := cbc) (out := out) (by simpa only [State.latched] using hl) (by rw [← hsc]; exact hpre)
    ((decOutput_congr (u := u) _ rfl rfl rfl).trans (hy ▸ hout))
  rw [hleave] at hrounds
  exact (Reaches.of_tick hin).trans hrounds

/-- The run of one block of the main pass is the loop's iteration. -/
theorem reaches_decState_succ (hl : s.latched = .command (decCommand cbc)) (hnr : 0 < s.nr.toNat) {k : Nat}
    (hk : k + 1 < decBlocks s.srcBytes) (b c : Block) :
    Reaches (decState cbc s k b c) (decState cbc s (k + 1) (decAfter cbc s (k + 1)).sreg
      ((decAfter cbc s k).mem.loadBlock (s.srcBase + 16 * k))) := by
  have hin : decInput (decState cbc s k b c) = (decAfter cbc s k).mem.loadBlock (s.srcBase + 16 * k) := if_pos hk
  have hout := reaches_blkOut_dec (u := decState cbc s k b c) hl rfl rfl hnr (decState_chain cbc s k) hin rfl
    ((if_pos hk).trans (decAfter_sreg_succ cbc s k))
  have hnext : decState cbc s (k + 1) (decAfter cbc s (k + 1)).sreg
        ((decAfter cbc s k).mem.loadBlock (s.srcBase + 16 * k)) = { decState cbc s k b c with
      mem := (decAfter cbc s k).mem.storeBlock (s.dstBase + 16 * k) (decAfter cbc s (k + 1)).sreg
      sreg := (decAfter cbc s (k + 1)).sreg
      prev := if cbc then (decAfter cbc s k).mem.loadBlock (s.srcBase + 16 * k) else (decAfter cbc s k).prev
      blk := k + 1
      scratch := { precheckScratch cbc s with
        precheck := false, cipherBlock := (decAfter cbc s k).mem.loadBlock (s.srcBase + 16 * k) } } := by
    simp only [decState, Nat.succ_ne_zero, if_false, decAfter_mem_succ, decAfter_prev_succ]
  rw [hnext]
  exact hout.trans (.of_tick (tick_blkOut_dec_more hl rfl hk))

/-- The run of a decryption goes through the states of its main pass. -/
theorem reaches_decState (hl : s.latched = .command (decCommand cbc)) (hnr : 0 < s.nr.toNat) {k : Nat}
    (hk : k < decBlocks s.srcBytes) (b c : Block) :
    ∃ b' c', Reaches (decState cbc s 0 b c) (decState cbc s k b' c') := by
  induction k with
  | zero => exact ⟨b, c, .refl _⟩
  | succ k ih =>
    obtain ⟨b', c', hr⟩ := ih (by omega)
    exact ⟨_, _, hr.trans (reaches_decState_succ hl hnr hk b' c')⟩

/-- The run of the last block leads to FINISH (R208). -/
theorem reaches_finish_dec (hl : s.latched = .command (decCommand cbc)) (hnr : 0 < s.nr.toNat) {k : Nat}
    (hk : k + 1 = decBlocks s.srcBytes) (b c : Block) :
    Reaches (decState cbc s k b c) (decFinal cbc s k) := by
  have hlast : ¬ k + 1 < decBlocks s.srcBytes := by omega
  have hin : decInput (decState cbc s k b c) = s.mem.loadBlock s.lastSrc := if_neg hlast
  have hout := reaches_blkOut_dec (u := decState cbc s k b c) hl rfl rfl hnr (decState_chain cbc s k) hin rfl
    (if_neg hlast)
  exact hout.trans (.of_tick (tick_blkOut_dec_last hl rfl hlast))

/-- After the last block FINISH writes what the atomic command leaves (R185, R187). -/
theorem sameButSequencer_dec (cbc : Bool) (s : State) :
    sameButSequencer (complete .ok (commandEffect (decCommand cbc) s)) (complete .ok
      (setOutLen (decLength s.srcBytes (decHold cbc s)) (decFinal cbc s (decBlocks s.srcBytes - 1)))) := by
  cases cbc with
  | false =>
    simp only [sameButSequencer, complete, commandEffect, decCommand, decFinal, decAfter, decHold, setOutLen,
      ecbDecEffect, precheckEffect, ecbDecPass, ecbDecAfter_prev, Bool.false_eq_true, if_false]
    simp only [ecbDecAfter]
  | true =>
    simp only [sameButSequencer, complete, commandEffect, decCommand, decFinal, decAfter, decHold, setOutLen,
      cbcDecEffect, precheckEffect, cbcDecPass, if_true]
    simp only [cbcDecAfter]

theorem keyValid_of_decCheck (hc : commandCheck (decCommand cbc) s = .ok) : s.keyValid = true := by
  cases cbc
  · exact ((checkEcbDec_ok_iff s).mp hc).1
  · exact ((checkCbcDec_ok_iff s).mp hc).1

theorem decBlocks_pos_of_decCheck (hc : commandCheck (decCommand cbc) s = .ok) : 0 < decBlocks s.srcBytes := by
  cases cbc
  · exact modeBlocks_pos (i := .ecbDec) rfl hc
  · exact modeBlocks_pos (i := .cbcDec) rfl hc

theorem refines_dec (hf : s.fsm = .check) (hl : s.latched = .command (decCommand cbc)) (hk : s.keyInv)
    (hc : commandCheck (decCommand cbc) s = .ok) (hp : padOK (decHold cbc s) = true) :
    sameButSequencer (complete .ok (commandEffect (decCommand cbc) s)) (ticks (tickBound s) s) := by
  have hnr := nr_pos_of_keyInv hk (keyValid_of_decCheck hc)
  have hpos : 0 < decBlocks s.srcBytes := decBlocks_pos_of_decCheck hc
  have hpad := (reaches_padState hf hl hc hnr).trans (.of_tick (tick_padState_good hp))
  obtain ⟨b, c, hblocks⟩ := reaches_decState hl hnr (Nat.sub_lt hpos one_pos) (decHold cbc s) s.scratch.cipherBlock
  have hrun := (hpad.trans hblocks).trans (reaches_finish_dec hl hnr (Nat.sub_add_cancel hpos) b c)
  exact refines_of_finish hf hrun rfl hl rfl (finishEffect_dec cbc _ ▸ sameButSequencer_dec cbc s)

/-- A bad padding leads from PAD_CHK through FINISH to its error (R208). -/
theorem refines_badPadding (hf : s.fsm = .check) (hl : s.latched = .command (decCommand cbc)) (hk : s.keyInv)
    (hc : commandCheck (decCommand cbc) s = .ok) {b : Block} (hb : b ∈ finalBlock (decCommand cbc) s)
    (hp : padOK b = false) :
    sameButSequencer (raiseModeError .badPadding (precheckEffect b s)) (ticks (tickBound s) s) := by
  obtain rfl : decHold cbc s = b := Option.some.inj ((finalBlock_dec cbc s).symm.trans hb)
  have hnr := nr_pos_of_keyInv hk (keyValid_of_decCheck hc)
  have hcheck : tick (padState cbc s) = toFinish .badPadding (padState cbc s) :=
    if_neg (Bool.eq_false_iff.mp hp)
  have hfinish : tick (toFinish .badPadding (padState cbc s)) =
      raiseModeError .badPadding (toFinish .badPadding (padState cbc s)) := by
    rw [tick_finish rfl, tickFinish_error (i := decCommand cbc) (by exact hl) (by exact nofun)]
    cases cbc <;> rfl
  refine refines_of_reaches hf rfl ((reaches_padState hf hl hc hnr).trans ((Reaches.of_tick hcheck).trans
    (.of_tick hfinish))) ?_
  simp only [sameButSequencer, raiseModeError, raiseError, complete, toFinish, padState, precheckEffect]

end Run

/-- A command whose checks pass. -/
theorem refines_success {i : Instr} {s : State} (hf : s.fsm = .check) (hl : s.latched = .command i) (hk : s.keyInv)
    (hc : commandCheck i s = .ok) (hp : ∀ b ∈ finalBlock i s, padOK b = true) :
    sameButSequencer (complete .ok (commandEffect i s)) (ticks (tickBound s) s) := by
  cases i with
  | keyExpand => exact refines_keyExpand hf hl hc
  | cipherBlock => exact refines_cipherBlock hf hl hk hc
  | invCipherBlock => exact refines_invCipherBlock hf hl hk hc
  | ecbEnc => exact refines_enc (cbc := false) hf hl hk hc
  | cbcEnc => exact refines_enc (cbc := true) hf hl hk hc
  | ecbDec => exact refines_dec (cbc := false) hf hl hk hc (hp _ rfl)
  | cbcDec => exact refines_dec (cbc := true) hf hl hk hc (hp _ rfl)
  | _ => exact refines_xform hf hl hc rfl rfl fun _ => rfl

/-- Settles O58: the state machine of each command is followed from CHECK to FINISH; at FINISH its state agrees with the
one the atomic command completes with, and the bound of R211 is enough to get there. -/
theorem stateMachineRefinesTheAtomicCommand : Obligations.StateMachineRefinesTheAtomicCommand := by
  intro s t hf hk ht
  cases hd : decode s.lat.cmd with
  | illegal y =>
    cases (runCommand_illegal hd).symm.trans ht
    exact refines_illegal hf hd
  | command i =>
    cases completes_of_exec ((runCommand_command hd).symm.trans ht) with
    | success hc hp => exact refines_success hf hd hk hc hp
    | checkFailed hc => exact refines_checkFailed hf hd hc
    | badPadding hc b hb hp =>
      cases i with
      | ecbDec => exact refines_badPadding (cbc := false) hf hd hk hc hb hp
      | cbcDec => exact refines_badPadding (cbc := true) hf hd hk hc hb hp
      | _ => cases hb

end Sys2Proof.Machine
end

section
/-! Every command completes, and no move of the host but a register access can be refused (R203, R230, R273). -/

namespace Sys2Proof.Machine

section

variable {s t : State}

theorem settle_agenda (s : State) : (settle s).agenda = s.agenda := by rw [settle_frame]

theorem tick_agenda (s : State) : (tick s).agenda = s.agenda := by
  by_cases hf : s.fsm = .finish
  · rw [tick_finish hf]; exact (tickFinish_frame s).agenda
  · rw [(tick_frame hf).frame]

theorem ticks_agenda (n : Nat) (s : State) : (ticks n s).agenda = s.agenda := by
  induction n generalizing s with
  | zero => rfl
  | succ n ih => rw [ticks, ih, tick_agenda]

theorem engineMove_answers (s : State) : ∃ t, engineMove s = .next t := by
  by_cases hi : s.fsm = .idle
  · exact ⟨s, engineMove_idle hi⟩
  by_cases hc : s.fsm = .check
  · obtain ⟨u, hu⟩ := runCommand_answers s
    exact ⟨settle u, by rw [engineMove_check hc, hu, settleOutcome_next]⟩
  · exact ⟨_, engineMove_running hi hc⟩

/-- The engine leaves the moves to come alone (log 7). -/
theorem engineMove_agenda (h : engineMove s = .next t) : t.agenda = s.agenda := by
  rcases engineMove_cases h with ⟨-, rfl⟩ | ⟨-, u, hu, rfl⟩ | rfl
  · rfl
  · rw [settle_agenda, (runCommand_keeps hu).1.agenda]
  · rw [settle_agenda, ticks_agenda]

theorem hostMemRead_agenda (a : Nat) (s : State) : (hostMemRead a s).agenda = s.agenda := by
  unfold hostMemRead
  split
  · rw [raiseHazard_agenda]
  · rfl

/-- A move that is not a register access is never refused, and none but `WAIT` adds moves (R34, R66, R230). -/
theorem performMove_answers {m : Move} (hw : ∀ width off v, m ≠ .regWrite width off v)
    (hr : ∀ width off, m ≠ .regRead width off) (s : State) :
    ∃ t, performMove m s = .next t ∧ ((∀ n, m ≠ .wait n) → t.agenda = s.agenda) := by
  cases m with
  | regWrite width off v => exact absurd rfl (hw width off v)
  | regRead width off => exact absurd rfl (hr width off)
  | memWrite a b => exact ⟨_, rfl, fun _ => by rw [hostMemWrite_frame]⟩
  | memRead a => exact ⟨_, rfl, fun _ => hostMemRead_agenda a s⟩
  | wait n => exact ⟨_, rfl, fun h => absurd rfl (h n)⟩
  | hardReset => exact ⟨_, rfl, fun _ => rfl⟩
  | powerCycle => exact ⟨_, rfl, fun _ => rfl⟩
  | engine =>
    obtain ⟨t, ht⟩ := engineMove_answers s
    exact ⟨t, ht, fun _ => engineMove_agenda ht⟩
  | tick => exact ⟨_, rfl, fun _ => by rw [settle_agenda, tick_agenda]⟩

theorem step_answers (hw : ∀ width off v, s.agenda.head? ≠ some (.regWrite width off v))
    (hr : ∀ width off, s.agenda.head? ≠ some (.regRead width off)) :
    ∃ t, step s = .next t ∧ ((∀ n, s.agenda.head? ≠ some (.wait n)) → t.agenda = s.agenda.tail) := by
  cases ha : s.agenda with
  | nil =>
    obtain ⟨t, ht⟩ := engineMove_answers s
    exact ⟨t, (step_nil ha).trans ht, fun _ => (engineMove_agenda ht).trans ha⟩
  | cons m rest =>
    simp only [ha, List.head?_cons, ne_eq, Option.some.injEq] at hw hr ⊢
    rw [step_cons ha]
    exact performMove_answers hw hr { s with agenda := rest }

/-- One read of a `WAIT` at the head of the agenda (R66; log 18). -/
theorem step_wait_answers {n : Nat} {rest : List Move} (ha : s.agenda = .wait n :: rest) :
    ∃ t, step s = .next t ∧ t = { s with agenda := t.agenda, regData := t.regData, draws := t.draws } ∧
      (s.fsm = .idle → s.done = true → t.agenda = rest ∧ t.regData = regValue .status s) ∧
      (s.fsm ≠ .idle ∨ s.done = false → t.agenda = waitAgain n ++ rest) := by
  refine ⟨_, step_wait ha, by rw [waitRead_frame], fun hi hd => ?_, fun h => ?_⟩
  · rw [waitRead_ends (s := { s with agenda := rest }) hi hd]
    exact ⟨rfl, rfl⟩
  · rw [waitRead_repeats (s := { s with agenda := rest }) (by simpa [imp_iff_not_or] using h)]

/-- A `WAIT` whose last poll finds a command at CHECK lets the engine complete it and then ends (R66, R203; log 18). -/
theorem step_wait_completes {rest : List Move} (hf : s.fsm = .check) (ha : s.agenda = .wait 0 :: rest) :
    ∃ t u v, step s = .next t ∧ step t = .next u ∧ step u = .next v ∧ v.agenda = rest ∧ v.fsm = .idle ∧
      v.done = true ∧ v.regData = regValue .status v := by
  obtain ⟨t, ht, hframe, -, hag⟩ := step_wait_answers ha
  have hbusy : s.fsm ≠ .idle := by rw [hf]; decide
  have hta : t.agenda = .engine :: .wait 0 :: rest := hag (.inl hbusy)
  have htf : t.fsm = .check := by rw [hframe]; exact hf
  obtain ⟨u, hu, hidle, hdone, -⟩ := engineMove_check_completes (s := { t with agenda := .wait 0 :: rest }) htf
  have hua : u.agenda = .wait 0 :: rest := engineMove_agenda hu
  have hv := step_wait hua
  rw [waitRead_ends (s := { u with agenda := rest }) hidle hdone] at hv
  exact ⟨t, u, _, ht, (step_engine hta).trans hu, hv, rfl, hidle, hdone, rfl⟩

end

/-- Settles O55: the command's completion, the answer of every move, and the three moves of a `WAIT`. -/
theorem everyCommandCompletes : Obligations.EveryCommandCompletes := by
  refine ⟨fun i s => ?_, fun s hw hr => step_answers hw hr, fun s n rest ha => ?_,
    fun s rest hf ha => step_wait_completes hf ha⟩
  · obtain ⟨t, ht, -⟩ := exec_completes i s
    have hframe := exec_frame ht
    exact ⟨t, ht, hframe.fsm, hframe.done, hframe.cmd, hframe.lat, hframe.ovr⟩
  · obtain ⟨t, ht, hframe, hends, hrepeats⟩ := step_wait_answers ha
    refine ⟨t, ht, hframe, hends, fun h => (hrepeats h).trans ?_⟩
    cases n <;> rfl

end Sys2Proof.Machine
end

section
/-! The operand registers and a running command: no step of the state machine reads or writes them (R212). -/

namespace Sys2Proof.Machine

/-- The nine operand registers holding what `o` does. -/
def withOperands (o : Latched) (s : State) : State := { s with
  keyAddr := o.keyAddr
  keyLen := o.keyLen
  ivAddr := o.ivAddr
  ivLen := o.ivLen
  srcAddr := o.srcAddr
  srcLen := o.srcLen
  dstAddr := o.dstAddr
  opA := o.opA
  opB := o.opB }

/-- The operands `o` with `v` written to register `r`. -/
def setOperand (r : RegName) (v : Word) (o : Latched) : Latched := latch 0 (writeReg r v (withOperands o State.reset))

theorem writeReg_eq_withOperands {r : RegName} (hr : r ∈ operandRegs) (v : Word) (s : State) :
    writeReg r v s = withOperands (setOperand r v (latch 0 s)) s := by
  cases r with
  | cmd | status | outLen | keycfg | res | reserved => simp [operandRegs] at hr
  | _ => rfl

theorem withOperands_latch (s : State) : withOperands (latch 0 s) s = s := rfl

section

variable (o : Latched) (s : State)

@[simp] theorem withOperands_latched : (withOperands o s).latched = s.latched := rfl
@[simp] theorem withOperands_scratch : (withOperands o s).scratch = s.scratch := rfl
@[simp] theorem withOperands_fsm : (withOperands o s).fsm = s.fsm := rfl
@[simp] theorem withOperands_rnd : (withOperands o s).rnd = s.rnd := rfl
@[simp] theorem withOperands_blk : (withOperands o s).blk = s.blk := rfl
@[simp] theorem withOperands_kidx : (withOperands o s).kidx = s.kidx := rfl
@[simp] theorem withOperands_hold : (withOperands o s).hold = s.hold := rfl
@[simp] theorem withOperands_keyBytes : (withOperands o s).keyBytes = s.keyBytes := rfl
@[simp] theorem withOperands_srcBytes : (withOperands o s).srcBytes = s.srcBytes := rfl

theorem commandCheck_withOperands (i : Instr) : commandCheck i (withOperands o s) = commandCheck i s :=
  commandCheck_congr i rfl rfl rfl rfl

theorem startCommand_withOperands (i : Instr) :
    startCommand i (withOperands o s) = withOperands o (startCommand i s) := by
  cases i <;> rfl

/-! What the mode commands compute. -/

theorem ecbEncPass_withOperands : ecbEncPass (withOperands o s) = ecbEncPass s := rfl
theorem cbcEncPass_withOperands : cbcEncPass (withOperands o s) = cbcEncPass s := rfl
theorem ecbDecPass_withOperands : ecbDecPass (withOperands o s) = ecbDecPass s := rfl
theorem cbcDecPass_withOperands : cbcDecPass (withOperands o s) = cbcDecPass s := rfl
theorem ecbDecHold_withOperands : ecbDecHold (withOperands o s) = ecbDecHold s := rfl
theorem cbcDecHold_withOperands : cbcDecHold (withOperands o s) = cbcDecHold s := rfl

theorem commandEffect_withOperands (i : Instr) :
    commandEffect i (withOperands o s) = withOperands o (commandEffect i s) := by
  cases i with
  | ecbEnc => simp only [commandEffect, ecbEncEffect, ecbEncPass_withOperands]; rfl
  | cbcEnc => simp only [commandEffect, cbcEncEffect, cbcEncPass_withOperands]; rfl
  | ecbDec =>
    simp only [commandEffect, ecbDecEffect, ecbDecPass_withOperands, ecbDecHold_withOperands]
    simp only [setOutLen, precheckEffect, withOperands, State.srcBytes, State.lastDst, State.dstBase]
  | cbcDec =>
    simp only [commandEffect, cbcDecEffect, cbcDecPass_withOperands, cbcDecHold_withOperands]
    simp only [setOutLen, precheckEffect, withOperands, State.srcBytes, State.lastSrc, State.lastDst, State.srcBase,
      State.dstBase]
  | _ => rfl

theorem xformEffect_withOperands (i : Instr) :
    xformEffect i (withOperands o s) = withOperands o (xformEffect i s) := by
  cases i <;> rfl

theorem commandError_withOperands (i : Instr) (e : ErrCode) :
    commandError i e (withOperands o s) = withOperands o (commandError i e s) := by
  cases i <;> rfl

theorem finalBlock_withOperands (i : Instr) : finalBlock i (withOperands o s) = finalBlock i s := by
  cases i <;> rfl

/-! The steps of the state machine, one by one. -/

theorem tickCheck_withOperands : tickCheck (withOperands o s) = withOperands o (tickCheck s) := by
  unfold tickCheck
  rw [withOperands_latched]
  cases s.latched with
  | illegal y => rfl
  | command i =>
    dsimp only
    rw [commandCheck_withOperands, startCommand_withOperands]
    cases commandCheck i s <;> rfl

theorem tickXform_withOperands : tickXform (withOperands o s) = withOperands o (tickXform s) := by
  unfold tickXform
  rw [withOperands_latched]
  cases s.latched with
  | illegal y => rfl
  | command i => dsimp only; rw [xformEffect_withOperands]; rfl

theorem tickKload_withOperands : tickKload (withOperands o s) = withOperands o (tickKload s) := by
  unfold tickKload
  rw [withOperands_latched]
  split <;> rfl

theorem expandOneWord_withOperands : expandOneWord (withOperands o s) = withOperands o (expandOneWord s) := by
  unfold expandOneWord
  rw [withOperands_kidx, withOperands_keyBytes]
  split <;> rfl

theorem tickKexp_withOperands : tickKexp (withOperands o s) = withOperands o (tickKexp s) := by
  unfold tickKexp
  rw [withOperands_latched]
  split
  · exact expandOneWord_withOperands o s
  · rfl

theorem tickBlockInDecrypt_withOperands (cbc : Bool) :
    tickBlockInDecrypt cbc (withOperands o s) = withOperands o (tickBlockInDecrypt cbc s) := by
  unfold tickBlockInDecrypt
  rw [withOperands_scratch]
  split <;> rfl

theorem tickBlockIn_withOperands : tickBlockIn (withOperands o s) = withOperands o (tickBlockIn s) := by
  unfold tickBlockIn
  rw [withOperands_latched]
  split
  · rfl
  · rfl
  · exact tickBlockInDecrypt_withOperands o s _
  · exact tickBlockInDecrypt_withOperands o s _
  · rfl

theorem tickEncRound_withOperands : tickEncRound (withOperands o s) = withOperands o (tickEncRound s) := rfl

theorem leaveDecRound_withOperands : leaveDecRound (withOperands o s) = withOperands o (leaveDecRound s) := by
  unfold leaveDecRound
  rw [withOperands_latched, withOperands_scratch]
  split
  · split <;> rfl
  · split <;> rfl
  · rfl

theorem tickDecRound_withOperands : tickDecRound (withOperands o s) = withOperands o (tickDecRound s) := by
  unfold tickDecRound
  rw [withOperands_rnd]
  split
  · exact (congrArg leaveDecRound (by simp only [withOperands])).trans (leaveDecRound_withOperands o _)
  · rfl

theorem tickPadCheck_withOperands : tickPadCheck (withOperands o s) = withOperands o (tickPadCheck s) := by
  unfold tickPadCheck
  rw [withOperands_hold]
  split <;> rfl

theorem tickBlockOutDec_withOperands (cbc : Bool) :
    tickBlockOutDec cbc (withOperands o s) = withOperands o (tickBlockOutDec cbc s) := by
  unfold tickBlockOutDec
  rw [withOperands_blk, withOperands_srcBytes]
  split <;> rfl

theorem tickBlockOut_withOperands : tickBlockOut (withOperands o s) = withOperands o (tickBlockOut s) := by
  unfold tickBlockOut
  rw [withOperands_latched]
  split
  · rfl
  · rfl
  · exact tickBlockOutDec_withOperands o s _
  · exact tickBlockOutDec_withOperands o s _
  · rfl

theorem finishEffect_withOperands (i : Instr) :
    finishEffect i (withOperands o s) = withOperands o (finishEffect i s) := by
  cases i <;> rfl

theorem tickFinish_withOperands : tickFinish (withOperands o s) = withOperands o (tickFinish s) := by
  cases hd : s.latched with
  | illegal y => simp only [tickFinish, withOperands_latched, hd]; rfl
  | command i =>
    by_cases h : s.scratch.pending = .ok
    · rw [tickFinish_ok hd h, tickFinish_ok (s := withOperands o s) hd h, finishEffect_withOperands]
      rfl
    · rw [tickFinish_error hd h, tickFinish_error (s := withOperands o s) hd h, withOperands_scratch,
        commandError_withOperands]

/-- No step of the state machine reads or writes the operand registers (R212). -/
theorem tick_withOperands : tick (withOperands o s) = withOperands o (tick s) := by
  unfold tick
  rw [withOperands_fsm]
  cases s.fsm with
  | idle => rfl
  | check => exact tickCheck_withOperands o s
  | xform => exact tickXform_withOperands o s
  | kload => exact tickKload_withOperands o s
  | kexp => exact tickKexp_withOperands o s
  | blkIn => exact tickBlockIn_withOperands o s
  | encRnd => exact tickEncRound_withOperands o s
  | decRnd => exact tickDecRound_withOperands o s
  | padChk => exact tickPadCheck_withOperands o s
  | blkOut => exact tickBlockOut_withOperands o s
  | finish => exact tickFinish_withOperands o s

end

section

variable {i : Instr} {s t u : State}

theorem completes_withOperands (o : Latched) (h : Completes i s t) :
    Completes i (withOperands o s) (withOperands o t) := by
  have hcheck := commandCheck_withOperands o s i
  have hfinal := finalBlock_withOperands o s i
  cases h with
  | success hc hp =>
    have h := Completes.success (hcheck.trans hc) (by rwa [hfinal])
    rwa [commandEffect_withOperands] at h
  | checkFailed hc =>
    have h := Completes.checkFailed (i := i) (s := withOperands o s) (by rwa [hcheck])
    rwa [hcheck, commandError_withOperands] at h
  | badPadding hc b hb hp => exact .badPadding (hcheck.trans hc) b (by rwa [hfinal]) hp

/-- A command has one completion. -/
theorem Completes.unique (ht : Completes i s t) (hu : Completes i s u) : t = u := by
  cases ht with
  | success hc hp =>
    cases hu with
    | success => rfl
    | checkFailed hne => exact absurd hc hne
    | badPadding _ b hb hbad => rw [hp b hb] at hbad; cases hbad
  | checkFailed hne =>
    cases hu with
    | success hc _ => exact absurd hc hne
    | checkFailed => rfl
    | badPadding hc => exact absurd hc hne
  | badPadding hc b hb hbad =>
    cases hu with
    | success _ hp => rw [hp b hb] at hbad; cases hbad
    | checkFailed hne => exact absurd hc hne
    | badPadding _ c hc' => rw [Option.mem_unique hb hc']

/-- A command completes the same whatever the operand registers hold (R212). -/
theorem runCommand_withOperands (o : Latched) (h : runCommand s = .next t) :
    runCommand (withOperands o s) = .next (withOperands o t) := by
  cases hd : decode s.lat.cmd with
  | illegal y =>
    cases (runCommand_illegal hd).symm.trans h
    exact runCommand_illegal hd
  | command i =>
    have ht := completes_of_exec ((runCommand_command hd).symm.trans h)
    obtain ⟨u, hu, hcu⟩ := exec_completes i (withOperands o s)
    rw [runCommand_command (by exact hd), hu, hcu.unique (completes_withOperands o ht)]

/-! So the operand registers keep what they hold. -/

theorem latch_tick (s : State) : latch 0 (tick s) = latch 0 s := by
  have h := tick_withOperands (latch 0 s) s
  rw [withOperands_latch] at h
  rw [h]
  rfl

theorem latch_of_runCommand (h : runCommand s = .next t) : latch 0 t = latch 0 s := by
  have ht := runCommand_withOperands (latch 0 s) h
  rw [withOperands_latch, h] at ht
  rw [Host.Outcome.next.inj ht]
  rfl

end

/-- Settles O8: the write is a change of the operand registers, which commutes with each step of the state machine and
with the command as a whole; acceptance latches them, and a STATUS write reaches DONE and OVR only. -/
theorem operandWritesWhileBusyWaitForTheNextCommand : Obligations.OperandWritesWhileBusyWaitForTheNextCommand := by
  refine ⟨fun s r v _ hr => ?_, fun s v c => ?_, fun s v _ => rfl⟩
  · obtain ⟨hvalue, -, hlat, -⟩ := writeReg_operand hr v s
    refine ⟨(regValueBusy_steady (operandRegs_steady hr) _).trans hvalue, hlat, ?_, fun _ => ?_⟩
    · rw [writeReg_eq_withOperands hr, writeReg_eq_withOperands hr, tick_withOperands, latch_tick]
    · obtain ⟨t, ht⟩ := runCommand_answers s
      refine ⟨t, ht, ?_⟩
      rw [writeReg_eq_withOperands hr, writeReg_eq_withOperands hr, runCommand_withOperands _ ht,
        latch_of_runCommand ht]
  · exact ⟨rfl, rfl, rfl, rfl, rfl, rfl, rfl, rfl, rfl⟩

end Sys2Proof.Machine
end

section
/-! The code a command completes with: the first error of its checks, then of a decryption's padding (R240). -/

namespace Sys2Proof.Machine

section FirstError

variable {l l' : List (Bool × ErrCode)} {b : Bool} {e e' : ErrCode} {P : Prop} {_ : Decidable P}

/-- A check that fails exactly when `P` holds, before checks that give `e'`. -/
theorem firstError_cons_eq_ite (hb : b = true ↔ P) (hl : firstError l = e') :
    firstError ((b, e) :: l) = if P then e else e' := by
  rw [firstError, hl]
  exact if_congr hb rfl rfl

theorem firstError_append (h : ∀ x ∈ l, x.2 ≠ .ok) :
    firstError (l ++ l') = if firstError l = .ok then firstError l' else firstError l := by
  induction l with
  | nil => rfl
  | cons x l ih =>
    obtain ⟨hx, hl⟩ := List.forall_mem_cons.mp h
    obtain ⟨b, e⟩ := x
    cases b with
    | false => exact ih hl
    | true => exact (if_neg hx).symm

/-- A code other than 0 that no check raises is not reported. -/
theorem firstError_ne (he : e ≠ .ok) (h : ∀ x ∈ l, x.2 ≠ e) : firstError l ≠ e := by
  induction l with
  | nil => exact he.symm
  | cons x l ih =>
    obtain ⟨hx, hl⟩ := List.forall_mem_cons.mp h
    rw [firstError]
    split
    · exact hx
    · exact ih hl

end FirstError

section Commands

variable {i : Instr} {s t : State}

/-- The range check fails outside the bounds (R51, R237). -/
theorem not_inBounds_iff (s : State) (base len : Nat) :
    (!s.mem.inBounds base len) = true ↔ ¬rangeFits s base len := by
  rw [← rangeCheck_iff, Bool.not_eq_false]

/-- A command with the checks `l` reports the first error of `l`, a decryption's padding being checked last (R240). -/
theorem exec_err_eq_firstError {l : List (Bool × ErrCode)} (h : exec i s = .next t)
    (hc : commandCheck i s = firstError l) (hl : ∀ x ∈ l, x.2 ≠ .ok) :
    t.err = firstError (l ++ (finalBlock i s).toList.map fun b => (!padOK b, .badPadding)) := by
  rw [firstError_append hl, ← hc]
  cases completes_of_exec h with
  | success hok hp => rw [if_pos hok, complete_err, (firstError_ok_iff _ (by simp)).mpr (by simpa using hp)]
  | checkFailed hfail => rw [if_neg hfail, commandError_err]
  | badPadding hok b hb hp =>
    rw [if_pos hok, raiseModeError_err, Option.mem_def.mp hb, Option.toList_some, List.map_singleton, hp]
    rfl

end Commands

/-- Settles O53: each command's checks, one by one in the order of R240. -/
theorem errorsAreReportedInPriorityOrder : Obligations.ErrorsAreReportedInPriorityOrder := by
  refine ⟨fun s y hag hf hd => ?_, ?_⟩
  · refine ⟨_, by rw [step_nil hag, engineMove_check hf, runCommand_illegal hd, settleOutcome_next], ?_⟩
    rw [settle_frame]
    rfl
  · rintro i s _ _ _ rfl rfl rfl
    obtain ⟨t, ht, -⟩ := exec_completes i s
    refine ⟨t, ht, ?_⟩
    have hkey : (!s.keyValid) = true ↔ s.keyValid = false := by rw [Bool.not_eq_true']
    have hkeyLength : (!(s.keyBytes == 16 || s.keyBytes == 24 || s.keyBytes == 32)) = true ↔
        s.lat.keyLen.toNat ∉ [16, 24, 32] := by simp [State.keyBytes, and_assoc]
    have hlength : (s.srcBytes == 0 || s.srcBytes % 16 != 0) = true ↔
        s.lat.srcLen.toNat = 0 ∨ s.lat.srcLen.toNat % 16 ≠ 0 := by simp [State.srcBytes]
    have hiv : (s.ivBytes != 16) = true ↔ s.lat.ivLen.toNat ≠ 16 := bne_iff_ne
    have hrange (base len : Nat) := not_inBounds_iff s base len
    have hpad (b : Block) : (!padOK b) = true ↔ padOK b = false := by rw [Bool.not_eq_true']
    cases i with
    | keyExpand =>
      exact (exec_err_eq_firstError ht rfl (by simp)).trans <|
        firstError_cons_eq_ite hkeyLength <| firstError_cons_eq_ite (hrange _ _) rfl
    | stateLoad =>
      exact (exec_err_eq_firstError ht rfl (by simp)).trans <| firstError_cons_eq_ite (hrange _ _) rfl
    | stateStore =>
      exact (exec_err_eq_firstError ht rfl (by simp)).trans <| firstError_cons_eq_ite (hrange _ _) rfl
    | addRoundKey round =>
      exact (exec_err_eq_firstError ht rfl (by simp)).trans <|
        firstError_cons_eq_ite hkey <| firstError_cons_eq_ite decide_eq_true_iff rfl
    | cipherBlock => exact (exec_err_eq_firstError ht rfl (by simp)).trans <| firstError_cons_eq_ite hkey rfl
    | invCipherBlock => exact (exec_err_eq_firstError ht rfl (by simp)).trans <| firstError_cons_eq_ite hkey rfl
    | ecbEnc =>
      exact (exec_err_eq_firstError ht rfl (by simp)).trans <|
        firstError_cons_eq_ite hkey <|
        firstError_cons_eq_ite (hrange _ _) <| firstError_cons_eq_ite (hrange _ _) rfl
    | cbcEnc =>
      exact (exec_err_eq_firstError ht rfl (by simp)).trans <|
        firstError_cons_eq_ite hkey <| firstError_cons_eq_ite hiv <|
        firstError_cons_eq_ite (hrange _ _) <| firstError_cons_eq_ite (hrange _ _) <|
        firstError_cons_eq_ite (hrange _ _) rfl
    | ecbDec =>
      exact (exec_err_eq_firstError ht rfl (by simp)).trans <|
        firstError_cons_eq_ite hkey <| firstError_cons_eq_ite hlength <|
        firstError_cons_eq_ite (hrange _ _) <| firstError_cons_eq_ite (hrange _ _) <|
        firstError_cons_eq_ite (hpad _) rfl
    | cbcDec =>
      exact (exec_err_eq_firstError ht rfl (by simp)).trans <|
        firstError_cons_eq_ite hkey <| firstError_cons_eq_ite hlength <| firstError_cons_eq_ite hiv <|
        firstError_cons_eq_ite (hrange _ _) <| firstError_cons_eq_ite (hrange _ _) <|
        firstError_cons_eq_ite (hrange _ _) <| firstError_cons_eq_ite (hpad _) rfl
    | _ => exact exec_err_eq_firstError (l := []) ht rfl (by simp)

end Sys2Proof.Machine
end

section
/-! What an error leaves as it was: every byte of memory, and all of the state but for STATUS and the items of R238. -/

namespace Sys2Proof.Machine

variable {i : Instr} {s t : State}

/-- A failed check changes STATUS, the key of `KEY_EXPAND` and the `OUT_LEN` of a mode command (R238 items 4 and 5). -/
theorem commandError_eq_onlyStatus (i : Instr) (e : ErrCode) (s : State) : commandError i e s = onlyStatus e { s with
    keyValid := if i = .keyExpand then false else s.keyValid
    nk := if i = .keyExpand then 0 else s.nk
    nr := if i = .keyExpand then 0 else s.nr
    outLen := if isMode i then 0 else s.outLen } := by
  cases i <;> rfl

/-- No check before the decryption of the final block raises `BadPadding` (R240). -/
theorem commandCheck_ne_badPadding (i : Instr) (s : State) : commandCheck i s ≠ .badPadding := by
  cases i with
  | keyExpand | stateLoad | stateStore | addRoundKey | cipherBlock | invCipherBlock | ecbEnc | ecbDec | cbcEnc
  | cbcDec => exact firstError_ne (by decide) (by simp)
  | _ => exact nofun

/-- A final block is that of one of the two decryptions (R185, R187). -/
theorem finalBlock_eq_some_iff {b : Block} :
    finalBlock i s = some b ↔ i = .ecbDec ∧ b = ecbDecHold s ∨ i = .cbcDec ∧ b = cbcDecHold s := by
  cases i <;> simp [finalBlock, eq_comm]

/-- An error keeps the memory, PREV, RES and W (R238 items 1, 6 and 7). -/
theorem exec_error_keeps (h : exec i s = .next t) (he : t.err ≠ .ok) :
    t.mem = s.mem ∧ t.prev = s.prev ∧ t.res = s.res ∧ t.w = s.w := by
  cases completes_of_exec h with
  | success hc hp => exact absurd rfl he
  | checkFailed hc => rw [commandError_eq_onlyStatus]; exact ⟨rfl, rfl, rfl, rfl⟩
  | badPadding hc b hb hp => exact ⟨rfl, rfl, rfl, rfl⟩

/-- An error of `KEY_EXPAND` unloads the key (R238 item 4). -/
theorem exec_keyExpand_error_unloads (h : exec .keyExpand s = .next t) (he : t.err ≠ .ok) :
    t.keyValid = false ∧ t.nk = 0 ∧ t.nr = 0 := by
  cases completes_of_exec h with
  | success hc hp => exact absurd rfl he
  | checkFailed hc => exact ⟨rfl, rfl, rfl⟩
  | badPadding hc b hb hp => cases hb

/-- An error other than `BadPadding` keeps `S` (R238). -/
theorem exec_error_keeps_sreg (h : exec i s = .next t) (he : t.err ≠ .ok) (hb : t.err ≠ .badPadding) :
    t.sreg = s.sreg := by
  cases completes_of_exec h with
  | success hc hp => exact absurd rfl he
  | checkFailed hc => rw [commandError_eq_onlyStatus]; rfl
  | badPadding hc b _ hp => exact absurd rfl hb

/-- After `BadPadding`, `S` holds the rejected final block of the decryption (R238). -/
theorem exec_badPadding_sreg (h : exec i s = .next t) (hb : t.err = .badPadding) :
    t.sreg = t.hold ∧ padOK t.sreg = false ∧ finalBlock i s = some t.sreg := by
  cases completes_of_exec h with
  | success hc hp => cases hb
  | checkFailed hc => exact absurd ((commandError_err i _ s).symm.trans hb) (commandCheck_ne_badPadding i s)
  | badPadding hc b hfinal hp => exact ⟨rfl, hp, hfinal⟩

/-- Settles O54: each item of R238, read off the two ways a command reports an error. -/
theorem errorsLeaveNoPartialOutput : Obligations.ErrorsLeaveNoPartialOutput := by
  refine ⟨fun s t y hd h => ?_, fun i s t h he => ?_⟩
  · cases (runCommand_illegal hd).symm.trans h
    rfl
  · have hframe := exec_frame h
    obtain ⟨hmem, hprev, hres, hw⟩ := exec_error_keeps h he
    refine ⟨hmem, hframe.done, hframe.fsm, hframe.cmd, ?_, fun hi => exec_keeps_key hi h,
      fun hi => exec_mode_error_outLen hi he h, fun hi => exec_keeps_outLen hi h, exec_error_keeps_sreg h he,
      fun hb => ?_, hprev, hres, hw⟩
    · rintro rfl
      exact exec_keyExpand_error_unloads h he
    · obtain ⟨hhold, hpad, hfinal⟩ := exec_badPadding_sreg h hb
      exact ⟨hhold, hpad, finalBlock_eq_some_iff.mp hfinal⟩

end Sys2Proof.Machine
end

section
/-! OVR: no command reads or writes it, and of the host's moves only a reset, a power-on and a STATUS write clear it
(R245). -/

namespace Sys2Proof.Machine

variable {i : Instr} {s t : State}

/-- The state `s`, OVR holding `b`. -/
def withOvr (b : Bool) (s : State) : State := { s with ovr := b }

theorem commandCheck_withOvr (b : Bool) (s : State) (i : Instr) : commandCheck i (withOvr b s) = commandCheck i s :=
  commandCheck_congr i rfl rfl rfl rfl

theorem finalBlock_withOvr (b : Bool) (s : State) (i : Instr) : finalBlock i (withOvr b s) = finalBlock i s := by
  cases i <;> rfl

theorem commandError_withOvr (b : Bool) (s : State) (i : Instr) (e : ErrCode) :
    commandError i e (withOvr b s) = withOvr b (commandError i e s) := by
  cases i <;> rfl

/-- No command's effect reads or writes OVR. -/
theorem commandEffect_withOvr (b : Bool) (s : State) (i : Instr) :
    commandEffect i (withOvr b s) = withOvr b (commandEffect i s) := by
  cases i with
  | ecbEnc =>
    have hpass : ecbEncPass (withOvr b s) = ecbEncPass s := rfl
    simp only [commandEffect, ecbEncEffect, hpass]
    rfl
  | cbcEnc =>
    have hpass : cbcEncPass (withOvr b s) = cbcEncPass s := rfl
    simp only [commandEffect, cbcEncEffect, hpass]
    rfl
  | ecbDec =>
    have hpass : ecbDecPass (withOvr b s) = ecbDecPass s := rfl
    have hhold : ecbDecHold (withOvr b s) = ecbDecHold s := rfl
    simp only [commandEffect, ecbDecEffect, hpass, hhold]
    simp only [setOutLen, precheckEffect, withOvr, State.srcBytes, State.lastDst, State.dstBase]
  | cbcDec =>
    have hpass : cbcDecPass (withOvr b s) = cbcDecPass s := rfl
    have hhold : cbcDecHold (withOvr b s) = cbcDecHold s := rfl
    simp only [commandEffect, cbcDecEffect, hpass, hhold]
    simp only [setOutLen, precheckEffect, withOvr, State.srcBytes, State.lastSrc, State.lastDst, State.srcBase,
      State.dstBase]
  | _ => rfl

theorem completes_withOvr (b : Bool) (h : Completes i s t) : Completes i (withOvr b s) (withOvr b t) := by
  have hcheck := commandCheck_withOvr b s i
  have hfinal := finalBlock_withOvr b s i
  cases h with
  | success hc hp =>
    have h := Completes.success (hcheck.trans hc) (by rwa [hfinal])
    rwa [commandEffect_withOvr] at h
  | checkFailed hc =>
    have h := Completes.checkFailed (i := i) (s := withOvr b s) (by rwa [hcheck])
    rwa [hcheck, commandError_withOvr] at h
  | badPadding hc blk hb hp => exact .badPadding (hcheck.trans hc) blk (by rwa [hfinal]) hp

/-- A command does the same whatever OVR holds (R245). -/
theorem exec_withOvr (b : Bool) (h : exec i s = .next t) : exec i (withOvr b s) = .next (withOvr b t) := by
  obtain ⟨u, hu, hcu⟩ := exec_completes i (withOvr b s)
  rw [hu, hcu.unique (completes_withOvr b (completes_of_exec h))]

theorem settle_ovr (s : State) : (settle s).ovr = s.ovr := by rw [settle_frame]

theorem tick_ovr (s : State) : (tick s).ovr = s.ovr := by
  by_cases hf : s.fsm = .finish
  · rw [tick_finish hf]; exact (tickFinish_frame s).ovr
  · rw [(tick_frame hf).frame]

theorem ticks_ovr (n : Nat) (s : State) : (ticks n s).ovr = s.ovr := by
  induction n generalizing s with
  | zero => rfl
  | succ n ih => rw [ticks, ih, tick_ovr]

/-- The engine leaves OVR alone, whatever command it runs. -/
theorem engineMove_ovr (h : engineMove s = .next t) : t.ovr = s.ovr := by
  rcases engineMove_cases h with ⟨-, rfl⟩ | ⟨-, u, hu, rfl⟩ | rfl
  · rfl
  · rw [settle_ovr, (runCommand_keeps hu).1.ovr]
  · rw [settle_ovr, ticks_ovr]

theorem readReg_ovr (r : RegName) (s : State) : (readReg r s).ovr = s.ovr := by
  unfold readReg; split <;> rfl

theorem hostMemRead_ovr (a : Nat) (s : State) : (hostMemRead a s).ovr = s.ovr := by
  unfold hostMemRead
  split
  · rw [raiseHazard_ovr]
  · rfl

/-- A register write leaves OVR set, unless it writes 1 to OVR's bit of STATUS (R24, R202, R245). -/
theorem writeReg_keeps_ovr (r : RegName) (v : Word) (ho : s.ovr = true) :
    (writeReg r v s).ovr = true ∨ r = .status ∧ v.getLsbD 3 = true := by
  cases r with
  | cmd =>
    rw [writeReg, writeCmd]
    split
    · exact .inl rfl
    · exact .inl ho
  | status =>
    rw [writeReg, writeStatus_ovr, ho]
    cases v.getLsbD 3 with
    | false => exact .inl rfl
    | true => exact .inr ⟨rfl, rfl⟩
  | _ => exact .inl ho

theorem eq_four_of_regAt_eq_status {off : Nat} (h : regAt off = .status) : off = 0x04 := by
  unfold regAt at h
  split at h
  case h_2 => rfl
  all_goals cases h

/-- A move that clears OVR is a reset, a power-on or a write of 1 to its bit of STATUS (R245). -/
theorem performMove_keeps_ovr {m : Move} (ho : s.ovr = true) (h : performMove m s = .next t) :
    t.ovr = true ∨ m = .hardReset ∨ m = .powerCycle ∨
      ∃ v, m = .regWrite .word 0x04 v ∧ v.getLsbD 3 = true := by
  cases m with
  | regWrite width off v =>
    obtain ⟨rfl, -, -, rfl⟩ := regAccess_next (f := fun r => writeReg r v s) h
    rcases writeReg_keeps_ovr (regAt off) v ho with ho' | ⟨hstatus, hv⟩
    · exact .inl ho'
    · obtain rfl := eq_four_of_regAt_eq_status hstatus
      exact .inr (.inr (.inr ⟨v, rfl, hv⟩))
  | regRead width off => exact .inl (by rw [performMove_regRead h, readReg_ovr, ho])
  | memWrite a b => cases h; exact .inl (by rw [hostMemWrite_frame]; exact ho)
  | memRead a => cases h; exact .inl (by rw [hostMemRead_ovr, ho])
  | wait n => cases h; exact .inl (by rw [waitRead_frame]; exact ho)
  | hardReset => exact .inr (.inl rfl)
  | powerCycle => exact .inr (.inr (.inl rfl))
  | engine => exact .inl (by rw [engineMove_ovr h, ho])
  | tick => cases h; exact .inl (by rw [settle_ovr, tick_ovr, ho])

/-- Settles O57: the moves one by one, and the completions of a command, none of which reads OVR. -/
theorem ovrIsSticky : Obligations.OvrIsSticky := by
  refine ⟨fun s t ho h => ?_, fun i s t b h => exec_withOvr b h⟩
  cases ha : s.agenda with
  | nil =>
    rw [step_nil ha] at h
    exact .inl ((engineMove_ovr h).trans ho)
  | cons m rest =>
    rw [step_cons ha] at h
    simpa only [List.head?_cons, Option.some.injEq] using performMove_keeps_ovr (s := { s with agenda := rest }) ho h

end Sys2Proof.Machine
end

section
/-! Reset: every piece of state at its reset value, and the bytes of an abandoned command (R260 to R262). -/

namespace Sys2Proof.Machine

variable {s : State}

/-- Reset leaves only `W`, the memory and the model's own fields open (R36, R260). -/
theorem resetWith_frame (m : Memory) (d : Nat) (s : State) : resetWith m d s = { State.reset with
    w := (resetWith m d s).w, mem := m, scratch := (resetWith m d s).scratch, hazard := (resetWith m d s).hazard
    draws := (resetWith m d s).draws, regData := (resetWith m d s).regData, memData := (resetWith m d s).memData
    agenda := s.agenda } := by
  simp only [resetWith, State.reset]

/-- After reset the engine waits in IDLE (R260). -/
theorem step_resetWith_waits (m : Memory) (d : Nat) (s : State) :
    step { resetWith m d s with agenda := [] } = .next { resetWith m d s with agenda := [] } := by
  have hidle : { resetWith m d s with agenda := [] }.fsm = .idle := rfl
  rw [step_nil rfl, engineMove_idle hidle]

theorem hardReset_mem (s : State) : (hardReset s).mem = s.mem.scrambleRanges (abandonedRanges s) s.draws := by
  simp only [hardReset, resetWith]

/-- An idle block has no command to abandon (R262). -/
theorem abandonedRanges_idle (hi : s.fsm = .idle) : abandonedRanges s = [] := by
  simp [abandonedRanges, (busy_eq_false_iff s).mpr hi]

/-- With no forbidden access pending, a busy block abandons the destination range alone (R261). -/
theorem abandonedRanges_busy (hb : s.fsm ≠ .idle) (hz : s.hazard = false) : abandonedRanges s = writtenRanges s := by
  simp [abandonedRanges, (busy_iff s).mpr hb, hz]

/-- A reset while idle changes no byte (R262). -/
theorem hardReset_mem_idle (hi : s.fsm = .idle) : (hardReset s).mem = s.mem := by
  rw [hardReset_mem, abandonedRanges_idle hi]; rfl

/-- With no forbidden access pending, reset keeps every byte outside the destination range (R261, R262). -/
theorem hardReset_load_outside {x : Nat} (hz : s.hazard = false) (hx : inRanges (writtenRanges s) x = false) :
    (hardReset s).mem.load x = s.mem.load x := by
  by_cases hi : s.fsm = .idle
  · rw [hardReset_mem_idle hi]
  · rw [hardReset_mem, abandonedRanges_busy hi hz]
    exact Memory.load_scrambleRanges_out _ _ _ _ hx

/-- Settles O18: a reset and a power-on are both `resetWith`, of a memory of the size before. -/
theorem resetMoveGivesTheResetValues : Obligations.ResetMoveGivesTheResetValues := by
  rintro s rest (h | h)
  · exact ⟨_, step_hardReset h, resetWith_frame _ _ _, Memory.scrambleRanges_size _ _ _, step_resetWith_waits _ _ _⟩
  · exact ⟨_, step_powerCycle h, resetWith_frame _ _ _, Memory.scramble_size _ _ _ _, step_resetWith_waits _ _ _⟩

/-- Settles O19: only the abandoned ranges are drawn anew, none while idle and the destination range while busy. -/
theorem resetAbandonsARunningCommand : Obligations.ResetAbandonsARunningCommand := by
  intro s rest h hz
  refine ⟨_, step_hardReset h, rfl, rfl, rfl, rfl, fun hi => hardReset_mem_idle hi, fun x hx => ?_⟩
  have hsame : writtenRanges { s with agenda := rest } = writtenRanges s := writtenRanges_congr rfl rfl rfl rfl
  exact hardReset_load_outside hz (hsame ▸ hx)

end Sys2Proof.Machine
end

section
/-! Decoding undoes encoding: an encoded command's word carries its OP, its ARG and a zero RSV (R60 to R63). -/

namespace Sys2Proof

/-- Every OP of the map fits bits 7:0 (R60, R62). -/
theorem opcodeOf_lt (i : Instr) : opcodeOf i < 256 := by
  cases i with
  | addRoundKey r => exact (by decide : 0x18 < 256)
  | _ => decide

/-- The word of a well-formed command does not overflow: RSV stays zero (R60). -/
theorem encode_toNat_of_wf {i : Instr} (h : i.wf = true) : (encode i).toNat = opcodeOf i + 256 * argOf i := by
  have hop := opcodeOf_lt i
  have harg := (wf_iff_argOf_lt i).mp h
  rw [encode_toNat, Nat.mod_eq_of_lt (by omega)]

/-- A well-formed command's word decodes to it (R60 to R63). -/
theorem decode_encode {i : Instr} (h : i.wf = true) : decode (encode i) = .command i := by
  have hop := opcodeOf_lt i
  have harg := (wf_iff_argOf_lt i).mp h
  rw [decode_eq_command_iff, encode_toNat_of_wf h]
  refine ⟨?rsv, ?op, ?arg⟩ <;> omega

end Sys2Proof

namespace Sys2Proof.Machine

/-- Settles O1: OP and ARG fit their fields, so the decoder's three fields are read back from the word's sum. -/
theorem decodeUndoesEncode : Obligations.DecodeUndoesEncode := by
  unfold Obligations.DecodeUndoesEncode
  exact fun _ => decode_encode

end Sys2Proof.Machine
end
